-- ==== Sys2Proof/Word.lean ====
section
/-! DEFINITION. The word types of the block. 00_scope.md R8 fixes `ADDR_W = LEN_W = REG_W = 32`; R9 makes every
value unsigned and a byte 8 bits. -/
namespace Sys2Proof

/-- A byte, an 8-bit unsigned value (R9). -/
abbrev Byte := BitVec 8

/-- A register, a command word, an address, a capacity or a length: 32 bits each (R8). -/
abbrev Word := BitVec 32

end Sys2Proof
end

