-- ==== Sys2Proof/Config.lean ====
section
/-! DEFINITION. What an implementation fixes: the two engines' names, the constants of the transform
(00_scope.md R7), the two parameters of the block (R8) and the free values of the model. -/
namespace Sys2Proof

/-- The two engines of the block (00_scope.md R14, 30_encoding.md R84). -/
inductive Engine where
  /-- the encoder, `UNIT = 0` -/
  | enc
  /-- the decoder, `UNIT = 1` -/
  | dec
  deriving DecidableEq, Repr

namespace Config

/-- `DELIM` (R7): the frame delimiter, the one value removed from the payload. -/
abbrev delim : Byte := 0x00#8

/-- `CODE_FULL` (R7): the code of a capped block, and the decoder's first `PCODE`. -/
abbrev codeFull : Byte := 0xFF#8

/-- `MAX_RUN` (R7): the most literal bytes in one block. -/
abbrev maxRun : Nat := 254

/-- `MIN_CAP` (R7): the least destination capacity START accepts. -/
abbrev minCap : Nat := 2

/-- `2^ADDR_W` (20_memory.md R60): how many bytes destination memory has. -/
abbrev addrSpace : Nat := 2 ^ 32

/-- How many bytes the register block takes (10_state.md R39). -/
abbrev blockBytes : Nat := 64

/-- The parameters of the block (R8). A model takes each as an argument, so they stand in State as plain data
that no step changes; every statement holds for every value of both (log entry 3). -/
structure Params where
  /-- `CODEC_BASE`: the bus address of register offset 0, left OPEN by R8. -/
  codecBase : Word
  /-- `LEGACY_CHUNK_ZERO`: `false` selects the wire-format rule of 41_decoder.md R150, `true` the source's own wording. -/
  legacyChunkZero : Bool
  deriving DecidableEq, Repr

/-- The parameters `State.reset` has: R8's default `false`, and base 0, which is this model's. DESIGN CHOICE (log entry 3), unsafe. -/
def defaultParams : Params := { codecBase := 0, legacyChunkZero := false }

/-- Free values: the `n`-th byte the spec lets be any value (70_reset_and_hazards.md R211, 20_memory.md R74).
It has no body, so no proof can know it (log entry 6, safe). -/
opaque freeByte : Nat → Byte

/-- A free value: what destination memory holds at an address that nothing in the run has written
(95_test_vectors.md section 3, "with destination memory in an unknown state"). It has no body (log entry 5, safe). -/
opaque initialByte : Nat → Byte

end Config
end Sys2Proof
end

