-- ==== Sys2Proof/Syntax.lean ====
section
/-! DEFINITION. The six commands of the block: one constructor per row of opcode_table.json (30_encoding.md R85). -/
namespace Sys2Proof

/-- The commands. A FEED carries `DATA` (R82) and `LAST` (R83); a START and an END carry nothing. -/
inductive Instr where
  /-- `enc.start`, 40_encoder.md R110 -/
  | encStart
  /-- `enc.feed`, 40_encoder.md R114 -/
  | encFeed (data : Byte) (last : Bool)
  /-- `enc.end`, 40_encoder.md R120 -/
  | encEnd
  /-- `dec.start`, 41_decoder.md R140 -/
  | decStart
  /-- `dec.feed`, 41_decoder.md R144 -/
  | decFeed (data : Byte) (last : Bool)
  /-- `dec.end`, 41_decoder.md R160 -/
  | decEnd
  deriving DecidableEq, Repr

end Sys2Proof
end

