-- ==== Sys2Proof/Machine/Bus.lean ====
section
/-! DEFINITION. What the world outside the block can do to it (20_memory.md R70, R71), and the register map of
10_state.md R39, with the one shape of register access that 20_memory.md R68 defines. -/
namespace Sys2Proof.Machine

/-- One access of the outside world, in bus order (20_memory.md R66). Register space and destination memory are
separate spaces (R60). -/
inductive Access where
  /-- a host write of `size` bytes to register space; a 4-byte write to `CMD` issues a command -/
  | regWrite (addr : Word) (size : Nat) (value : Word)
  /-- a host read of `size` bytes from register space -/
  | regRead (addr : Word) (size : Nat)
  /-- a write of one byte to destination memory by the host or another bus master (R74) -/
  | memWrite (addr : Word) (value : Byte)
  /-- a host read of one byte of destination memory (R66 item 4) -/
  | memRead (addr : Word)
  /-- the platform resets the block between two accesses (70_reset_and_hazards.md R210) -/
  | reset
  /-- the platform resets the block while a `CMD` write of `value` is in progress (R211) -/
  | resetDuring (value : Word)
  deriving DecidableEq, Repr

/-- The sixteen 32-bit places of the register block (10_state.md R39). -/
inductive Reg where
  | cmd
  | encDstBase
  | encDstCap
  | encStatus
  | encResult
  | encCursor
  | encSlot
  | encBlen
  | reserved
  | decDstBase
  | decDstCap
  | decStatus
  | decResult
  | decCursor
  | decPcode
  | decRem
  deriving DecidableEq, Repr

/-- The offset of each register (R39). -/
def Reg.offset : Reg → Nat
  | .cmd => 0x00
  | .encDstBase => 0x04
  | .encDstCap => 0x08
  | .encStatus => 0x0C
  | .encResult => 0x10
  | .encCursor => 0x14
  | .encSlot => 0x18
  | .encBlen => 0x1C
  | .reserved => 0x20
  | .decDstBase => 0x24
  | .decDstCap => 0x28
  | .decStatus => 0x2C
  | .decResult => 0x30
  | .decCursor => 0x34
  | .decPcode => 0x38
  | .decRem => 0x3C

/-- The register block, in the order of R39. -/
def Reg.all : List Reg :=
  [.cmd, .encDstBase, .encDstCap, .encStatus, .encResult, .encCursor, .encSlot, .encBlen,
   .reserved, .decDstBase, .decDstCap, .decStatus, .decResult, .decCursor, .decPcode, .decRem]

/-- The register at an offset (R39). -/
def Reg.ofOffset (off : Nat) : Option Reg := Reg.all.find? (fun r => r.offset == off)

/-- The offset of a bus address from `CODEC_BASE` (R39). -/
def busOffset (p : Config.Params) (addr : Word) : Nat := (addr - p.codecBase).toNat

/-- A register access has the shape R68 defines: 32 bits, aligned, at an offset of the register block. -/
def wellShaped (p : Config.Params) (addr : Word) (size : Nat) : Bool :=
  size == 4 && busOffset p addr % 4 == 0 && decide (busOffset p addr < Config.blockBytes)

/-- A register access that touches at least one byte of the register block. -/
def touchesBlock (p : Config.Params) (addr : Word) (size : Nat) : Bool :=
  decide (busOffset p addr < Config.blockBytes) || decide (2 ^ 32 < busOffset p addr + size)

/-- The register an access of the one defined shape names (R39, 20_memory.md R68). -/
def selectedReg (p : Config.Params) (addr : Word) (size : Nat) : Option Reg :=
  if wellShaped p addr size then Reg.ofOffset (busOffset p addr) else none

end Sys2Proof.Machine
end

