-- ==== Sys2Proof/WellFormed.lean ====
section
/-! DEFINITION. Well-formed commands and well-formed host accesses. The types of `Instr` hold exactly the operand
values 30_encoding.md R82 and R83 allow, so no command is ill-formed; a register access is well-formed when it has
the one shape 20_memory.md R68 defines. -/
namespace Sys2Proof

/-- Every operand value of every command is encodable: `DATA` is any byte (R82), `LAST` any bit (R83). -/
def Instr.wf : Instr → Bool
  | .encStart => true
  | .encFeed _ _ => true
  | .encEnd => true
  | .decStart => true
  | .decFeed _ _ => true
  | .decEnd => true

namespace Machine

/-- A host access is well-formed when the spec gives it a meaning: every access but a register access of another
shape or place (20_memory.md R68). -/
def Access.wf (p : Config.Params) : Access → Bool
  | .regWrite addr size _ => wellShaped p addr size
  | .regRead addr size => wellShaped p addr size
  | .memWrite _ _ => true
  | .memRead _ => true
  | .reset => true
  | .resetDuring _ => true

end Machine
end Sys2Proof
end

