-- ==== Sys2Proof/Decode.lean ====
section
/-! DEFINITION. The command word (30_encoding.md R80 to R88): its fields, the six rows that select a command, the
decoder, total on every 32-bit word, and the encoder. -/
namespace Sys2Proof

/-- `OP`, bits [3:0] (R80). -/
def opField (w : Word) : BitVec 4 := w.extractLsb' 0 4

/-- `UNIT`, bit [4] (R84): every word, legal or not, is addressed to exactly one engine. -/
def unitField (w : Word) : Engine := if w.getLsbD 4 then .dec else .enc

/-- `RES0`, bits [6:5] (R80). -/
def res0Field (w : Word) : BitVec 2 := w.extractLsb' 5 2

/-- `LAST`, bit [7] (R83). -/
def lastField (w : Word) : Bool := w.getLsbD 7

/-- `DATA`, bits [15:8] (R82). -/
def dataField (w : Word) : Byte := w.extractLsb' 8 8

/-- `RES1`, bits [31:16] (R80). -/
def res1Field (w : Word) : BitVec 16 := w.extractLsb' 16 16

/-- A row of R85's table: a word selects it when its masked bits are the row's pattern. -/
structure Row where
  mask : Word
  pattern : Word
  deriving DecidableEq, Repr

/-- R85: "A word `w` is command `m` when `(w AND mask_m) == match_m`". -/
def Row.selects (r : Row) (w : Word) : Bool := (w &&& r.mask) == r.pattern

/-- R85, row `enc.start`. -/
def encStartRow : Row := { mask := 0xFFFFFFFF, pattern := 0x00000001 }

/-- R85, row `enc.feed`. -/
def encFeedRow : Row := { mask := 0xFFFF007F, pattern := 0x00000002 }

/-- R85, row `enc.end`. -/
def encEndRow : Row := { mask := 0xFFFFFFFF, pattern := 0x00000003 }

/-- R85, row `dec.start`. -/
def decStartRow : Row := { mask := 0xFFFFFFFF, pattern := 0x00000011 }

/-- R85, row `dec.feed`. -/
def decFeedRow : Row := { mask := 0xFFFF007F, pattern := 0x00000012 }

/-- R85, row `dec.end`. -/
def decEndRow : Row := { mask := 0xFFFFFFFF, pattern := 0x00000013 }

/-- The six rows of R85, in its order. -/
def opcodeRows : List Row := [encStartRow, encFeedRow, encEndRow, decStartRow, decFeedRow, decEndRow]

/-- Why a word is malformed (R86). All five have the one effect of R88. -/
inductive Malformed where
  /-- `OP` is one of the reserved values (R81) -/
  | reservedOp
  /-- `RES1` is not 0 -/
  | res1
  /-- `RES0` is not 0 -/
  | res0
  /-- a START or an END with `DATA` not 0 -/
  | data
  /-- a START or an END with `LAST` not 0 -/
  | last
  deriving DecidableEq, Repr

/-- The name of what is wrong with a word that no row selects (R86). -/
def malformedReason (w : Word) : Malformed :=
  if opField w = 0 ∨ 4 ≤ (opField w).toNat then .reservedOp
  else if res1Field w ≠ 0 then .res1
  else if res0Field w ≠ 0 then .res0
  else if dataField w ≠ 0 then .data
  else .last

/-- The decoder: the command R85 gives a word, or the name of what makes it malformed (R86). -/
def decode (w : Word) : Except Malformed Instr :=
  if encStartRow.selects w then .ok .encStart
  else if encFeedRow.selects w then .ok (.encFeed (dataField w) (lastField w))
  else if encEndRow.selects w then .ok .encEnd
  else if decStartRow.selects w then .ok .decStart
  else if decFeedRow.selects w then .ok (.decFeed (dataField w) (lastField w))
  else if decEndRow.selects w then .ok .decEnd
  else .error (malformedReason w)

/-- The command `decode` reads, or none where the word is malformed. -/
def decode? (w : Word) : Option Instr :=
  match decode w with
  | .ok i => some i
  | .error _ => none

/-- The engine a command is addressed to (R84, R85). -/
def Instr.engine : Instr → Engine
  | .encStart => .enc
  | .encFeed _ _ => .enc
  | .encEnd => .enc
  | .decStart => .dec
  | .decFeed _ _ => .dec
  | .decEnd => .dec

/-- A command is a START (30_encoding.md R81, R85). -/
def Instr.isStart : Instr → Bool
  | .encStart => true
  | .encFeed _ _ => false
  | .encEnd => false
  | .decStart => true
  | .decFeed _ _ => false
  | .decEnd => false

/-- A command word from its fields, bit 31 on the left as R80 writes it: `0000000000000000 dddddddd l 00 u oooo`. -/
def commandWord (data : Byte) (last : Bool) (unit : Engine) (op : BitVec 4) : Word :=
  0#16 ++ data ++ BitVec.ofBool last ++ 0#2 ++ BitVec.ofBool (decide (unit = .dec)) ++ op

/-- The encoder: the word of each command, from R80's layout and R81's `OP` values. -/
def encode : Instr → Word
  | .encStart => commandWord 0 false .enc 1
  | .encFeed data last => commandWord data last .enc 2
  | .encEnd => commandWord 0 false .enc 3
  | .decStart => commandWord 0 false .dec 1
  | .decFeed data last => commandWord data last .dec 2
  | .decEnd => commandWord 0 false .dec 3

/-- What the decoder reads from an instruction whose bits are `w`, of which the table gives `nbits`. A command is
one 32-bit word (R80), so bit `k` of `w` is bit `k` of the word. -/
def decodeTableWord (nbits w : Nat) : Option Instr :=
  decode? (BitVec.ofNat 32 (w % 2 ^ nbits))

end Sys2Proof
end

