-- ==== Sys2Proof/Machine/State.lean ====
section
/-! DEFINITION. The state of the block, as plain data (10_state.md R20 to R41), the names a step can stop with, and
the state right after reset. -/
namespace Sys2Proof.Machine

/-- `<E>.PHASE` (R26). The value 3 is never held (93_implementation_defined.md U19), so there is no name for it. -/
inductive Phase where
  /-- `IDLE`, 0: no session has been started since reset -/
  | idle
  /-- `OPEN`, 1: a session is open -/
  | opened
  /-- `FAILED`, 2: the session ended in an error -/
  | failed
  deriving DecidableEq, Repr

/-- The result codes of R38. -/
inductive Result where
  /-- `OK`, 0 -/
  | ok
  /-- `InvalidArgument`, 1 -/
  | invalidArgument
  /-- `BufferOverflow`, 2 -/
  | bufferOverflow
  /-- `DecodeError`, 3 -/
  | decodeError
  deriving DecidableEq, Repr

/-- The registers both engines have (R23, R26 to R31, R37). -/
structure Session where
  /-- `<E>_DST_BASE`, written by the host (R37) -/
  dstBase : Word
  /-- `<E>_DST_CAP`, written by the host (R37) -/
  dstCap : Word
  /-- `<E>.WIN_BASE`, latched by START, hidden (R27, R36) -/
  winBase : Word
  /-- `<E>.WIN_CAP`, latched by START, hidden (R27, R36) -/
  winCap : Word
  /-- `<E>.PHASE` (R26) -/
  phase : Phase
  /-- `<E>.LASTRES` (R28) -/
  lastRes : Result
  /-- `<E>.FAILERR` (R29); code 0 is `Result.ok` -/
  failErr : Result
  /-- `<E>.RESULT` (R30) -/
  result : Word
  /-- `<E>.CURSOR`, an offset from `WIN_BASE` (R23, R31) -/
  cursor : Word
  deriving DecidableEq, Repr

/-- The registers of `ENC`. -/
structure Enc extends Session where
  /-- `ENC.SLOT`, an offset (R24) -/
  slot : Word
  /-- `ENC.BLEN` (R25) -/
  blen : Byte
  deriving DecidableEq, Repr

/-- The registers of `DEC`. -/
structure Dec extends Session where
  /-- `DEC.PCODE` (R32) -/
  pcode : Byte
  /-- `DEC.REM` (R33) -/
  rem : Byte
  /-- `DEC.TERM` (R34) -/
  term : Bool
  /-- `DEC.DISCARD` (R35) -/
  discard : Bool
  deriving DecidableEq, Repr

/-- Who may use an engine's window (70_reset_and_hazards.md R216). The model's own record of the host's contract, no
register of the block (log entry 7). -/
inductive Custody where
  /-- the host: no session since reset, or the host has read the last END's result -/
  | host
  /-- the engine: since a successful START, or a FEED of an open session -/
  | engine
  /-- the engine: an END has completed and the host has not read its result -/
  | unread
  deriving DecidableEq, Repr

/-- Destination memory (20_memory.md R60): the bytes something has written, addresses strictly rising. A byte not
listed has no value the model knows (log entry 5, safe). -/
abbrev Memory := List Host.Cell

/-- The whole machine: the block's registers, destination memory, the host's accesses not yet served, and the
model's own fields (INVENTORY.md, State). -/
structure State where
  /-- `CODEC_BASE` and `LEGACY_CHUNK_ZERO` (00_scope.md R8), changed by no step -/
  params : Config.Params
  /-- the encoder -/
  enc : Enc
  /-- the decoder -/
  dec : Dec
  /-- destination memory -/
  mem : Memory
  /-- the accesses of the outside world still to be served, in bus order (20_memory.md R66; log entry 1) -/
  pending : List Access
  /-- the value the most recent host read returned (20_memory.md R71; log entry 2) -/
  readData : Option Word
  /-- how many free bytes have been drawn (log entry 6) -/
  freeCount : Nat
  /-- who may use the encoder's window (R216; log entry 7) -/
  encCustody : Custody
  /-- who may use the decoder's window (R216; log entry 7) -/
  decCustody : Custody
  /-- the bytes of the encoder's window that another writer races for (20_memory.md R74), addresses strictly rising;
  each is any value (log entry 7) -/
  encRaced : List Nat
  /-- the bytes of the decoder's window that another writer races for (R74; log entry 7) -/
  decRaced : List Nat
  deriving DecidableEq, Repr

/-- Why the machine stops with a fault. -/
inductive Fault where
  /-- Raised by a host register access that touches no byte of the 64-byte register block: not an address of this
  block (10_state.md R39; log entry 4). Safe: the model stops. -/
  | outsideRegisterBlock
  deriving DecidableEq, Repr

/-- Why the machine has no meaning for what it was asked to do. -/
inductive Refusal where
  /-- Raised by an arm of `exec` that has no meaning yet; no arm answers it in this model. Safe: the model stops. -/
  | notModelled (mnemonic : String)
  /-- Raised by a sub-word, misaligned or wider access to the register block, which 20_memory.md R68 says a model
  refuses. Safe: the model stops. -/
  | registerAccess
  deriving DecidableEq, Repr

/-- The registers both engines have, at the values R41 gives for reset. -/
def Session.reset : Session :=
  { dstBase := 0, dstCap := 0, winBase := 0, winCap := 0, phase := .idle, lastRes := .ok, failErr := .ok,
    result := 0, cursor := 0 }

/-- The encoder's registers at the values R41 gives for reset. -/
def Enc.reset : Enc := { toSession := Session.reset, slot := 0, blen := 0 }

/-- The decoder's registers at the values R41 gives for reset. -/
def Dec.reset : Dec := { toSession := Session.reset, pcode := 0, rem := 0, term := false, discard := false }

/-- The machine right after reset (10_state.md R41, 70_reset_and_hazards.md R210), with nothing known of destination
memory, no access pending and the host in charge of every window (log entries 1, 2, 3, 5, 6, 7). -/
def State.reset : State :=
  { params := Config.defaultParams, enc := Enc.reset, dec := Dec.reset, mem := [], pending := [],
    readData := none, freeCount := 0, encCustody := .host, decCustody := .host, encRaced := [], decRaced := [] }

end Sys2Proof.Machine
end

