-- ==== Sys2Proof/Machine/Ops.lean ====
section
/-! DEFINITION. The named operations over memory and registers that the commands share: destination writes
(20_memory.md R61), raced bytes (R74), free bytes, the results of a command (60_exceptions.md R184 to R188) and the phase checks
(R189). -/
namespace Sys2Proof.Machine

/-- The byte memory holds at an address, or none where nothing in the run has written it (log entry 5). -/
def Memory.read : Memory → Nat → Option Byte
  | [], _ => none
  | (k, v) :: rest, a => if k = a then some v else Memory.read rest a

/-- Store one byte, keeping the addresses strictly rising. -/
def Memory.write : Memory → Nat → Byte → Memory
  | [], a, v => [(a, v)]
  | (k, x) :: rest, a, v =>
    if a < k then (a, v) :: (k, x) :: rest
    else if a = k then (a, v) :: rest
    else (k, x) :: Memory.write rest a v

/-- Forget the value of a byte. -/
def Memory.erase (m : Memory) (a : Nat) : Memory := m.filter (fun c => c.1 != a)

/-- Store bytes one after another, in the order listed (20_memory.md R66 item 2). -/
def Memory.writeAll : Memory → List Host.Cell → Memory
  | m, [] => m
  | m, (a, v) :: rest => Memory.writeAll (Memory.write m a v) rest

/-- The addresses of a memory are strictly rising and none lies below `lo`. -/
def Memory.risingFrom : Nat → Memory → Bool
  | _, [] => true
  | lo, (k, _) :: rest => decide (lo ≤ k) && Memory.risingFrom (k + 1) rest

/-- The canonical form of memory: addresses strictly rising and inside destination memory (20_memory.md R60). An
unlisted byte has no value, so no entry can equal what an unlisted address reads as. -/
def Memory.wf (m : Memory) : Bool :=
  Memory.risingFrom 0 m && m.all (fun c => decide (c.1 < Config.addrSpace))

/-- Put an address among addresses that strictly rise. -/
def insertAddr (a : Nat) : List Nat → List Nat
  | [] => [a]
  | k :: rest => if a < k then a :: k :: rest else if a = k then k :: rest else k :: insertAddr a rest

/-- A byte that two writers race for, in either engine's window (20_memory.md R74). It has no value in memory. -/
def State.raced (s : State) (a : Nat) : Bool := s.encRaced.contains a || s.decRaced.contains a

/-- Memory after an engine's writes, in order (20_memory.md R66). A write to a raced byte does not decide the race: no
order between the two writers is given (R67), so the byte stays any value (R74; log entry 7). -/
def State.land (s : State) (writes : List Host.Cell) : Memory :=
  s.mem.writeAll (writes.filter (fun c => !s.raced c.1))

/-- What a command does to its engine: the registers it leaves and the bytes it writes, in order. An engine never
reads destination memory (20_memory.md R62) nor the other engine (10_state.md R20), so this is all it is. -/
structure Effect (ε : Type) where
  regs : ε
  writes : List Host.Cell
  deriving DecidableEq, Repr

/-- An effect with one byte written before it. -/
def Effect.after {ε : Type} (cell : Host.Cell) (x : Effect ε) : Effect ε :=
  { x with writes := cell :: x.writes }

/-- Commit a command of the encoder: its registers, then its writes in order (20_memory.md R66), and who may use its
window afterwards. -/
def State.commitEnc (s : State) (x : Effect Enc) (c : Custody) : State :=
  { s with enc := x.regs, mem := s.land x.writes, encCustody := c }

/-- Commit a command of the decoder. -/
def State.commitDec (s : State) (x : Effect Dec) (c : Custody) : State :=
  { s with dec := x.regs, mem := s.land x.writes, decCustody := c }

/-- A successful START gives the window to the engine; a refused one changes nothing (70_reset_and_hazards.md R216). -/
def Custody.started (refused : Bool) (c : Custody) : Custody := if refused then c else .engine

/-- A FEED of an open session has the engine at work in its window, also after an END whose result was read (R224; log
entry 7). -/
def Custody.fed (p : Phase) (c : Custody) : Custody :=
  match p with
  | .idle => c
  | .opened => .engine
  | .failed => c

/-- An END has a result for the host to read. In `FAILED` it is the result of the session the engine still holds; once
that was read the window is the host's. -/
def Custody.ended (p : Phase) (c : Custody) : Custody :=
  match p, c with
  | .idle, c => c
  | .opened, _ => .unread
  | .failed, .host => .host
  | .failed, .engine => .unread
  | .failed, .unread => .unread

/-- Each listed byte becomes any value: a fresh free byte each (70_reset_and_hazards.md R211, 20_memory.md R74;
log entry 6). -/
def State.freeBytes : List Nat → State → State
  | [], s => s
  | a :: rest, s =>
    State.freeBytes rest
      { s with mem := s.mem.write a (Config.freeByte s.freeCount), freeCount := s.freeCount + 1 }

/-- The bytes settled when the race for an engine's window ends: those raced for in it that the other engine's window
does not hold too, for there the race goes on. -/
def State.settled (s : State) (u : Engine) : List Nat :=
  match u with
  | .enc => s.encRaced.filter (fun a => !s.decRaced.contains a)
  | .dec => s.decRaced.filter (fun a => !s.encRaced.contains a)

/-- The host has its window back (70_reset_and_hazards.md R216), or the block was reset: what was raced for in the
window is settled as any value, a free byte each (20_memory.md R74; log entry 7). -/
def State.release (s : State) (u : Engine) : State :=
  match u with
  | .enc =>
    { s with
      mem := (State.freeBytes (s.settled .enc) s).mem
      freeCount := (State.freeBytes (s.settled .enc) s).freeCount
      encRaced := []
      encCustody := .host }
  | .dec =>
    { s with
      mem := (State.freeBytes (s.settled .dec) s).mem
      freeCount := (State.freeBytes (s.settled .dec) s).freeCount
      decRaced := []
      decCustody := .host }

/-- Who may use the window of the engine named. -/
def State.custody (s : State) : Engine → Custody
  | .enc => s.encCustody
  | .dec => s.decCustody

/-- Give the window of the engine named to another holder. -/
def State.setCustody (s : State) (u : Engine) (c : Custody) : State :=
  match u with
  | .enc => { s with encCustody := c }
  | .dec => { s with decCustody := c }

/-- The raced bytes of the window of the engine named. -/
def State.racedOf (s : State) : Engine → List Nat
  | .enc => s.encRaced
  | .dec => s.decRaced

/-- The registers both engines have, of the engine named. -/
def State.session (s : State) : Engine → Session
  | .enc => s.enc.toSession
  | .dec => s.dec.toSession

/-- Replace the registers both engines have, of the engine named. -/
def State.setSession (s : State) (u : Engine) (x : Session) : State :=
  match u with
  | .enc => { s with enc := { s.enc with toSession := x } }
  | .dec => { s with dec := { s.dec with toSession := x } }

/-- `return OK` (60_exceptions.md R184). -/
def Session.succeed (x : Session) : Session := { x with lastRes := .ok }

/-- `raise InvalidArgument`: nothing but `LASTRES` changes (R185). -/
def Session.invalid (x : Session) : Session := { x with lastRes := .invalidArgument }

/-- Failure entry (R186): the one operation by which `BufferOverflow` and `DecodeError` are taken. -/
def Session.fail (x : Session) (code : Result) : Session :=
  { x with phase := .failed, failErr := code, lastRes := code }

/-- A FEED or END in phase `FAILED` repeats the stored error and changes nothing else (R187). -/
def Session.repeatError (x : Session) : Session := { x with lastRes := x.failErr }

/-- A successful START (40_encoder.md R110, 41_decoder.md R140), and so the recovery of R188: latch the window from
the argument registers, open the session with the cursor at `cursor`, clear `FAILERR` and `RESULT`. -/
def Session.openAt (x : Session) (cursor : Word) : Session :=
  { x with winBase := x.dstBase, winCap := x.dstCap, cursor := cursor, phase := .opened, failErr := .ok,
           result := 0, lastRes := .ok }

/-- The cursor moves on by one. Every rule checks `CURSOR < WIN_CAP` first, so it does not wrap. -/
def Session.advance (x : Session) : Session := { x with cursor := x.cursor + 1 }

/-- `Session.succeed` for the encoder. -/
def Enc.succeed (e : Enc) : Enc := { e with toSession := e.toSession.succeed }

/-- `Session.invalid` for the encoder. -/
def Enc.invalid (e : Enc) : Enc := { e with toSession := e.toSession.invalid }

/-- `Session.fail` for the encoder. -/
def Enc.fail (e : Enc) (code : Result) : Enc := { e with toSession := e.toSession.fail code }

/-- `Session.repeatError` for the encoder. -/
def Enc.repeatError (e : Enc) : Enc := { e with toSession := e.toSession.repeatError }

/-- `Session.succeed` for the decoder. -/
def Dec.succeed (d : Dec) : Dec := { d with toSession := d.toSession.succeed }

/-- `Session.invalid` for the decoder. -/
def Dec.invalid (d : Dec) : Dec := { d with toSession := d.toSession.invalid }

/-- `Session.fail` for the decoder. -/
def Dec.fail (d : Dec) (code : Result) : Dec := { d with toSession := d.toSession.fail code }

/-- `Session.repeatError` for the decoder. -/
def Dec.repeatError (d : Dec) : Dec := { d with toSession := d.toSession.repeatError }

/-- The phase checks of a FEED or END on the encoder (60_exceptions.md R189 items 3 and 4): `InvalidArgument` in
`IDLE`, the stored error in `FAILED`, the command's own effect in `OPEN`. -/
def Enc.whenOpen (e : Enc) (run : Enc → Effect Enc) : Effect Enc :=
  match e.phase with
  | .idle => { regs := e.invalid, writes := [] }
  | .failed => { regs := e.repeatError, writes := [] }
  | .opened => run e

/-- The phase checks of a FEED or END on the decoder (R189 items 3 and 4). -/
def Dec.whenOpen (d : Dec) (run : Dec → Effect Dec) : Effect Dec :=
  match d.phase with
  | .idle => { regs := d.invalid, writes := [] }
  | .failed => { regs := d.repeatError, writes := [] }
  | .opened => run d

/-- A malformed word: the addressed engine's `LASTRES` becomes `InvalidArgument` and nothing else changes
(30_encoding.md R88, 60_exceptions.md R185). -/
def State.malformed (s : State) (u : Engine) : State :=
  s.setSession u (s.session u).invalid

end Sys2Proof.Machine
end

