-- ==== Sys2Proof/Machine/Operands.lean ====
section
/-! DEFINITION. The operands of the commands: the window START takes from the argument registers (40_encoder.md
R110), the room left in a window, and the address of a destination write (20_memory.md R61). -/
namespace Sys2Proof.Machine

/-- START refuses the argument registers' window: a capacity below `MIN_CAP`, or a window past the top of
destination memory, computed without wrap (40_encoder.md R110, 41_decoder.md R140). -/
def Session.windowRefused (x : Session) : Bool :=
  decide (x.dstCap.toNat < Config.minCap) || decide (Config.addrSpace < x.dstBase.toNat + x.dstCap.toNat)

/-- No room at the cursor: `CURSOR >= WIN_CAP`, the check before every destination write and slot reservation
(40_encoder.md R114, R119, 41_decoder.md R148, R150). -/
def Session.full (x : Session) : Bool := decide (x.winCap.toNat ≤ x.cursor.toNat)

/-- The destination address of an offset of the latched window: `WIN_BASE + off` (20_memory.md R61). -/
def Session.address (x : Session) (off : Word) : Nat := (x.winBase + off).toNat

/-- `MemWrite(WIN_BASE + off, 1, v)` (00_scope.md R11). -/
def Session.put (x : Session) (off : Word) (v : Byte) : Host.Cell := (x.address off, v)

/-- An address lies in the latched window `[WIN_BASE, WIN_BASE + WIN_CAP)` (00_scope.md R14). -/
def Session.inWindow (x : Session) (a : Nat) : Bool :=
  decide (x.winBase.toNat ≤ a) && decide (a < x.winBase.toNat + x.winCap.toNat)

/-- An address lies in the window of the engine named, and the host may not use it: between a successful START and the
host's read of the END's result (20_memory.md R74, 70_reset_and_hazards.md R216). -/
def State.holds (s : State) (u : Engine) (a : Nat) : Bool :=
  s.custody u != .host && (s.session u).inWindow a

/-- A write of another writer to the byte: each engine that holds it now races for it, so it has no value (R74). -/
def State.race (s : State) (a : Nat) : State :=
  { s with
    mem := s.mem.erase a
    encRaced := if s.holds .enc a then insertAddr a s.encRaced else s.encRaced
    decRaced := if s.holds .dec a then insertAddr a s.decRaced else s.decRaced }

/-- A write to a byte that no engine holds: it is stored, and no race for it is left. -/
def State.store (s : State) (a : Nat) (v : Byte) : State :=
  { s with
    mem := s.mem.write a v
    encRaced := s.encRaced.filter (· != a)
    decRaced := s.decRaced.filter (· != a) }

end Sys2Proof.Machine
end

