-- ==== Sys2Proof/Machine/Decoder.lean ====
section
/-! DEFINITION. The decoder engine `DEC` (41_decoder.md): `dec.start`, `dec.feed`, `dec.end`. Each step is a function of
the decoder's registers and the parameter `LEGACY_CHUNK_ZERO` alone. -/
namespace Sys2Proof.Machine

/-- DEC.START (R140). -/
def Dec.start (d : Dec) : Effect Dec :=
  if d.windowRefused then { regs := d.invalid, writes := [] }
  else
    { regs := { toSession := d.toSession.openAt 0, pcode := Config.codeFull, rem := 0, term := false, discard := false },
      writes := [] }

/-- A byte after a terminator in the same chunk is dropped; the chunk's last byte ends the dropping (R146). -/
def Dec.drop (last : Bool) (d : Dec) : Dec := Dec.succeed { d with discard := d.discard && !last }

/-- The literal step (R148): the value is checked before the bound (60_exceptions.md R191). -/
def Dec.literal (b : Byte) (d : Dec) : Effect Dec :=
  if b = Config.delim then { regs := d.fail .decodeError, writes := [] }
  else if d.full then { regs := d.fail .bufferOverflow, writes := [] }
  else
    { regs := Dec.succeed { d with toSession := d.toSession.advance, rem := d.rem - 1 },
      writes := [d.put d.cursor b] }

/-- Whether the previous block's implicit zero is written before the byte in code position is read (R150). -/
def synthesizes (legacy : Bool) (pcode b : Byte) (last : Bool) : Bool :=
  if legacy then pcode != Config.codeFull && !last else pcode != Config.codeFull && b != Config.delim

/-- Reading the byte in code position (R152): a terminator, or the next block's code. -/
def Dec.readCode (b : Byte) (last : Bool) (d : Dec) : Dec :=
  if b = Config.delim then Dec.succeed { d with term := true, discard := d.discard || !last }
  else Dec.succeed { d with pcode := b, rem := b - 1 }

/-- A byte in code position (R150, R152). -/
def Dec.codeByte (legacy : Bool) (b : Byte) (last : Bool) (d : Dec) : Effect Dec :=
  if synthesizes legacy d.pcode b last then
    if d.full then { regs := d.fail .bufferOverflow, writes := [] }
    else
      { regs := Dec.readCode b last { d with toSession := d.toSession.advance },
        writes := [d.put d.cursor Config.delim] }
  else { regs := d.readCode b last, writes := [] }

/-- DEC.FEED in phase `OPEN` (R144). -/
def Dec.feedOpen (legacy : Bool) (b : Byte) (last : Bool) (d : Dec) : Effect Dec :=
  if d.discard then { regs := d.drop last, writes := [] }
  else if d.rem ≠ 0 then d.literal b
  else d.codeByte legacy b last

/-- DEC.FEED (R144). -/
def Dec.feed (legacy : Bool) (b : Byte) (last : Bool) (d : Dec) : Effect Dec :=
  d.whenOpen (Dec.feedOpen legacy b last)

/-- DEC.END in phase `OPEN` (R160): `DISCARD` is cleared before the check. -/
def Dec.finishOpen (d : Dec) : Effect Dec :=
  if d.rem ≠ 0 then { regs := Dec.fail { d with discard := false } .decodeError, writes := [] }
  else
    { regs := Dec.succeed { d with discard := false, toSession := { d.toSession with result := d.cursor } },
      writes := [] }

/-- DEC.END (R160). -/
def Dec.finish (d : Dec) : Effect Dec := d.whenOpen Dec.finishOpen

/-- `dec.start` (R140). -/
def execDecStart (s : State) : Host.Outcome State Fault Refusal :=
  .next (s.commitDec s.dec.start (s.decCustody.started s.dec.windowRefused))

/-- `dec.feed` (R144). -/
def execDecFeed (data : Byte) (last : Bool) (s : State) : Host.Outcome State Fault Refusal :=
  .next (s.commitDec (s.dec.feed s.params.legacyChunkZero data last) (s.decCustody.fed s.dec.phase))

/-- `dec.end` (R160). -/
def execDecEnd (s : State) : Host.Outcome State Fault Refusal :=
  .next (s.commitDec s.dec.finish (s.decCustody.ended s.dec.phase))

end Sys2Proof.Machine
end

