-- ==== Sys2Proof/Machine/Encoder.lean ====
section
/-! DEFINITION. The encoder engine `ENC` (40_encoder.md): `enc.start`, `enc.feed`, `enc.end`. Each step is a function of
the encoder's registers alone. -/
namespace Sys2Proof.Machine

/-- ENC.START (R110): refuse the window, or latch it and reserve offset 0 as the first code slot. -/
def Enc.start (e : Enc) : Effect Enc :=
  if e.windowRefused then { regs := e.invalid, writes := [] }
  else { regs := { toSession := e.toSession.openAt 1, slot := 0, blen := 1 }, writes := [] }

/-- Open a new block at the cursor: it becomes the slot, the cursor moves past it, the block is empty (R115, R117). -/
def Enc.openBlock (e : Enc) : Enc := { toSession := e.toSession.advance, slot := e.cursor, blen := 1 }

/-- The literal step (R116). -/
def Enc.literal (e : Enc) (b : Byte) : Effect Enc :=
  if e.full then { regs := e.fail .bufferOverflow, writes := [] }
  else
    { regs := Enc.succeed { e with toSession := e.toSession.advance, blen := e.blen + 1 },
      writes := [e.put e.cursor b] }

/-- The delimiter closes the block and reserves a new slot, bounds-checked (R117, R119). -/
def Enc.delimiter (e : Enc) : Effect Enc :=
  if e.full then { regs := e.fail .bufferOverflow, writes := [e.put e.slot e.blen] }
  else { regs := e.openBlock.succeed, writes := [e.put e.slot e.blen] }

/-- One payload byte against a block that is not full (R116, R117). -/
def Enc.consume (e : Enc) (b : Byte) : Effect Enc :=
  if b = Config.delim then e.delimiter else e.literal b

/-- ENC.FEED in phase `OPEN` (R114): a full block is closed first, its new slot bounds-checked (R115, R119), and the
same byte then goes against the new block (R115, R118). -/
def Enc.feedOpen (b : Byte) (e : Enc) : Effect Enc :=
  if e.blen = Config.codeFull then
    if e.full then { regs := e.fail .bufferOverflow, writes := [e.put e.slot Config.codeFull] }
    else (e.openBlock.consume b).after (e.put e.slot Config.codeFull)
  else e.consume b

/-- ENC.FEED (R114). -/
def Enc.feed (b : Byte) (e : Enc) : Effect Enc := e.whenOpen (Enc.feedOpen b)

/-- ENC.END in phase `OPEN` (R120): the last code byte, then the terminator, bounds-checked. -/
def Enc.finishOpen (e : Enc) : Effect Enc :=
  if e.full then { regs := e.fail .bufferOverflow, writes := [e.put e.slot e.blen] }
  else
    { regs := Enc.succeed { e with toSession := { e.toSession.advance with result := e.cursor + 1 } },
      writes := [e.put e.slot e.blen, e.put e.cursor Config.delim] }

/-- ENC.END (R120). -/
def Enc.finish (e : Enc) : Effect Enc := e.whenOpen Enc.finishOpen

/-- `enc.start` (R110). -/
def execEncStart (s : State) : Host.Outcome State Fault Refusal :=
  .next (s.commitEnc s.enc.start (s.encCustody.started s.enc.windowRefused))

/-- `enc.feed` (R114). The encoder ignores `LAST` (R113). -/
def execEncFeed (data : Byte) (_last : Bool) (s : State) : Host.Outcome State Fault Refusal :=
  .next (s.commitEnc (s.enc.feed data) (s.encCustody.fed s.enc.phase))

/-- `enc.end` (R120). -/
def execEncEnd (s : State) : Host.Outcome State Fault Refusal :=
  .next (s.commitEnc s.enc.finish (s.encCustody.ended s.enc.phase))

end Sys2Proof.Machine
end

