-- ==== Sys2Proof/Machine/Dispatch.lean ====
section
/-! DEFINITION. One arm per command of the opcode table (30_encoding.md R85). -/
namespace Sys2Proof.Machine

def exec (i : Instr) (s : State) : Host.Outcome State Fault Refusal :=
  match i with
  | .encStart => Sys2Proof.Machine.execEncStart s
  | .encFeed data last => Sys2Proof.Machine.execEncFeed data last s
  | .encEnd => Sys2Proof.Machine.execEncEnd s
  | .decStart => Sys2Proof.Machine.execDecStart s
  | .decFeed data last => Sys2Proof.Machine.execDecFeed data last s
  | .decEnd => Sys2Proof.Machine.execDecEnd s

end Sys2Proof.Machine
end

