-- ==== Sys2Proof/Machine/Flags.lean ====
section
/-! DEFINITION. The status fields: the numbers of `PHASE` (10_state.md R26) and of the result codes (R38), and the
layout of `<E>_STATUS` (R39). -/
namespace Sys2Proof.Machine

/-- The number of a phase (R26). -/
def Phase.code : Phase → BitVec 2
  | .idle => 0
  | .opened => 1
  | .failed => 2

/-- The number of a result (R38). -/
def Result.code : Result → BitVec 2
  | .ok => 0
  | .invalidArgument => 1
  | .bufferOverflow => 2
  | .decodeError => 3

/-- `<E>_STATUS` (R39), bit 31 on the left: reserved [31:14], `DISCARD` [13], `TERM` [12], reserved [11:10],
`FAILERR` [9:8], reserved [7:6], `LASTRES` [5:4], reserved [3:2], `PHASE` [1:0]. -/
def Session.status (x : Session) (term discard : Bool) : Word :=
  0#18 ++ BitVec.ofBool discard ++ BitVec.ofBool term ++ 0#2 ++ x.failErr.code ++ 0#2 ++ x.lastRes.code ++ 0#2
    ++ x.phase.code

/-- `ENC_STATUS`: `TERM` and `DISCARD` read 0 (R39). -/
def Enc.status (e : Enc) : Word := e.toSession.status false false

/-- `DEC_STATUS` (R39). -/
def Dec.status (d : Dec) : Word := d.toSession.status d.term d.discard

end Sys2Proof.Machine
end

