-- ==== Sys2Proof/Machine/HostPort.lean ====
section
/-! DEFINITION. The register block as the host sees it (10_state.md R39, R40), host access to destination memory
(20_memory.md R66, R74), and the host accesses of the assembler syntax (30_encoding.md R89). -/
namespace Sys2Proof.Machine

/-- What a register reads as (R39, R40). -/
def State.readReg (s : State) : Reg → Word
  | .cmd => 0
  | .encDstBase => s.enc.dstBase
  | .encDstCap => s.enc.dstCap
  | .encStatus => s.enc.status
  | .encResult => s.enc.result
  | .encCursor => s.enc.cursor
  | .encSlot => s.enc.slot
  | .encBlen => s.enc.blen.setWidth 32
  | .reserved => 0
  | .decDstBase => s.dec.dstBase
  | .decDstCap => s.dec.dstCap
  | .decStatus => s.dec.status
  | .decResult => s.dec.result
  | .decCursor => s.dec.cursor
  | .decPcode => s.dec.pcode.setWidth 32
  | .decRem => s.dec.rem.setWidth 32

/-- A host write of an argument register (R37). -/
def State.writeDstBase (s : State) (u : Engine) (v : Word) : State :=
  s.setSession u { s.session u with dstBase := v }

/-- A host write of a capacity argument register (R37). -/
def State.writeDstCap (s : State) (u : Engine) (v : Word) : State :=
  s.setSession u { s.session u with dstCap := v }

/-- A host write of a register other than `CMD`: a RW register stores all 32 bits, every other write has no effect
(R40). A write of `CMD` is a command and is served by the step. -/
def State.writeReg (s : State) (r : Reg) (v : Word) : State :=
  match r with
  | .encDstBase => s.writeDstBase .enc v
  | .encDstCap => s.writeDstCap .enc v
  | .decDstBase => s.writeDstBase .dec v
  | .decDstCap => s.writeDstCap .dec v
  | .cmd => s
  | .encStatus => s
  | .encResult => s
  | .encCursor => s
  | .encSlot => s
  | .encBlen => s
  | .reserved => s
  | .decStatus => s
  | .decResult => s
  | .decCursor => s
  | .decPcode => s
  | .decRem => s

/-- How a register access that is not of the defined shape stops (20_memory.md R68; log entry 4). -/
def badRegisterAccess (p : Config.Params) (addr : Word) (size : Nat) : Host.Outcome State Fault Refusal :=
  if touchesBlock p addr size then .refused .registerAccess else .fault .outsideRegisterBlock

/-- A host register write to a register other than `CMD` (R40). -/
def serveRegWrite (addr : Word) (size : Nat) (v : Word) (s : State) : Host.Outcome State Fault Refusal :=
  match selectedReg s.params addr size with
  | some r => .next (s.writeReg r v)
  | none => badRegisterAccess s.params addr size

/-- The engine whose END's result a register shows: the code in its status, the length in its result (R38, R39,
20_memory.md R71). -/
def Reg.endResultOf : Reg → Option Engine
  | .cmd => none
  | .encDstBase => none
  | .encDstCap => none
  | .encStatus => some .enc
  | .encResult => some .enc
  | .encCursor => none
  | .encSlot => none
  | .encBlen => none
  | .reserved => none
  | .decDstBase => none
  | .decDstCap => none
  | .decStatus => some .dec
  | .decResult => some .dec
  | .decCursor => none
  | .decPcode => none
  | .decRem => none

/-- What a host read of a register does to the host's own contract: the read of an END's result gives the host its
window back (70_reset_and_hazards.md R216; log entry 7). -/
def State.afterRead (s : State) (r : Reg) : State :=
  match r.endResultOf with
  | none => s
  | some u => if s.custody u = .unread then s.release u else s

/-- A host register read: it hands the host the value and has no side effect on any register (R40). -/
def serveRegRead (addr : Word) (size : Nat) (s : State) : Host.Outcome State Fault Refusal :=
  match selectedReg s.params addr size with
  | some r => .next { s.afterRead r with readData := some (s.readReg r) }
  | none => badRegisterAccess s.params addr size

/-- A write of destination memory by the host or another master: in a window an engine holds it is a race and the byte
has no value from then on, elsewhere the byte is stored (20_memory.md R74; log entry 7). -/
def serveMemWrite (addr : Word) (v : Byte) (s : State) : Host.Outcome State Fault Refusal :=
  if s.holds .enc addr.toNat || s.holds .dec addr.toNat then .next (s.race addr.toNat)
  else .next (s.store addr.toNat v)

/-- What destination memory hands a reader of a byte that is not raced for: the byte last stored, or the unknown byte
it held at the start of the run (log entry 5). -/
def State.memByte (s : State) (a : Nat) : Byte := (s.mem.read a).getD (Config.initialByte a)

/-- A host read of one byte of destination memory (20_memory.md R66 item 4). A raced byte is any value, a fresh free
byte at each read (R74; log entry 7). -/
def serveMemRead (addr : Word) (s : State) : Host.Outcome State Fault Refusal :=
  if s.raced addr.toNat then
    .next { s with readData := some ((Config.freeByte s.freeCount).setWidth 32), freeCount := s.freeCount + 1 }
  else .next { s with readData := some ((s.memByte addr.toNat).setWidth 32) }

/-- The command word an access issues: a 32-bit write of `CMD` (R40, 30_encoding.md R80). -/
def Access.command? (p : Config.Params) : Access → Option Word
  | .regWrite addr size v => if selectedReg p addr size = some .cmd then some v else none
  | .regRead _ _ => none
  | .memWrite _ _ => none
  | .memRead _ => none
  | .reset => none
  | .resetDuring _ => none

/-- The bus address of a register (R39). -/
def Reg.address (p : Config.Params) (r : Reg) : Word := p.codecBase + BitVec.ofNat 32 r.offset

/-- `wr <REGNAME>, <value>` (30_encoding.md R89). -/
def Access.wr (p : Config.Params) (r : Reg) (v : Word) : Access := .regWrite (r.address p) 4 v

/-- `rd <REGNAME>` (R89). -/
def Access.rd (p : Config.Params) (r : Reg) : Access := .regRead (r.address p) 4

/-- A command of the assembler syntax: a host write of its word to `CMD` (R89). -/
def Access.issue (p : Config.Params) (i : Instr) : Access := Access.wr p .cmd (encode i)

end Sys2Proof.Machine
end

