-- ==== Sys2Proof/Machine/Reset.lean ====
section
/-! DEFINITION. Reset of the block while it runs (70_reset_and_hazards.md R210, R211). -/
namespace Sys2Proof.Machine

/-- Reset: every register of both engines takes its value of 10_state.md R41; destination memory is not changed
(R210). There is no session left, so every window is the host's, and what was raced for in it is any value (log
entry 7). -/
def State.resetRegisters (s : State) : State :=
  ({ s with enc := Enc.reset, dec := Dec.reset }.release .enc).release .dec

/-- The addresses a command writes from this state, in order. -/
def State.writesOf (s : State) (i : Instr) : List Nat :=
  match i with
  | .encStart => s.enc.start.writes.map Prod.fst
  | .encFeed data _ => (s.enc.feed data).writes.map Prod.fst
  | .encEnd => s.enc.finish.writes.map Prod.fst
  | .decStart => s.dec.start.writes.map Prod.fst
  | .decFeed data last => (s.dec.feed s.params.legacyChunkZero data last).writes.map Prod.fst
  | .decEnd => s.dec.finish.writes.map Prod.fst

/-- The addresses a command word could write: those of its command; a malformed word writes nothing (30_encoding.md
R88). -/
def State.writesOfWord (s : State) (w : Word) : List Nat :=
  match decode w with
  | .ok i => s.writesOf i
  | .error _ => []

/-- A reset while the `CMD` write of `w` is in progress: every byte that command could write is any value afterwards,
and the registers take their reset values (R211; log entry 6). -/
def State.resetDuring (s : State) (w : Word) : State :=
  (State.freeBytes (s.writesOfWord w) s).resetRegisters

end Sys2Proof.Machine
end

