-- ==== Sys2Proof/Machine/Serve.lean ====
section
/-! DEFINITION. What each access of the outside world does: a command word (30_encoding.md R85, R88), or any other
access (20_memory.md R71). -/
namespace Sys2Proof.Machine

/-- A command word reaches the block: the command it selects runs, or it is malformed (30_encoding.md R85, R88). -/
def issue (w : Word) (s : State) : Host.Outcome State Fault Refusal :=
  match decode w with
  | .ok i => exec i s
  | .error _ => .next (s.malformed (unitField w))

/-- An access that issues no command. -/
def serve (a : Access) (s : State) : Host.Outcome State Fault Refusal :=
  match a with
  | .regWrite addr size v => serveRegWrite addr size v s
  | .regRead addr size => serveRegRead addr size s
  | .memWrite addr v => serveMemWrite addr v s
  | .memRead addr => serveMemRead addr s
  | .reset => .next s.resetRegisters
  | .resetDuring w => .next (s.resetDuring w)

end Sys2Proof.Machine
end

