-- ==== Sys2Proof/Machine/Step.lean ====
section
/-! DEFINITION. One step: the next access of the outside world, in bus order (20_memory.md R66), each command one
atomic step (R65). -/
namespace Sys2Proof.Machine

/-- One step: the oldest pending access takes effect. With none pending the block waits for a command and does
nothing of its own (70_reset_and_hazards.md R210, 20_memory.md R70). -/
def step (s : State) : Host.Outcome State Fault Refusal :=
  match s.pending with
  | [] => .next s
  | a :: rest =>
    match a.command? s.params with
    | some w => issue w { s with pending := rest }
    | none => serve a { s with pending := rest }

/-- The state in which the host's next access is a write to `CMD` of the word whose bits are `w`, of which `nbits` are
given and the rest are 0. The block fetches nothing (10_state.md R21): the host issues its commands (log entry 1). -/
def State.withFetchWord (s : State) (nbits w : Nat) : State :=
  { s with pending := Access.wr s.params .cmd (BitVec.ofNat 32 (w % 2 ^ nbits)) :: s.pending }

end Sys2Proof.Machine
end

