-- ==== Sys2Proof/Machine/OneShot.lean ====
section
/-! DEFINITION. The one-shot compositions `ENCODE` and `DECODE` (30_encoding.md R90): host-side sequences of commands, each
stopped at the first result that is not `OK`. -/
namespace Sys2Proof.Machine

/-- One FEED per byte, the last with `LAST = 1` and the others with `LAST = 0` (R83, R90). -/
def feedChunk (feed : Byte → Bool → Instr) : List Byte → List Instr
  | [] => []
  | [b] => [feed b true]
  | b :: c :: rest => feed b false :: feedChunk feed (c :: rest)

/-- The commands of `ENCODE` (R90). -/
def encodeCommands (p : List Byte) : List Instr := .encStart :: (feedChunk .encFeed p ++ [.encEnd])

/-- The commands of `DECODE` (R90). -/
def decodeCommands (input : List Byte) : List Instr := .decStart :: (feedChunk .decFeed input ++ [.decEnd])

/-- An encoder session (40_encoder.md section 4): START, one FEED per payload byte with any `LAST` bits, one END. -/
def encSession (input : List (Byte × Bool)) : List Instr :=
  .encStart :: (input.map (fun x => Instr.encFeed x.1 x.2) ++ [.encEnd])

/-- The START and the FEEDs of a decoder session (41_decoder.md section 4), with any `LAST` bits. -/
def decFeeds (input : List (Byte × Bool)) : List Instr :=
  .decStart :: input.map (fun x => Instr.decFeed x.1 x.2)

/-- A decoder session (41_decoder.md section 4): START, one FEED per stuffed byte with any `LAST` bits, one END. -/
def decSession (input : List (Byte × Bool)) : List Instr := decFeeds input ++ [.decEnd]

/-- Commands one after another, whatever their results. -/
def runAll : List Instr → State → Host.Outcome State Fault Refusal
  | [], s => .next s
  | i :: rest, s =>
    match exec i s with
    | .next t => runAll rest t
    | .fault r => .fault r
    | .refused r => .refused r

/-- Commands to one engine, stopped at the first whose `LASTRES` is not `OK` (R90). -/
def runUntilError (u : Engine) : List Instr → State → Host.Outcome State Fault Refusal
  | [], s => .next s
  | i :: rest, s =>
    match exec i s with
    | .next t => if (t.session u).lastRes = .ok then runUntilError u rest t else .next t
    | .fault r => .fault r
    | .refused r => .refused r

/-- `ENCODE(payload, base, cap)` (R90): its result is `LASTRES`, and `ENC.RESULT` when that is `OK`. -/
def encodeOneShot (p : List Byte) (base cap : Word) (s : State) : Host.Outcome State Fault Refusal :=
  runUntilError .enc (encodeCommands p) ((s.writeReg .encDstBase base).writeReg .encDstCap cap)

/-- `DECODE(stuffed, base, cap)` (R90): its result is `LASTRES`, and `DEC.RESULT` when that is `OK`. -/
def decodeOneShot (input : List Byte) (base cap : Word) (s : State) : Host.Outcome State Fault Refusal :=
  runUntilError .dec (decodeCommands input) ((s.writeReg .decDstBase base).writeReg .decDstCap cap)

/-- The host accesses of `ENCODE` when the host does not stop early (R90, 70_reset_and_hazards.md R221). -/
def encodeAccesses (p : Config.Params) (payload : List Byte) (base cap : Word) : List Access :=
  Access.wr p .encDstBase base :: Access.wr p .encDstCap cap :: (encodeCommands payload).map (Access.issue p)

/-- The host accesses of `DECODE` when the host does not stop early. -/
def decodeAccesses (p : Config.Params) (input : List Byte) (base cap : Word) : List Access :=
  Access.wr p .decDstBase base :: Access.wr p .decDstCap cap :: (decodeCommands input).map (Access.issue p)

end Sys2Proof.Machine
end

