-- ==== Sys2Proof/Machine/Frame.lean ====
section
/-! DEFINITION. The wire format (30_encoding.md R91 to R98): blocks, frames, the payload a frame stands for, the blocks
of a payload (40_encoder.md R124) and the size bound. It is written apart from the engines, so that what they do can
be held against it. -/
namespace Sys2Proof.Machine

/-- A block: a code byte and its literal bytes (R91). -/
structure Block where
  code : Byte
  literals : List Byte
  deriving DecidableEq, Repr

/-- A block of the grammar of R91: the code is not 0, announces `code - 1` literals (R92), and no literal is 0. -/
def Block.wf (x : Block) : Bool :=
  x.code != Config.delim && x.literals.length + 1 == x.code.toNat && x.literals.all (· != Config.delim)

/-- The bytes of a block. -/
def Block.bytes (x : Block) : List Byte := x.code :: x.literals

/-- The bytes of a frame: its blocks, then the terminator (R91). -/
def frameBytes (blocks : List Block) : List Byte := blocks.flatMap Block.bytes ++ [Config.delim]

/-- The payload a frame's blocks stand for (R93): literals, with one 0 after each block whose code is not `0xFF` and
that another block follows. -/
def payloadOf : List Block → List Byte
  | [] => []
  | [x] => x.literals
  | x :: y :: rest => x.literals ++ (if x.code = Config.codeFull then [] else [Config.delim]) ++ payloadOf (y :: rest)

/-- The block that holds these literals. -/
def Block.holding (literals : List Byte) : Block :=
  { code := BitVec.ofNat 8 (literals.length + 1), literals := literals }

/-- The blocks of a payload when the block being filled already holds `run` (40_encoder.md R124): a new block at each
0, and after each run of 254 non-zero bytes that another byte follows (R118: a 0 after a full block closes a block
of its own). -/
def blocksFrom (run : List Byte) : List Byte → List Block
  | [] => [Block.holding run]
  | b :: rest =>
    if run.length = Config.maxRun then
      if b = Config.delim then Block.holding run :: Block.holding [] :: blocksFrom [] rest
      else Block.holding run :: blocksFrom [b] rest
    else if b = Config.delim then Block.holding run :: blocksFrom [] rest
    else blocksFrom (run ++ [b]) rest

/-- The blocks of a payload (40_encoder.md R124). -/
def blocksOf (payload : List Byte) : List Block := blocksFrom [] payload

/-- The frame of a payload (R91, 40_encoder.md R124). -/
def frameOf (payload : List Byte) : List Byte := frameBytes (blocksOf payload)

/-- `ceil_div(a, b)` for `b > 0` (00_scope.md R10). -/
def ceilDiv (a b : Nat) : Nat := (a + b - 1) / b

/-- `bound(L)`, the size bound (R97). -/
def bound (n : Nat) : Nat := if n = 0 then 2 else n + ceilDiv n Config.maxRun + 1

/-- How many blocks are capped and followed by another block: the `k` of R98. -/
def cappedBefore : List Block → Nat
  | [] => 0
  | [_] => 0
  | x :: y :: rest => (if x.code = Config.codeFull then 1 else 0) + cappedBefore (y :: rest)

end Sys2Proof.Machine
end

