-- ==== Sys2Proof/Safety.lean ====
section
/-! DEFINITION. What a sound state of the block is: the invariants the spec states of its registers, in the terms the
statements use. -/
namespace Sys2Proof.Machine

/-- What holds of the registers both engines have: the cursor stays in the window (10_state.md R23, R31), the window
never passes the top of memory (20_memory.md R61), `FAILERR` is an error exactly in phase `FAILED` (R29), and a
started engine has at least `MIN_CAP` bytes. -/
abbrev Session.Inv (x : Session) : Prop :=
  x.cursor.toNat ≤ x.winCap.toNat ∧
  x.result.toNat ≤ x.winCap.toNat ∧
  x.winBase.toNat + x.winCap.toNat ≤ Config.addrSpace ∧
  (x.phase ≠ .idle → Config.minCap ≤ x.winCap.toNat) ∧
  (x.phase = .failed → x.failErr = .bufferOverflow ∨ x.failErr = .decodeError) ∧
  (x.phase ≠ .failed → x.failErr = .ok)

/-- What holds of the encoder (10_state.md R24, R25, R29): the slot lies in the window, the block being filled lies
below the cursor, and `FAILERR` is never `DecodeError`. -/
abbrev Enc.Inv (e : Enc) : Prop :=
  e.toSession.Inv ∧
  e.failErr ≠ .decodeError ∧
  (e.phase ≠ .idle →
    e.slot.toNat < e.winCap.toNat ∧ 1 ≤ e.blen.toNat ∧ e.slot.toNat + e.blen.toNat ≤ e.cursor.toNat)

/-- What holds of the decoder (10_state.md R32, R33, R35): fewer literals are due than the last code announced and
one, so `PCODE` is not 0 and `REM` is at most 254; `DISCARD` implies `TERM` and that no literal is due. -/
abbrev Dec.Inv (d : Dec) : Prop :=
  d.toSession.Inv ∧
  (d.phase ≠ .idle → d.rem.toNat < d.pcode.toNat) ∧
  (d.discard = true → d.term = true ∧ d.rem = 0)

/-- What holds of the host's contract on one window (70_reset_and_hazards.md R216): the raced addresses strictly rise
and have no value in memory, there are none while the window is the host's, and it is the host's in phase `IDLE`. -/
abbrev CustodyInv (m : Memory) (p : Phase) (c : Custody) (raced : List Nat) : Prop :=
  raced.Pairwise (· < ·) ∧
  (∀ a ∈ raced, m.read a = none ∧ a < Config.addrSpace) ∧
  (c = .host → raced = []) ∧
  (p = .idle → c = .host)

/-- A sound state: both engines, the canonical form of memory, and the host's contract on both windows. -/
abbrev State.Inv (s : State) : Prop :=
  s.enc.Inv ∧ s.dec.Inv ∧ s.mem.wf = true ∧
  CustodyInv s.mem s.enc.phase s.encCustody s.encRaced ∧
  CustodyInv s.mem s.dec.phase s.decCustody s.decRaced

/-- The state a step goes to, where it goes to one. -/
def next? : Host.Outcome State Fault Refusal → Option State
  | .next t => some t
  | .fault _ => none
  | .refused _ => none

/-- The block being filled ends at the cursor: true from a START until the first END (10_state.md R25). -/
abbrev Enc.Filling (e : Enc) : Prop := e.cursor.toNat = e.slot.toNat + e.blen.toNat

/-- The registers that no FEED or END writes: the argument registers and the latched window (10_state.md R27, R37). -/
def Session.SameWindow (x y : Session) : Prop :=
  x.dstBase = y.dstBase ∧ x.dstCap = y.dstCap ∧ x.winBase = y.winBase ∧ x.winCap = y.winCap

/-- Everything outside the encoder, its window's custody and destination memory is as it was. -/
def OnlyEnc (s t : State) : Prop :=
  t.dec = s.dec ∧ t.params = s.params ∧ t.pending = s.pending ∧ t.readData = s.readData ∧
  t.freeCount = s.freeCount ∧ t.decCustody = s.decCustody ∧ t.encRaced = s.encRaced ∧ t.decRaced = s.decRaced

/-- Everything outside the decoder, its window's custody and destination memory is as it was. -/
def OnlyDec (s t : State) : Prop :=
  t.enc = s.enc ∧ t.params = s.params ∧ t.pending = s.pending ∧ t.readData = s.readData ∧
  t.freeCount = s.freeCount ∧ t.encCustody = s.encCustody ∧ t.encRaced = s.encRaced ∧ t.decRaced = s.decRaced

/-- Every byte outside the window reads as before: all that a claim may use of a failing command's writes
(93_implementation_defined.md U3; log entry 8). -/
def OutsideWindowKept (x : Session) (s t : State) : Prop :=
  ∀ a, x.inWindow a = false → t.mem.read a = s.mem.read a

/-- The addresses an ENC.FEED of `b` that ends `OK` stores to, by its form (40_encoder.md R114). -/
def Enc.feedStores (e : Enc) (b : Byte) : List Nat :=
  if e.blen = Config.codeFull then
    [e.address e.slot, if b = Config.delim then e.address e.cursor else e.address (e.cursor + 1)]
  else if b = Config.delim then [e.address e.slot]
  else [e.address e.cursor]

/-- The encoder has been fed the payload `p` in an open session (40_encoder.md R124): the closed blocks of `p` stand at
the start of the window, the last block's literals after its slot, whose code byte is not written yet, and the registers
say so. A byte raced for has no value (20_memory.md R74). -/
def State.Encoding (s : State) (p : List Byte) : Prop :=
  ∃ (closed : List Block) (run : List Byte),
    blocksOf p = closed ++ [Block.holding run] ∧
    s.enc.phase = .opened ∧
    s.enc.slot.toNat = (closed.flatMap Block.bytes).length ∧
    s.enc.cursor.toNat = s.enc.slot.toNat + 1 + run.length ∧
    s.enc.blen = (Block.holding run).code ∧
    (∀ k, k < s.enc.slot.toNat → s.raced (s.enc.winBase.toNat + k) = false →
      s.mem.read (s.enc.winBase.toNat + k) = (closed.flatMap Block.bytes)[k]?) ∧
    (∀ k, k < run.length → s.raced (s.enc.winBase.toNat + (s.enc.slot.toNat + 1 + k)) = false →
      s.mem.read (s.enc.winBase.toNat + (s.enc.slot.toNat + 1 + k)) = run[k]?)

/-- The number of a phase (10_state.md R26) and of a result (R38), and the status word they make (R39), as naturals. -/
def Phase.number : Phase → Nat
  | .idle => 0
  | .opened => 1
  | .failed => 2

def Result.number : Result → Nat
  | .ok => 0
  | .invalidArgument => 1
  | .bufferOverflow => 2
  | .decodeError => 3

def statusNumber (x : Session) (term discard : Bool) : Nat :=
  x.phase.number + 2 ^ 4 * x.lastRes.number + 2 ^ 8 * x.failErr.number + 2 ^ 12 * term.toNat + 2 ^ 13 * discard.toNat

end Sys2Proof.Machine
end

