-- ==== Sys2Proof/Certificates/Slice0/Obligations.lean ====
section
/-! DEFINITION. The statements for the provers. Each docstring names the rules of spec/ it formalises. A statement that a
command answers a next state, under hypotheses on the state and operands alone, is that command's completion. No
statement uses what the bytes of a failed session's window are (93_implementation_defined.md U3, log entry 8), and
every statement holds for every value of `CODEC_BASE` (U16). A clause on what a command writes takes U14's premise byte
by byte, `s.raced a = false`: no other writer races for that byte. What becomes of a byte that is raced for, and who may
use a window, is the model's own form of R74 and R216 (log entry 7) and is stated in a section of its own; `∃ c` leaves
that record open in the other statements. -/

open Sys2Proof Sys2Proof.Machine

/-! ### Encoding (30_encoding.md) -/

/-- The decoder and the encoder agree on every command and every word: a command's word decodes to it, and a word that
decodes to a command is that command's word (R80 to R85). -/
def Obligations.DecodeExactlyEncode : Prop :=
  (∀ i : Instr, i.wf = true → decode (encode i) = .ok i) ∧
  (∀ (w : Word) (i : Instr), decode w = .ok i → i.wf = true ∧ w = encode i)

/-- R86, an inference of the spec's own: a word matches no row exactly when `OP` is reserved, a reserved field is not
0, or a START or END carries an operand. The rows are masks and patterns; this says the same in fields. -/
def Obligations.MalformedExactlyByFields : Prop :=
  ∀ w : Word, decode? w = none ↔
    (opField w = 0 ∨ 4 ≤ (opField w).toNat) ∨ res1Field w ≠ 0 ∨ res0Field w ≠ 0 ∨
    ((opField w = 1 ∨ opField w = 3) ∧ (dataField w ≠ 0 ∨ lastField w = true))

/-- R82, R83: the operands of a FEED are bits [15:8] and bit [7] of its word, unsigned and unscaled. -/
def Obligations.FeedOperandsAreFields : Prop :=
  ∀ (w : Word) (b : Byte) (last : Bool),
    (decode w = .ok (.encFeed b last) ∨ decode w = .ok (.decFeed b last)) →
    b.toNat = w.toNat / 2 ^ 8 % 2 ^ 8 ∧ last.toNat = w.toNat / 2 ^ 7 % 2

/-- Words written out from R85 and from the programs of 95_test_vectors.md section 3, and one that its section 2.9 has
malformed, which decodes to no command: a sanity statement of the decoder. -/
def Obligations.SampleWordsDecode : Prop :=
  decode 0x00000001#32 = .ok .encStart ∧
  decode 0x00003382#32 = .ok (.encFeed 0x33#8 true) ∧
  decode 0x00000003#32 = .ok .encEnd ∧
  decode 0x00000011#32 = .ok .decStart ∧
  decode 0x0000AA12#32 = .ok (.decFeed 0xAA#8 false) ∧
  decode 0x00000013#32 = .ok .decEnd ∧
  decode? 0x00000193#32 = none

/-! ### Reset and the step -/

/-- R210 with the values of 10_state.md R41: the state after reset, a reset of any state, which changes no byte of
memory that is not raced for (log entry 7), and waiting for a command. -/
def Obligations.ResetValues : Prop :=
  (∀ u : Engine, State.reset.session u =
    { dstBase := 0, dstCap := 0, winBase := 0, winCap := 0, phase := .idle, lastRes := .ok, failErr := .ok,
      result := 0, cursor := 0 }) ∧
  State.reset.enc.slot = 0 ∧ State.reset.enc.blen = 0 ∧
  State.reset.dec.pcode = 0 ∧ State.reset.dec.rem = 0 ∧ State.reset.dec.term = false ∧
  State.reset.dec.discard = false ∧
  (∀ (s : State) (rest : List Access), s.pending = .reset :: rest →
    ∃ t, step s = .next t ∧ t.enc = State.reset.enc ∧ t.dec = State.reset.dec ∧ t.params = s.params ∧
      t.pending = rest ∧ t.readData = s.readData ∧ ∀ a, s.raced a = false → t.mem.read a = s.mem.read a) ∧
  (∀ s : State, s.pending = [] → step s = .next s)

/-- A step runs the decoded command: when the host's next access is a write to `CMD` of a word that decodes to `i`,
the step is `exec i` at the state with that access taken off, and nothing else is around it (10_state.md R40, R66). -/
def Obligations.StepRunsDecodedCommand : Prop :=
  ∀ (s : State) (rest : List Access) (w : Word) (i : Instr),
    s.pending = .regWrite s.params.codecBase 4 w :: rest → decode w = .ok i → i.wf = true →
    step s = exec i { s with pending := rest }

/-- R88: a malformed word sets `LASTRES` of the engine its bit 4 names, and changes nothing else. -/
def Obligations.MalformedWordSetsLastres : Prop :=
  ∀ (s : State) (rest : List Access) (w : Word),
    s.pending = .regWrite s.params.codecBase 4 w :: rest → decode? w = none →
    step s = .next
      (if w.getLsbD 4 then { s with pending := rest, dec := { s.dec with lastRes := .invalidArgument } }
       else { s with pending := rest, enc := { s.enc with lastRes := .invalidArgument } })

/-- R211, with the model's own form of an unknown value: a reset while a `CMD` write is in progress leaves every byte
that command could write a free byte, `Config.freeByte` of a number not drawn before (the model's choice, log entry 6),
every other byte as it was, unless it is raced for (log entry 7), and the registers at their reset values. -/
def Obligations.ResetDuringCommand : Prop :=
  ∀ (s : State) (rest : List Access) (w : Word), s.pending = .resetDuring w :: rest →
    ∃ t, step s = .next t ∧ t.enc = State.reset.enc ∧ t.dec = State.reset.dec ∧
      t.params = s.params ∧ t.pending = rest ∧ t.readData = s.readData ∧
      (∀ a, a ∉ s.writesOfWord w → s.raced a = false → t.mem.read a = s.mem.read a) ∧
      (∀ a, a ∈ s.writesOfWord w →
        ∃ n, s.freeCount ≤ n ∧ n < t.freeCount ∧ t.mem.read a = some (Config.freeByte n))

/-! ### The register block (10_state.md section 6) -/

/-- R39, R40: an aligned 32-bit read at each offset hands the host the map's content, wherever `CODEC_BASE` is, and
changes no register and no byte of memory that is not raced for (log entry 7). At an offset that shows no END's result
it changes nothing at all. -/
def Obligations.RegisterReads : Prop :=
  ∀ (s : State) (rest : List Access),
    ∀ x ∈ ([(0x00, 0), (0x04, s.enc.dstBase.toNat), (0x08, s.enc.dstCap.toNat),
        (0x0C, statusNumber s.enc.toSession false false), (0x10, s.enc.result.toNat), (0x14, s.enc.cursor.toNat),
        (0x18, s.enc.slot.toNat), (0x1C, s.enc.blen.toNat), (0x20, 0), (0x24, s.dec.dstBase.toNat),
        (0x28, s.dec.dstCap.toNat), (0x2C, statusNumber s.dec.toSession s.dec.term s.dec.discard),
        (0x30, s.dec.result.toNat), (0x34, s.dec.cursor.toNat), (0x38, s.dec.pcode.toNat),
        (0x3C, s.dec.rem.toNat)] : List (Nat × Nat)),
      s.pending = .regRead (s.params.codecBase + BitVec.ofNat 32 x.1) 4 :: rest →
      ∃ v t, step s = .next t ∧ t.readData = some v ∧ v.toNat = x.2 ∧
        t.params = s.params ∧ t.enc = s.enc ∧ t.dec = s.dec ∧ t.pending = rest ∧
        (∀ a, s.raced a = false → t.mem.read a = s.mem.read a) ∧
        (x.1 ∉ [0x0C, 0x10, 0x2C, 0x30] → t = { s with pending := rest, readData := some v })

/-- R37, R40: a write of an argument register stores all 32 bits; a write of a read-only register or of the reserved
offset has no effect; neither touches a session (R27, 70_reset_and_hazards.md R217). -/
def Obligations.RegisterWrites : Prop :=
  ∀ (s : State) (rest : List Access) (v : Word),
    ∀ x ∈ ([(0x04, { s with enc := { s.enc with dstBase := v } }), (0x08, { s with enc := { s.enc with dstCap := v } }),
        (0x0C, s), (0x10, s), (0x14, s), (0x18, s), (0x1C, s), (0x20, s),
        (0x24, { s with dec := { s.dec with dstBase := v } }), (0x28, { s with dec := { s.dec with dstCap := v } }),
        (0x2C, s), (0x30, s), (0x34, s), (0x38, s), (0x3C, s)] : List (Nat × State)),
      s.pending = .regWrite (s.params.codecBase + BitVec.ofNat 32 x.1) 4 v :: rest →
      step s = .next { x.2 with pending := rest }

/-- 20_memory.md R68: a register access that is sub-word, wider or misaligned is refused. -/
def Obligations.OtherRegisterAccessesRefused : Prop :=
  ∀ (s : State) (rest : List Access) (off size : Nat) (v : Word),
    off < 64 → (size ≠ 4 ∨ off % 4 ≠ 0) →
    (s.pending = .regRead (s.params.codecBase + BitVec.ofNat 32 off) size :: rest →
      step s = .refused .registerAccess) ∧
    (s.pending = .regWrite (s.params.codecBase + BitVec.ofNat 32 off) size v :: rest →
      step s = .refused .registerAccess)

/-- The model's own choice (log entry 4): a register access that touches no byte of the 64-byte block faults. -/
def Obligations.OutsideBlockFaults : Prop :=
  ∀ (s : State) (rest : List Access) (off size : Nat) (v : Word),
    64 ≤ off → off + size ≤ 2 ^ 32 → off < 2 ^ 32 →
    (s.pending = .regRead (s.params.codecBase + BitVec.ofNat 32 off) size :: rest →
      step s = .fault .outsideRegisterBlock) ∧
    (s.pending = .regWrite (s.params.codecBase + BitVec.ofNat 32 off) size v :: rest →
      step s = .fault .outsideRegisterBlock)

/-- 20_memory.md R66 item 4 and R74, with the model's own form of a race (log entry 7): a foreign write stores its
byte, or, in a window an engine holds, leaves a byte with no value that is raced for from then on; it changes no
register of the block and no other byte. A host read hands back the byte memory holds, the unknown byte it held at the
start of the run (log entry 5), or, where it is raced for, a fresh free byte. -/
def Obligations.MemoryAccesses : Prop :=
  ∀ (s : State) (rest : List Access) (a : Word),
    (∀ v, s.pending = .memWrite a v :: rest → ∃ t, step s = .next t ∧ t.enc = s.enc ∧ t.dec = s.dec ∧
      t.params = s.params ∧ t.pending = rest ∧ t.readData = s.readData ∧ t.freeCount = s.freeCount ∧
      t.encCustody = s.encCustody ∧ t.decCustody = s.decCustody ∧
      (∀ k, k ≠ a.toNat → t.mem.read k = s.mem.read k ∧ t.raced k = s.raced k) ∧
      (s.holds .enc a.toNat = false → s.holds .dec a.toNat = false →
        t.mem.read a.toNat = some v ∧ t.raced a.toNat = false) ∧
      (s.holds .enc a.toNat = true ∨ s.holds .dec a.toNat = true →
        t.mem.read a.toNat = none ∧ t.raced a.toNat = true)) ∧
    (∀ v, s.pending = .memRead a :: rest → s.raced a.toNat = false → s.mem.read a.toNat = some v →
      step s = .next { s with pending := rest, readData := some (v.setWidth 32) }) ∧
    (s.pending = .memRead a :: rest → s.raced a.toNat = false → s.mem.read a.toNat = none →
      step s = .next { s with pending := rest, readData := some ((Config.initialByte a.toNat).setWidth 32) }) ∧
    (s.pending = .memRead a :: rest → s.raced a.toNat = true →
      step s = .next { s with pending := rest, readData := some ((Config.freeByte s.freeCount).setWidth 32),
                              freeCount := s.freeCount + 1 })

/-! ### Window ownership (70_reset_and_hazards.md R216; log entry 7) -/

/-- R216, with the model's own record of it (log entry 7): a successful START gives the window to its engine, and a FEED
or END of an open session leaves it there; it becomes the host's only by the host's read of the result of an END, which ends the race for its bytes, or by
a reset; and it stops being the host's only by a successful START, or a FEED or END of a session still open. -/
def Obligations.HostGetsWindowAtResultRead : Prop :=
  (∀ (i : Instr) (s t : State), i.isStart = true → exec i s = .next t → (t.session i.engine).lastRes = .ok →
    t.custody i.engine = .engine) ∧
  (∀ (i : Instr) (s : State), i.isStart = false → (s.session i.engine).phase = .opened →
    ∃ t, exec i s = .next t ∧
      t.custody i.engine = if i = .encEnd ∨ i = .decEnd then .unread else .engine) ∧
  (∀ (s : State) (rest : List Access) (u : Engine) (r : Reg), s.custody u = .unread →
    r ∈ (match u with
      | .enc => [Reg.encStatus, Reg.encResult]
      | .dec => [Reg.decStatus, Reg.decResult]) →
    s.pending = .rd s.params r :: rest →
    ∃ t, step s = .next t ∧ t.custody u = .host ∧ t.racedOf u = []) ∧
  (∀ (s t : State) (u : Engine), step s = .next t →
    (s.custody u ≠ .host → t.custody u = .host →
      (s.custody u = .unread ∧
        ∃ addr rest r, s.pending = .regRead addr 4 :: rest ∧ selectedReg s.params addr 4 = some r ∧
          r ∈ (match u with
            | .enc => [Reg.encStatus, Reg.encResult]
            | .dec => [Reg.decStatus, Reg.decResult])) ∨
      (∃ rest, s.pending = .reset :: rest) ∨ (∃ w rest, s.pending = .resetDuring w :: rest)) ∧
    (s.custody u = .host → t.custody u ≠ .host →
      ∃ a rest w i, s.pending = a :: rest ∧ a.command? s.params = some w ∧ decode w = .ok i ∧ i.engine = u ∧
        (i.isStart = true ∧ (t.session u).lastRes = .ok ∨
         i.isStart = false ∧ (s.session u).phase = .opened)))

/-- 20_memory.md R74, with the model's own form of a race (log entry 7): a byte is raced for only from a foreign write
into a window an engine holds; it then has no value, whatever the engines write, until the host has its window back or
the block is reset, when it is settled as a free byte (log entry 6), or until a write while no engine holds it. -/
def Obligations.RacedBytesAreAnyValue : Prop :=
  ∀ (s t : State) (k : Nat), s.Inv → step s = .next t →
    (t.raced k = true → t.mem.read k = none) ∧
    (s.raced k = false → t.raced k = true →
      ∃ a v rest, s.pending = .memWrite a v :: rest ∧ a.toNat = k ∧
        (s.holds .enc k = true ∨ s.holds .dec k = true)) ∧
    (s.raced k = true →
      t.raced k = true ∨
      (∃ n, s.freeCount ≤ n ∧ n < t.freeCount ∧ t.mem.read k = some (Config.freeByte n)) ∨
      (∃ a v rest, s.pending = .memWrite a v :: rest ∧ a.toNat = k ∧ s.holds .enc k = false ∧
        s.holds .dec k = false ∧ t.mem.read k = some v))

/-- R216, an inference of the spec's own: the bytes of an open session below `CURSOR`, in the encoder but the one at
`SLOT`, are final: no FEED or END that ends `OK` changes them. -/
def Obligations.FinalBytesStayFinal : Prop :=
  ∀ (i : Instr) (s t : State) (k : Nat), s.Inv → i.isStart = false → (s.session i.engine).phase = .opened →
    exec i s = .next t → (t.session i.engine).lastRes = .ok →
    k < (s.session i.engine).cursor.toNat → (i.engine = .enc → k ≠ s.enc.slot.toNat) →
    t.mem.read ((s.session i.engine).winBase.toNat + k) = s.mem.read ((s.session i.engine).winBase.toNat + k)

/-! ### The encoder (40_encoder.md) -/

/-- R110: ENC.START with a window it refuses changes only `LASTRES`; with a window it accepts it opens the session in
any phase. No byte of memory is written. -/
def Obligations.EncStartOpensSession : Prop :=
  ∀ s : State,
    (s.enc.dstCap.toNat < 2 ∨ 2 ^ 32 < s.enc.dstBase.toNat + s.enc.dstCap.toNat →
      exec .encStart s = .next { s with enc := { s.enc with lastRes := .invalidArgument } }) ∧
    (2 ≤ s.enc.dstCap.toNat → s.enc.dstBase.toNat + s.enc.dstCap.toNat ≤ 2 ^ 32 →
      ∃ c, exec .encStart s = .next
        { s with
          enc := { s.enc with winBase := s.enc.dstBase, winCap := s.enc.dstCap, slot := 0, cursor := 1, blen := 1,
                              phase := .opened, failErr := .ok, result := 0, lastRes := .ok }
          encCustody := c })

/-- R113: the encoder ignores `LAST`. -/
def Obligations.EncFeedIgnoresLast : Prop :=
  ∀ (s : State) (b : Byte), exec (.encFeed b true) s = exec (.encFeed b false) s

/-- R116: a literal byte against a block that is not full is written at `CURSOR`, or overflows when there is no
room. -/
def Obligations.EncFeedLiteral : Prop :=
  ∀ (s : State) (b : Byte) (last : Bool),
    s.enc.phase = .opened → s.enc.blen ≠ 0xFF#8 → b ≠ 0x00#8 →
    (s.enc.cursor.toNat < s.enc.winCap.toNat → ∃ t, exec (.encFeed b last) s = .next t ∧ OnlyEnc s t ∧
      t.enc = { s.enc with cursor := s.enc.cursor + 1, blen := s.enc.blen + 1, lastRes := .ok } ∧
      ∀ a, s.raced a = false → t.mem.read a = if a = s.enc.address s.enc.cursor then some b else s.mem.read a) ∧
    (s.enc.winCap.toNat ≤ s.enc.cursor.toNat → ∃ t, exec (.encFeed b last) s = .next t ∧ OnlyEnc s t ∧
      t.enc = { s.enc with phase := .failed, failErr := .bufferOverflow, lastRes := .bufferOverflow } ∧
      OutsideWindowKept s.enc.toSession s t)

/-- R117: a `0x00` against a block that is not full closes it: its code goes into the slot, a new slot is reserved at
`CURSOR`, and the zero itself is not written (with room for the new slot, R119). -/
def Obligations.EncFeedDelimiter : Prop :=
  ∀ (s : State) (last : Bool),
    s.enc.phase = .opened → s.enc.blen ≠ 0xFF#8 → s.enc.cursor.toNat < s.enc.winCap.toNat →
    ∃ t, exec (.encFeed 0x00#8 last) s = .next t ∧ OnlyEnc s t ∧
      t.enc = { s.enc with slot := s.enc.cursor, cursor := s.enc.cursor + 1, blen := 1, lastRes := .ok } ∧
      ∀ a, s.raced a = false → t.mem.read a = if a = s.enc.address s.enc.slot then some s.enc.blen else s.mem.read a

/-- R115: a full block is closed with code `0xFF` and a new block opened at `CURSOR`, and the same byte is then
processed against the new block: the command leaves the registers that it leaves from the state so made, and, when it
ends `OK` and no other writer races for the slot's byte, the same whole state (with room for the new slot, R119). -/
def Obligations.EncFeedCappedClosure : Prop :=
  ∀ (s : State) (b : Byte) (last : Bool),
    s.enc.phase = .opened → s.enc.blen = 0xFF#8 → s.enc.cursor.toNat < s.enc.winCap.toNat →
    ∃ t u, exec (.encFeed b last) s = .next t ∧
      exec (.encFeed b last)
        { s with enc := { s.enc with slot := s.enc.cursor, cursor := s.enc.cursor + 1, blen := 1 },
                 mem := s.mem.write (s.enc.address s.enc.slot) 0xFF#8 } = .next u ∧
      OnlyEnc s t ∧ t.enc = u.enc ∧ (t.enc.lastRes = .ok → s.raced (s.enc.address s.enc.slot) = false → t = u)

/-- R118: a full block and a zero byte together: the capped closure, then the new, empty block is closed with code
`0x01`. -/
def Obligations.EncFeedCappedZero : Prop :=
  ∀ (s : State) (last : Bool),
    s.enc.phase = .opened → s.enc.blen = 0xFF#8 → s.enc.cursor.toNat + 1 < s.enc.winCap.toNat →
    ∃ t, exec (.encFeed 0x00#8 last) s = .next t ∧ OnlyEnc s t ∧
      t.enc = { s.enc with slot := s.enc.cursor + 1, cursor := s.enc.cursor + 2, blen := 1, lastRes := .ok } ∧
      ∀ a, s.raced a = false → t.mem.read a =
        if a = s.enc.address s.enc.cursor then some 0x01#8
        else if a = s.enc.address s.enc.slot then some 0xFF#8
        else s.mem.read a

/-- R114, R119, R182: ENC.FEED on an open session overflows exactly when the offsets it would use, one, or two after a
capped closure, pass `WIN_CAP`; it then enters `FAILED` with the session registers as they were at the failing check,
`RESULT` unchanged, and no byte outside the window written. -/
def Obligations.EncFeedOverflowExactly : Prop :=
  ∀ (s : State) (b : Byte) (last : Bool), s.enc.phase = .opened → s.enc.Inv →
    ∃ t, exec (.encFeed b last) s = .next t ∧
      (t.enc.lastRes = .bufferOverflow ↔
        s.enc.winCap.toNat < s.enc.cursor.toNat + (if s.enc.blen = 0xFF#8 then 2 else 1)) ∧
      (t.enc.lastRes = .bufferOverflow → OnlyEnc s t ∧ OutsideWindowKept s.enc.toSession s t ∧
        t.enc =
          if s.enc.blen = 0xFF#8 ∧ s.enc.cursor.toNat < s.enc.winCap.toNat then
            { s.enc with slot := s.enc.cursor, cursor := s.enc.cursor + 1, blen := 1,
                         phase := .failed, failErr := .bufferOverflow, lastRes := .bufferOverflow }
          else { s.enc with phase := .failed, failErr := .bufferOverflow, lastRes := .bufferOverflow }) ∧
      (t.enc.lastRes ≠ .bufferOverflow → t.enc.lastRes = .ok ∧ t.enc.phase = .opened)

/-- R120: ENC.END with room writes the last code byte into the slot and the terminator at `CURSOR`, and reports the
length with the terminator; without room it overflows with `CURSOR` and `RESULT` unchanged. -/
def Obligations.EncEndWritesTerminator : Prop :=
  ∀ s : State, s.enc.phase = .opened →
    (s.enc.cursor.toNat < s.enc.winCap.toNat → ∃ t, exec .encEnd s = .next t ∧ OnlyEnc s t ∧
      t.enc = { s.enc with cursor := s.enc.cursor + 1, result := s.enc.cursor + 1, lastRes := .ok } ∧
      ∀ a, s.raced a = false → t.mem.read a =
        if a = s.enc.address s.enc.cursor then some 0x00#8
        else if a = s.enc.address s.enc.slot then some s.enc.blen
        else s.mem.read a) ∧
    (s.enc.winCap.toNat ≤ s.enc.cursor.toNat → s.enc.Inv → ∃ t, exec .encEnd s = .next t ∧ OnlyEnc s t ∧
      t.enc = { s.enc with phase := .failed, failErr := .bufferOverflow, lastRes := .bufferOverflow } ∧
      OutsideWindowKept s.enc.toSession s t)

/-- R121, an inference of the spec's own: a second ENC.END with room writes a second `0x00` at the next offset and
reports a length one greater; it leaves every other byte as the first END left it. -/
def Obligations.SecondEncEndDoublesTerminator : Prop :=
  ∀ s t : State, s.enc.phase = .opened → s.enc.Inv → exec .encEnd s = .next t → t.enc.lastRes = .ok →
    t.enc.cursor.toNat < t.enc.winCap.toNat →
    ∃ u, exec .encEnd t = .next u ∧ u.enc.lastRes = .ok ∧ u.enc.result.toNat = t.enc.result.toNat + 1 ∧
      ∀ a, t.raced a = false → u.mem.read a =
        if a = t.enc.winBase.toNat + t.enc.result.toNat then some 0x00#8 else t.mem.read a

/-- 10_state.md R24, R25, inferences of the spec's own: a successful START leaves the block being filled ending at
`CURSOR`, and every ENC.FEED keeps it so, failing or not; so `BLEN` is one more than the literals below `CURSOR`. -/
def Obligations.BlockEndsAtCursor : Prop :=
  (∀ s t : State, exec .encStart s = .next t → t.enc.lastRes = .ok → t.enc.Filling) ∧
  (∀ (s t : State) (b : Byte) (last : Bool), s.enc.Filling → exec (.encFeed b last) s = .next t → t.enc.Filling)

/-! ### The decoder (41_decoder.md) -/

/-- R140: DEC.START with a window it refuses changes only `LASTRES`; with a window it accepts it opens the session in
any phase. No byte of memory is written. -/
def Obligations.DecStartOpensSession : Prop :=
  ∀ s : State,
    (s.dec.dstCap.toNat < 2 ∨ 2 ^ 32 < s.dec.dstBase.toNat + s.dec.dstCap.toNat →
      exec .decStart s = .next { s with dec := { s.dec with lastRes := .invalidArgument } }) ∧
    (2 ≤ s.dec.dstCap.toNat → s.dec.dstBase.toNat + s.dec.dstCap.toNat ≤ 2 ^ 32 →
      ∃ c, exec .decStart s = .next
        { s with
          dec := { s.dec with winBase := s.dec.dstBase, winCap := s.dec.dstCap, cursor := 0, pcode := 0xFF, rem := 0,
                              term := false, discard := false, phase := .opened, failErr := .ok, result := 0,
                              lastRes := .ok }
          decCustody := c })

/-- R146: while `DISCARD` is 1 a byte is dropped unexamined, and the chunk's last byte clears `DISCARD`. -/
def Obligations.DecFeedDropsAfterTerminator : Prop :=
  ∀ (s : State) (b : Byte) (last : Bool), s.dec.phase = .opened → s.dec.discard = true →
    ∃ c, exec (.decFeed b last) s =
      .next { s with dec := { s.dec with discard := if last then false else true, lastRes := .ok },
                     decCustody := c }

/-- R148, the value before the bound (60_exceptions.md R191): a literal is refused with `DecodeError` when it is
`0x00`, whatever room there is; else written at `CURSOR`; else it overflows. -/
def Obligations.DecFeedLiteral : Prop :=
  ∀ (s : State) (b : Byte) (last : Bool),
    s.dec.phase = .opened → s.dec.discard = false → s.dec.rem ≠ 0#8 →
    (b = 0x00#8 → ∃ t, exec (.decFeed b last) s = .next t ∧ OnlyDec s t ∧
      t.dec = { s.dec with phase := .failed, failErr := .decodeError, lastRes := .decodeError } ∧
      OutsideWindowKept s.dec.toSession s t) ∧
    (b ≠ 0x00#8 → s.dec.cursor.toNat < s.dec.winCap.toNat → ∃ t, exec (.decFeed b last) s = .next t ∧ OnlyDec s t ∧
      t.dec = { s.dec with cursor := s.dec.cursor + 1, rem := s.dec.rem - 1, lastRes := .ok } ∧
      ∀ a, s.raced a = false → t.mem.read a = if a = s.dec.address s.dec.cursor then some b else s.mem.read a) ∧
    (b ≠ 0x00#8 → s.dec.winCap.toNat ≤ s.dec.cursor.toNat → ∃ t, exec (.decFeed b last) s = .next t ∧ OnlyDec s t ∧
      t.dec = { s.dec with phase := .failed, failErr := .bufferOverflow, lastRes := .bufferOverflow } ∧
      OutsideWindowKept s.dec.toSession s t)

/-- R150 and R152 for a code byte: the previous block's implicit zero is written first exactly when that block was not
capped (and, under `LEGACY_CHUNK_ZERO`, the byte is not the last of its chunk), overflowing without room; then the
byte becomes `PCODE` and announces one literal fewer. -/
def Obligations.DecFeedCodeByte : Prop :=
  ∀ (s : State) (b : Byte) (last : Bool),
    s.dec.phase = .opened → s.dec.discard = false → s.dec.rem = 0#8 → b ≠ 0x00#8 →
    (s.dec.pcode = 0xFF#8 ∨ (s.params.legacyChunkZero = true ∧ last = true) →
      ∃ c, exec (.decFeed b last) s =
        .next { s with dec := { s.dec with pcode := b, rem := b - 1, lastRes := .ok }, decCustody := c }) ∧
    (s.dec.pcode ≠ 0xFF#8 → (s.params.legacyChunkZero = true → last = false) →
      s.dec.cursor.toNat < s.dec.winCap.toNat → ∃ t, exec (.decFeed b last) s = .next t ∧ OnlyDec s t ∧
      t.dec = { s.dec with cursor := s.dec.cursor + 1, pcode := b, rem := b - 1, lastRes := .ok } ∧
      ∀ a, s.raced a = false → t.mem.read a = if a = s.dec.address s.dec.cursor then some 0x00#8 else s.mem.read a) ∧
    (s.dec.pcode ≠ 0xFF#8 → (s.params.legacyChunkZero = true → last = false) →
      s.dec.winCap.toNat ≤ s.dec.cursor.toNat → ∃ t, exec (.decFeed b last) s = .next t ∧ OnlyDec s t ∧
      t.dec = { s.dec with phase := .failed, failErr := .bufferOverflow, lastRes := .bufferOverflow } ∧
      OutsideWindowKept s.dec.toSession s t)

/-- R150 and R152 for a `0x00` in code position: it is the terminator; under the default rule it writes nothing; it
leaves `PCODE` and `REM`, sets `TERM`, and sets `DISCARD` when it is not the last byte of its chunk. Under
`LEGACY_CHUNK_ZERO` a zero is written first when the previous block was not capped and the byte is not the chunk's
last. -/
def Obligations.DecFeedTerminator : Prop :=
  ∀ (s : State) (last : Bool),
    s.dec.phase = .opened → s.dec.discard = false → s.dec.rem = 0#8 →
    (s.params.legacyChunkZero = false ∨ s.dec.pcode = 0xFF#8 ∨ last = true →
      ∃ c, exec (.decFeed 0x00#8 last) s =
        .next { s with dec := { s.dec with term := true, discard := !last, lastRes := .ok },
                       decCustody := c }) ∧
    (s.params.legacyChunkZero = true → s.dec.pcode ≠ 0xFF#8 → last = false →
      s.dec.cursor.toNat < s.dec.winCap.toNat → ∃ t, exec (.decFeed 0x00#8 last) s = .next t ∧ OnlyDec s t ∧
      t.dec = { s.dec with cursor := s.dec.cursor + 1, term := true, discard := true, lastRes := .ok } ∧
      ∀ a, s.raced a = false → t.mem.read a = if a = s.dec.address s.dec.cursor then some 0x00#8 else s.mem.read a) ∧
    (s.params.legacyChunkZero = true → s.dec.pcode ≠ 0xFF#8 → last = false →
      s.dec.winCap.toNat ≤ s.dec.cursor.toNat → ∃ t, exec (.decFeed 0x00#8 last) s = .next t ∧ OnlyDec s t ∧
      t.dec = { s.dec with phase := .failed, failErr := .bufferOverflow, lastRes := .bufferOverflow } ∧
      OutsideWindowKept s.dec.toSession s t)

/-- R160, R162: DEC.END at a block boundary reports `CURSOR` as the decoded length, terminator or not; mid-block it
raises `DecodeError`; either way `DISCARD` is cleared. -/
def Obligations.DecEndChecksCompleteness : Prop :=
  ∀ s : State, s.dec.phase = .opened →
    (s.dec.rem = 0#8 →
      ∃ c, exec .decEnd s =
        .next { s with dec := { s.dec with discard := false, result := s.dec.cursor, lastRes := .ok },
                       decCustody := c }) ∧
    (s.dec.rem ≠ 0#8 → ∃ t, exec .decEnd s = .next t ∧ OnlyDec s t ∧
      t.dec = { s.dec with discard := false, phase := .failed, failErr := .decodeError, lastRes := .decodeError } ∧
      OutsideWindowKept s.dec.toSession s t)

/-- R160, an inference of the spec's own, and 70_reset_and_hazards.md R220: a second DEC.END after a successful one
changes nothing. -/
def Obligations.SecondDecEndChangesNothing : Prop :=
  ∀ s t : State, exec .decEnd s = .next t → t.dec.lastRes = .ok → exec .decEnd t = .next t

/-- 60_exceptions.md R183: on a started engine, `DecodeError` comes from DEC.FEED exactly when a literal is due and
the byte is `0x00`, from DEC.END exactly when literals are still due, and from no command of the encoder. -/
def Obligations.DecodeErrorExactly : Prop :=
  ∀ s : State, s.Inv →
    (∀ (b : Byte) (last : Bool), s.dec.phase = .opened → ∃ t, exec (.decFeed b last) s = .next t ∧
      (t.dec.lastRes = .decodeError ↔ s.dec.rem ≠ 0#8 ∧ b = 0x00#8)) ∧
    (s.dec.phase = .opened → ∃ t, exec .decEnd s = .next t ∧ (t.dec.lastRes = .decodeError ↔ s.dec.rem ≠ 0#8)) ∧
    (∀ (i : Instr) (t : State), i.engine = .enc → exec i s = .next t → t.enc.lastRes ≠ .decodeError)

/-! ### Results, failure and recovery (60_exceptions.md) -/

/-- R180, and 70_reset_and_hazards.md R228, an inference of the spec's own: every command answers a next state, in
every state and with every operand. -/
def Obligations.EveryCommandCompletes : Prop :=
  ∀ (i : Instr) (s : State), ∃ t, exec i s = .next t

/-- R185: a command whose result is `InvalidArgument` changes nothing but `LASTRES`, from a state in which `FAILERR` is
no such code (10_state.md R29); FEED and END in phase `IDLE` are such commands. -/
def Obligations.InvalidArgumentChangesOnlyLastres : Prop :=
  (∀ (i : Instr) (s t : State), s.Inv → exec i s = .next t → (t.session i.engine).lastRes = .invalidArgument →
    t = s.setSession i.engine { s.session i.engine with lastRes := .invalidArgument }) ∧
  (∀ (i : Instr) (s : State), i.isStart = false → (s.session i.engine).phase = .idle →
    exec i s = .next (s.setSession i.engine { s.session i.engine with lastRes := .invalidArgument }))

/-- R187: FEED and END in phase `FAILED` repeat the stored error in `LASTRES` and change no other register and no byte of
memory: nothing but the model's own record of who may use the window (log entry 7), which an END moves on. -/
def Obligations.FailedRepeatsStoredError : Prop :=
  ∀ (i : Instr) (s : State), i.isStart = false → (s.session i.engine).phase = .failed →
    ∃ c, exec i s = .next ((s.setSession i.engine
      { s.session i.engine with lastRes := (s.session i.engine).failErr }).setCustody i.engine c)

/-- R186, R182, R183: a command that takes an engine into `FAILED` records one error, `BufferOverflow` or
`DecodeError`, in both `FAILERR` and `LASTRES`, and leaves `RESULT`, the window and the argument registers. -/
def Obligations.FailureEntryRecordsError : Prop :=
  ∀ (i : Instr) (s t : State) (u : Engine), exec i s = .next t →
    (s.session u).phase ≠ .failed → (t.session u).phase = .failed →
    u = i.engine ∧ i.isStart = false ∧ (s.session u).phase = .opened ∧
    (t.session u).failErr = (t.session u).lastRes ∧
    ((t.session u).lastRes = .bufferOverflow ∨ (t.session u).lastRes = .decodeError) ∧
    (t.session u).result = (s.session u).result ∧ (t.session u).SameWindow (s.session u)

/-- R188: the only ways out of phase `FAILED` are a successful START of the same engine, which opens a session and
clears `FAILERR`, and reset, which returns the engine to `IDLE`. -/
def Obligations.RecoveryOnlyByStartOrReset : Prop :=
  ∀ (s t : State) (u : Engine), step s = .next t →
    (s.session u).phase = .failed → (t.session u).phase ≠ .failed →
    (∃ a rest w i, s.pending = a :: rest ∧ a.command? s.params = some w ∧ decode w = .ok i ∧ i.engine = u ∧
      i.isStart = true ∧ (t.session u).phase = .opened ∧ (t.session u).failErr = .ok ∧
      (t.session u).lastRes = .ok) ∨
    (∃ rest, s.pending = .reset :: rest ∧ (t.session u).phase = .idle) ∨
    (∃ w rest, s.pending = .resetDuring w :: rest ∧ (t.session u).phase = .idle)

/-! ### Whole-machine rules -/

/-- 10_state.md R20: no command of one engine changes a register of the other, and what it does, to its own registers
and, when it ends `OK`, to memory, does not depend on the other's registers. -/
def Obligations.EnginesShareNoState : Prop :=
  ∀ (i : Instr) (s s' t t' : State), exec i s = .next t → exec i s' = .next t' → s.params = s'.params →
    (i.engine = .enc →
      t.dec = s.dec ∧
      (s.enc = s'.enc → t.enc = t'.enc ∧
        (s.mem = s'.mem → (∀ a, s.raced a = s'.raced a) → t.enc.lastRes = .ok → t.mem = t'.mem))) ∧
    (i.engine = .dec →
      t.enc = s.enc ∧
      (s.dec = s'.dec → t.dec = t'.dec ∧
        (s.mem = s'.mem → (∀ a, s.raced a = s'.raced a) → t.dec.lastRes = .ok → t.mem = t'.mem)))

/-- 60_exceptions.md R199: commands to different engines commute whenever the two windows share no address: every
register is the same in either order, and so is every byte of memory but those of the window of an engine whose
command did not end `OK` (U3). -/
def Obligations.InterleavedCommandsCommute : Prop :=
  ∀ (i j : Instr) (s a b c d : State), s.Inv → i.engine = .enc → j.engine = .dec →
    (∀ k, s.enc.inWindow k = true → s.dec.inWindow k = false) →
    exec i s = .next a → exec j a = .next b → exec j s = .next c → exec i c = .next d →
    b.enc = d.enc ∧ b.dec = d.dec ∧ b.params = d.params ∧ b.pending = d.pending ∧ b.readData = d.readData ∧
    b.freeCount = d.freeCount ∧ b.encCustody = d.encCustody ∧ b.decCustody = d.decCustody ∧
    b.encRaced = d.encRaced ∧ b.decRaced = d.decRaced ∧
    ∀ k, (s.enc.inWindow k = true → b.enc.lastRes = .ok) → (s.dec.inWindow k = true → b.dec.lastRes = .ok) →
      b.mem.read k = d.mem.read k

/-- 20_memory.md R61: no command writes a byte outside the window its engine had latched. -/
def Obligations.WritesStayInWindow : Prop :=
  ∀ (i : Instr) (s t : State), s.Inv → exec i s = .next t → OutsideWindowKept (s.session i.engine) s t

/-- 20_memory.md R62, an inference of the spec's own, and R74: whatever memory holds, a command leaves the same
registers, and when it ends `OK` it writes the same bytes, so a foreign write cannot change what an engine writes. -/
def Obligations.CommandsNeverReadMemory : Prop :=
  ∀ (i : Instr) (s t : State) (m : Memory), exec i s = .next t →
    ∃ t', exec i { s with mem := m } = .next t' ∧ t'.enc = t.enc ∧ t'.dec = t.dec ∧
      ((t.session i.engine).lastRes = .ok →
        ∀ a, t.mem.read a ≠ s.mem.read a → t'.mem.read a = t.mem.read a)

/-- 10_state.md R23 to R35, with the inferences of the spec's own that stand in them, and 20_memory.md R61, as one
invariant: every step from a sound state goes to a sound one: cursors stay in their windows, the slot and block of the
encoder, `PCODE`, `REM`, `TERM`, `DISCARD` and `FAILERR` keep the relations the spec states, memory keeps its
canonical form, and, of the model's own record (log entry 7), a window the host may use has no byte raced for. -/
def Obligations.StepKeepsInvariant : Prop :=
  ∀ s t : State, s.Inv → step s = .next t → t.Inv

/-- The state right after reset is sound. -/
def Obligations.ResetIsSound : Prop := State.reset.Inv

/-- 10_state.md R27, R37: an argument register changes only by a host register write or a reset; the latched window
only by a successful START of that engine or a reset. -/
def Obligations.WindowChangesOnlyAtStart : Prop :=
  ∀ (s t : State) (u : Engine), step s = .next t →
    ((t.session u).dstBase ≠ (s.session u).dstBase ∨ (t.session u).dstCap ≠ (s.session u).dstCap →
      (∃ addr v rest r, s.pending = .regWrite addr 4 v :: rest ∧ selectedReg s.params addr 4 = some r ∧
        r ∈ (match u with
          | .enc => [Reg.encDstBase, Reg.encDstCap]
          | .dec => [Reg.decDstBase, Reg.decDstCap])) ∨
      (∃ rest, s.pending = .reset :: rest) ∨ (∃ w rest, s.pending = .resetDuring w :: rest)) ∧
    ((t.session u).winBase ≠ (s.session u).winBase ∨ (t.session u).winCap ≠ (s.session u).winCap →
      (∃ a rest w i, s.pending = a :: rest ∧ a.command? s.params = some w ∧ decode w = .ok i ∧ i.engine = u ∧
        i.isStart = true ∧ (t.session u).lastRes = .ok ∧
        (t.session u).winBase = (s.session u).dstBase ∧ (t.session u).winCap = (s.session u).dstCap) ∨
      (∃ rest, s.pending = .reset :: rest) ∨ (∃ w rest, s.pending = .resetDuring w :: rest))

/-- 10_state.md R30: a command changes `RESULT` of its engine only as a successful END, which sets it to the new
`CURSOR`, or as a successful START, which sets it to 0. -/
def Obligations.ResultChangesOnlyAtEndAndStart : Prop :=
  ∀ (i : Instr) (s t : State) (u : Engine), exec i s = .next t →
    (t.session u).result ≠ (s.session u).result →
    i.engine = u ∧ (t.session u).lastRes = .ok ∧
    ((i.isStart = true ∧ (t.session u).result = 0) ∨
     ((i = .encEnd ∨ i = .decEnd) ∧ (t.session u).result = (t.session u).cursor))

/-! ### Frames -/

/-- What the encoder's START and FEED leave unchanged. START: all of memory. FEED: the window, `RESULT`, and, when it
ends `OK`, every byte but those at the addresses its form stores to; when it fails, every byte outside the window. -/
def Obligations.EncStartFeedFrame : Prop :=
  (∀ s t : State, exec .encStart s = .next t →
    OnlyEnc s t ∧ t.enc.dstBase = s.enc.dstBase ∧ t.enc.dstCap = s.enc.dstCap ∧
    ∀ a, t.mem.read a = s.mem.read a) ∧
  (∀ (s t : State) (b : Byte) (last : Bool), exec (.encFeed b last) s = .next t →
    OnlyEnc s t ∧ t.enc.SameWindow s.enc.toSession ∧ t.enc.result = s.enc.result ∧
    (t.enc.lastRes = .ok → ∀ a, a ∉ s.enc.feedStores b → t.mem.read a = s.mem.read a) ∧
    (s.enc.Inv → OutsideWindowKept s.enc.toSession s t))

/-- What ENC.END leaves unchanged: the window, `SLOT`, `BLEN`, and, when it ends `OK`, every byte but the slot's and
the cursor's; when it fails, every byte outside the window. -/
def Obligations.EncEndFrame : Prop :=
  ∀ s t : State, exec .encEnd s = .next t →
    OnlyEnc s t ∧ t.enc.SameWindow s.enc.toSession ∧ t.enc.slot = s.enc.slot ∧ t.enc.blen = s.enc.blen ∧
    (t.enc.lastRes = .ok →
      ∀ a, a ≠ s.enc.address s.enc.slot → a ≠ s.enc.address s.enc.cursor → t.mem.read a = s.mem.read a) ∧
    (s.enc.Inv → OutsideWindowKept s.enc.toSession s t)

/-- What the decoder's commands leave unchanged. START and END: all of memory. FEED: the window, `RESULT`, and, when
it ends `OK`, every byte but the cursor's; when it fails, every byte outside the window. END: the window, `CURSOR`,
`PCODE`, `REM`, `TERM`. -/
def Obligations.DecCommandFrame : Prop :=
  (∀ s t : State, exec .decStart s = .next t →
    OnlyDec s t ∧ t.dec.dstBase = s.dec.dstBase ∧ t.dec.dstCap = s.dec.dstCap ∧
    ∀ a, t.mem.read a = s.mem.read a) ∧
  (∀ (s t : State) (b : Byte) (last : Bool), exec (.decFeed b last) s = .next t →
    OnlyDec s t ∧ t.dec.SameWindow s.dec.toSession ∧ t.dec.result = s.dec.result ∧
    (t.dec.lastRes = .ok → ∀ a, a ≠ s.dec.address s.dec.cursor → t.mem.read a = s.mem.read a) ∧
    (s.dec.Inv → OutsideWindowKept s.dec.toSession s t)) ∧
  (∀ s t : State, exec .decEnd s = .next t →
    OnlyDec s t ∧ t.dec.SameWindow s.dec.toSession ∧ t.dec.cursor = s.dec.cursor ∧ t.dec.pcode = s.dec.pcode ∧
    t.dec.rem = s.dec.rem ∧ t.dec.term = s.dec.term ∧ ∀ a, t.mem.read a = s.mem.read a)

/-! ### Sessions (40_encoder.md section 4, 41_decoder.md section 4) -/

/-- 30_encoding.md R91 to R98 and 40_encoder.md R124, of which R93, R98 and R124 are inferences of the spec's own: the
blocks of a payload are blocks of the grammar and stand for that payload; the frame's only `0x00` is its last byte;
its length is `L + 2 + k`, at most `bound(L)`, and exactly that for a payload with no `0x00`. -/
def Obligations.FrameOfPayload : Prop :=
  ∀ p : List Byte,
    blocksOf p ≠ [] ∧ (∀ x ∈ blocksOf p, x.wf = true) ∧ payloadOf (blocksOf p) = p ∧
    (∃ front, frameOf p = front ++ [0x00#8] ∧ ∀ b ∈ front, b ≠ 0x00#8) ∧
    (frameOf p).length = p.length + 2 + cappedBefore (blocksOf p) ∧
    (frameOf p).length ≤ bound p.length ∧
    ((∀ b ∈ p, b ≠ 0x00#8) → (frameOf p).length = bound p.length)

/-- 40_encoder.md R123, R124, inferences of the spec's own: an encoder session for a payload, with any `LAST` bits,
whose window START accepts, ends `OK` exactly when the window holds the payload's frame; the frame then stands at
offsets 0 to `RESULT - 1`, but for bytes another writer races for, and no other byte of memory has changed. -/
def Obligations.EncoderSessionWritesFrame : Prop :=
  ∀ (input : List (Byte × Bool)) (s : State),
    2 ≤ s.enc.dstCap.toNat → s.enc.dstBase.toNat + s.enc.dstCap.toNat ≤ 2 ^ 32 →
    ∃ t, runAll (encSession input) s = .next t ∧ OnlyEnc s t ∧
      (∀ a, a < s.enc.dstBase.toNat ∨ s.enc.dstBase.toNat + s.enc.dstCap.toNat ≤ a →
        t.mem.read a = s.mem.read a) ∧
      ((frameOf (input.map Prod.fst)).length ≤ s.enc.dstCap.toNat →
        t.enc.lastRes = .ok ∧ t.enc.phase = .opened ∧
        t.enc.result.toNat = (frameOf (input.map Prod.fst)).length ∧
        (∀ k, k < (frameOf (input.map Prod.fst)).length → s.raced (s.enc.dstBase.toNat + k) = false →
          t.mem.read (s.enc.dstBase.toNat + k) = (frameOf (input.map Prod.fst))[k]?) ∧
        (∀ a, a < s.enc.dstBase.toNat ∨ s.enc.dstBase.toNat + (frameOf (input.map Prod.fst)).length ≤ a →
          t.mem.read a = s.mem.read a)) ∧
      (s.enc.dstCap.toNat < (frameOf (input.map Prod.fst)).length →
        t.enc.lastRes = .bufferOverflow ∧ t.enc.phase = .failed)

/-- The step that R124 rests on: a session's bytes are, at every moment, the blocks of the payload fed so far. A
successful START has been fed nothing, an ENC.FEED that ends `OK` has been fed one byte more, and an ENC.END that ends
`OK` leaves the frame of what was fed. -/
def Obligations.EncoderHoldsBlocksFedSoFar : Prop :=
  (∀ s t : State, exec .encStart s = .next t → t.enc.lastRes = .ok → t.Encoding []) ∧
  (∀ (s t : State) (p : List Byte) (b : Byte) (last : Bool), s.enc.Inv → s.Encoding p →
    exec (.encFeed b last) s = .next t → t.enc.lastRes = .ok → t.Encoding (p ++ [b])) ∧
  (∀ (s t : State) (p : List Byte), s.enc.Inv → s.Encoding p → exec .encEnd s = .next t → t.enc.lastRes = .ok →
    t.enc.result.toNat = (frameOf p).length ∧
    ∀ k, k < (frameOf p).length → s.raced (s.enc.winBase.toNat + k) = false →
      t.mem.read (s.enc.winBase.toNat + k) = (frameOf p)[k]?)

/-- 41_decoder.md R166, an inference of the spec's own: a decoder session for the frame of a payload, with a window of
at least the payload's length, ends `OK` with the payload at offsets 0 to `RESULT - 1`, but for bytes another writer
races for, and no other byte of memory changed: with `LEGACY_CHUNK_ZERO = false` under any split into chunks, with
`true` when the frame is fed as one chunk. -/
def Obligations.DecoderSessionRecoversPayload : Prop :=
  ∀ (input : List (Byte × Bool)) (p : List Byte) (s : State),
    (s.params.legacyChunkZero = false ∨
      ∃ front b, input = front ++ [(b, true)] ∧ ∀ x ∈ front, x.2 = false) →
    input.map Prod.fst = frameOf p →
    2 ≤ s.dec.dstCap.toNat → s.dec.dstBase.toNat + s.dec.dstCap.toNat ≤ 2 ^ 32 → p.length ≤ s.dec.dstCap.toNat →
    ∃ t, runAll (decSession input) s = .next t ∧ OnlyDec s t ∧
      t.dec.lastRes = .ok ∧ t.dec.term = true ∧ t.dec.result.toNat = p.length ∧
      (∀ k, k < p.length → s.raced (s.dec.dstBase.toNat + k) = false →
        t.mem.read (s.dec.dstBase.toNat + k) = p[k]?) ∧
      (∀ a, a < s.dec.dstBase.toNat ∨ s.dec.dstBase.toNat + p.length ≤ a → t.mem.read a = s.mem.read a)

/-- 30_encoding.md R99, an inference of the spec's own: after `n >= 1` fed bytes the decoder has written at most `n -
1`, under either rule of zero synthesis. -/
def Obligations.DecoderWritesFewerThanFed : Prop :=
  ∀ (input : List (Byte × Bool)) (s t : State), input ≠ [] →
    2 ≤ s.dec.dstCap.toNat → s.dec.dstBase.toNat + s.dec.dstCap.toNat ≤ 2 ^ 32 →
    runAll (decFeeds input) s = .next t → t.dec.cursor.toNat + 1 ≤ input.length

/-- 30_encoding.md R90: stopping a one-shot composition at the first error changes no outcome: it leaves the same
registers and memory, and the same of everything but who may use the window (log entry 7), which an END moves on. The
premise that START accepts the window, or that no session was started, is needed: a refused START leaves an older open
session as it was, and a host that went on would feed that one (log entry 9). -/
def Obligations.StoppingEarlyChangesNothing : Prop :=
  ∀ (p : List Byte) (base cap : Word) (s : State),
    ((2 ≤ cap.toNat ∧ base.toNat + cap.toNat ≤ 2 ^ 32) ∨ s.enc.phase = .idle →
      ∃ t c, encodeOneShot p base cap s = .next t ∧
        runAll (encodeCommands p) ((s.writeReg .encDstBase base).writeReg .encDstCap cap) =
          .next (t.setCustody .enc c)) ∧
    ((2 ≤ cap.toNat ∧ base.toNat + cap.toNat ≤ 2 ^ 32) ∨ s.dec.phase = .idle →
      ∃ t c, decodeOneShot p base cap s = .next t ∧
        runAll (decodeCommands p) ((s.writeReg .decDstBase base).writeReg .decDstCap cap) =
          .next (t.setCustody .dec c))

/-- 20_memory.md R66: commands take effect one at a time in the order of their `CMD` writes: stepping the machine
through the host's `CMD` writes of a list of commands is running those commands in that order. -/
def Obligations.StepsRunCommandsInOrder : Prop :=
  ∀ (cmds : List Instr) (s : State),
    Sys2Proof.core.run cmds.length { s with pending := cmds.map (Access.issue s.params) } =
      runAll cmds { s with pending := [] }
end

