-- ==== Sys2Proof/Laws/Decode.lean ====
section
/-! SUPPORT. What the decoder can answer, and the bits a row's mask fixes. -/
namespace Sys2Proof

/-- A command word is its fields (30_encoding.md R80). -/
theorem word_fields (w : Word) :
    w = res1Field w ++ dataField w ++ BitVec.ofBool (lastField w) ++ res0Field w ++ BitVec.ofBool (w.getLsbD 4)
      ++ opField w := by
  apply BitVec.eq_of_getLsbD_eq
  intro k hk
  simp only [BitVec.getLsbD_append, res1Field, dataField, lastField, res0Field, opField,
    BitVec.getLsbD_extractLsb', BitVec.getLsbD_ofBool]
  interval_cases k <;> simp

/-- A word that a FEED row selects is that row's command word with the word's own operands (R82, R83, R85). -/
theorem feed_word (u : Engine) (w : Word) (h : w &&& 0xFFFF007F#32 = (if u = .dec then 0x12#32 else 0x2#32)) :
    w = commandWord (dataField w) (lastField w) u 2 := by
  have hb : ∀ k, (w.getLsbD k && (0xFFFF007F#32).getLsbD k) = (if u = .dec then 0x12#32 else 0x2#32).getLsbD k := by
    intro k; rw [← h, BitVec.getLsbD_and]
  have h1 : res1Field w = 0#16 := by
    apply BitVec.eq_of_getLsbD_eq; intro k hk
    have := hb (16 + k)
    cases u <;> simp only [res1Field, BitVec.getLsbD_extractLsb'] <;> interval_cases k <;> simpa using this
  have h2 : res0Field w = 0#2 := by
    apply BitVec.eq_of_getLsbD_eq; intro k hk
    have := hb (5 + k)
    cases u <;> simp only [res0Field, BitVec.getLsbD_extractLsb'] <;> interval_cases k <;> simpa using this
  have h3 : opField w = 2#4 := by
    apply BitVec.eq_of_getLsbD_eq; intro k hk
    have := hb (0 + k)
    cases u <;> simp only [opField, BitVec.getLsbD_extractLsb'] <;> interval_cases k <;> simpa using this
  have h4 : w.getLsbD 4 = decide (u = .dec) := by
    have := hb 4; cases u <;> simpa using this
  have := word_fields w
  rw [h1, h2, h3, h4] at this
  exact this

/-- The mask of a START or END row keeps every bit. -/
theorem and_full_mask (w : Word) : w &&& 0xFFFFFFFF#32 = w := by
  rw [show (0xFFFFFFFF#32) = BitVec.allOnes 32 by decide, BitVec.and_allOnes]

/-- Every answer of the decoder: one of the six commands, with the word it has, or a malformed word. -/
theorem decode_cases (w : Word) :
    (w = 0x1#32 ∧ decode w = .ok .encStart) ∨
    (w = commandWord (dataField w) (lastField w) .enc 2 ∧ decode w = .ok (.encFeed (dataField w) (lastField w))) ∨
    (w = 0x3#32 ∧ decode w = .ok .encEnd) ∨
    (w = 0x11#32 ∧ decode w = .ok .decStart) ∨
    (w = commandWord (dataField w) (lastField w) .dec 2 ∧ decode w = .ok (.decFeed (dataField w) (lastField w))) ∨
    (w = 0x13#32 ∧ decode w = .ok .decEnd) ∨
    ((w ≠ 1#32 ∧ w ≠ 3#32 ∧ w ≠ 0x11#32 ∧ w ≠ 0x13#32 ∧
        w &&& 0xFFFF007F#32 ≠ 0x2#32 ∧ w &&& 0xFFFF007F#32 ≠ 0x12#32) ∧
      decode w = .error (malformedReason w)) := by
  unfold decode
  simp only [Row.selects, encStartRow, encFeedRow, encEndRow, decStartRow, decFeedRow, decEndRow, beq_iff_eq,
    BitVec.ofNat_eq_ofNat, and_full_mask]
  split
  · simp_all
  split
  · rename_i h; have := feed_word .enc w (by simpa using h); right; left; exact ⟨this, rfl⟩
  split
  · simp_all
  split
  · simp_all
  split
  · rename_i h; have := feed_word .dec w (by simpa using h); right; right; right; right; left; exact ⟨this, rfl⟩
  split
  · simp_all
  · right; right; right; right; right; right; exact ⟨by simp_all, rfl⟩

end Sys2Proof
end

