-- ==== Sys2Proof/Laws/Memory.lean ====
section
/-! SUPPORT. Destination memory: a read after a write, and that every operation keeps the canonical form. -/
namespace Sys2Proof.Machine

/-- A byte reads as what was last written to it, and every other byte as before. -/
theorem Memory.read_write (m : Memory) (a b : Nat) (v : Byte) :
    (m.write a v).read b = if a = b then some v else m.read b := by
  induction m with
  | nil => simp [Memory.write, Memory.read]
  | cons c m ih =>
    obtain ⟨k, x⟩ := c
    simp only [Memory.write]
    split
    · simp [Memory.read]
    · split
      · subst_vars; simp only [Memory.read]; split <;> rfl
      · simp only [Memory.read, ih]; split <;> split <;> simp_all

@[simp] theorem Memory.read_write_same (m : Memory) (a : Nat) (v : Byte) : (m.write a v).read a = some v := by
  simp [Memory.read_write]

theorem Memory.read_write_other {m : Memory} {a b : Nat} {v : Byte} (h : a ≠ b) : (m.write a v).read b = m.read b := by
  simp [Memory.read_write, h]

@[simp] theorem Memory.writeAll_nil (m : Memory) : m.writeAll [] = m := rfl

@[simp] theorem Memory.writeAll_cons (m : Memory) (c : Host.Cell) (w : List Host.Cell) :
    m.writeAll (c :: w) = (m.write c.1 c.2).writeAll w := rfl

/-- A byte that no listed write names reads as before. -/
theorem Memory.read_writeAll_other {w : List Host.Cell} {a : Nat} (h : ∀ c ∈ w, c.1 ≠ a) (m : Memory) :
    (m.writeAll w).read a = m.read a := by
  induction w generalizing m with
  | nil => rfl
  | cons c w ih =>
    rw [Memory.writeAll_cons, ih (fun c hc => h c (by simp [hc])), Memory.read_write_other (h c (by simp))]

/-- What a byte reads as after writes depends on the writes and on that byte alone. -/
theorem Memory.read_writeAll_congr {m n : Memory} {a : Nat} (w : List Host.Cell) (h : m.read a = n.read a) :
    (m.writeAll w).read a = (n.writeAll w).read a := by
  induction w generalizing m n with
  | nil => exact h
  | cons c w ih => exact ih (by simp only [Memory.read_write, h])

/-- A lower bound on the addresses can be lowered. -/
theorem Memory.risingFrom_mono {m : Memory} {lo hi : Nat} (h : lo ≤ hi) (hm : m.risingFrom hi = true) :
    m.risingFrom lo = true := by
  cases m with
  | nil => rfl
  | cons c m => simp only [Memory.risingFrom, Bool.and_eq_true, decide_eq_true_eq] at hm ⊢; exact ⟨by omega, hm.2⟩

theorem Memory.risingFrom_write {m : Memory} {lo a : Nat} (v : Byte) (hm : m.risingFrom lo = true) (h : lo ≤ a) :
    (m.write a v).risingFrom lo = true := by
  induction m generalizing lo with
  | nil => simp [Memory.write, Memory.risingFrom, h]
  | cons c m ih =>
    obtain ⟨k, x⟩ := c
    simp only [Memory.risingFrom, Bool.and_eq_true, decide_eq_true_eq] at hm
    simp only [Memory.write]
    split
    · simp only [Memory.risingFrom, Bool.and_eq_true, decide_eq_true_eq]; exact ⟨h, by omega, hm.2⟩
    · split
      · subst_vars; simp only [Memory.risingFrom, Bool.and_eq_true, decide_eq_true_eq]; exact ⟨h, hm.2⟩
      · simp only [Memory.risingFrom, Bool.and_eq_true, decide_eq_true_eq]; exact ⟨hm.1, ih hm.2 (by omega)⟩

theorem Memory.all_write {m : Memory} {a : Nat} (v : Byte) {p : Host.Cell → Bool} (hm : m.all p = true)
    (ha : p (a, v) = true) : (m.write a v).all p = true := by
  induction m with
  | nil => simp [Memory.write, ha]
  | cons c m ih =>
    obtain ⟨k, x⟩ := c
    simp only [List.all_cons, Bool.and_eq_true] at hm
    simp only [Memory.write]
    split
    · simp [ha, hm]
    · split
      · simp [ha, hm]
      · simp [hm.1, ih hm.2]

/-- A write inside destination memory keeps the canonical form. -/
theorem Memory.wf_write {m : Memory} {a : Nat} (v : Byte) (hm : m.wf = true) (ha : a < Config.addrSpace) :
    (m.write a v).wf = true := by
  simp only [Memory.wf, Bool.and_eq_true] at hm ⊢
  exact ⟨Memory.risingFrom_write v hm.1 (by omega), Memory.all_write v hm.2 (by simpa using ha)⟩

/-- Writes inside destination memory keep the canonical form. -/
theorem Memory.wf_writeAll {m : Memory} {w : List Host.Cell} (hm : m.wf = true)
    (hw : ∀ c ∈ w, c.1 < Config.addrSpace) : (m.writeAll w).wf = true := by
  induction w generalizing m with
  | nil => exact hm
  | cons c w ih =>
    exact ih (Memory.wf_write c.2 hm (hw c (by simp))) (fun c hc => hw c (by simp [hc]))

theorem Memory.read_below {m : Memory} {lo a : Nat} (hm : m.risingFrom lo = true) (h : a < lo) : m.read a = none := by
  induction m generalizing lo with
  | nil => rfl
  | cons c m ih =>
    simp only [Memory.risingFrom, Bool.and_eq_true, decide_eq_true_eq] at hm
    simp only [Memory.read]
    rw [if_neg (by omega)]
    exact ih hm.2 (by omega)

/-- Two memories with rising addresses that read the same everywhere are the same data. -/
theorem Memory.ext_of_rising {m n : Memory} {lo hi : Nat} (hm : m.risingFrom lo = true) (hn : n.risingFrom hi = true)
    (h : ∀ a, m.read a = n.read a) : m = n := by
  induction m generalizing n lo hi with
  | nil =>
    cases n with
    | nil => rfl
    | cons d n => have := h d.1; simp [Memory.read] at this
  | cons c m ih =>
    obtain ⟨k, x⟩ := c
    cases n with
    | nil => have := h k; simp [Memory.read] at this
    | cons d n =>
      obtain ⟨l, y⟩ := d
      simp only [Memory.risingFrom, Bool.and_eq_true, decide_eq_true_eq] at hm hn
      have hkl : k = l := by
        by_contra hne
        rcases Nat.lt_or_gt_of_ne hne with hlt | hlt
        · have := h k
          simp only [Memory.read, if_true, if_neg (show ¬ l = k by omega)] at this
          rw [Memory.read_below hn.2 (by omega)] at this; simp at this
        · have := h l
          simp only [Memory.read, if_true, if_neg (show ¬ k = l by omega)] at this
          rw [Memory.read_below hm.2 (by omega)] at this; simp at this
      subst hkl
      have hxy : x = y := by have := h k; simpa [Memory.read] using this
      subst hxy
      congr 1
      refine ih hm.2 hn.2 fun a => ?_
      by_cases hka : k = a
      · subst hka; rw [Memory.read_below hm.2 (by omega), Memory.read_below hn.2 (by omega)]
      · have := h a; simpa [Memory.read, hka] using this

/-- Canonical memories that read the same are equal. -/
theorem Memory.ext_of_wf {m n : Memory} (hm : m.wf = true) (hn : n.wf = true) (h : ∀ a, m.read a = n.read a) :
    m = n := by
  simp only [Memory.wf, Bool.and_eq_true] at hm hn
  exact Memory.ext_of_rising hm.1 hn.1 h

/-- A forgotten byte has no value, and every other byte reads as before. -/
theorem Memory.read_erase (m : Memory) (a b : Nat) : (m.erase a).read b = if a = b then none else m.read b := by
  induction m with
  | nil => simp [Memory.erase, Memory.read]
  | cons c m ih =>
    obtain ⟨k, x⟩ := c
    simp only [Memory.erase, List.filter_cons] at ih ⊢
    by_cases hk : k = a
    · subst hk; simp only [bne_self_eq_false, Bool.false_eq_true, if_false, ih, Memory.read]; split <;> rfl
    · simp only [bne_iff_ne, ne_eq, hk, not_false_eq_true, if_true, Memory.read, ih]; split <;> split <;> simp_all

theorem Memory.risingFrom_erase {m : Memory} {lo : Nat} (a : Nat) (hm : m.risingFrom lo = true) :
    (m.erase a).risingFrom lo = true := by
  induction m generalizing lo with
  | nil => rfl
  | cons c m ih =>
    obtain ⟨k, x⟩ := c
    simp only [Memory.risingFrom, Bool.and_eq_true, decide_eq_true_eq] at hm
    simp only [Memory.erase, List.filter_cons]
    split
    · simp only [Memory.risingFrom, Bool.and_eq_true, decide_eq_true_eq]; exact ⟨hm.1, ih hm.2⟩
    · exact Memory.risingFrom_mono (Nat.le_succ_of_le hm.1) (ih hm.2)

/-- Forgetting a byte keeps the canonical form. -/
theorem Memory.wf_erase {m : Memory} (a : Nat) (hm : m.wf = true) : (m.erase a).wf = true := by
  simp only [Memory.wf, Bool.and_eq_true, List.all_eq_true] at hm ⊢
  exact ⟨Memory.risingFrom_erase a hm.1, fun c hc => hm.2 c (List.mem_of_mem_filter hc)⟩

/-- Free bytes change nothing of a state but memory and the count of free bytes drawn. -/
theorem State.freeBytes_eq (w : List Nat) (s : State) :
    ∃ m n, State.freeBytes w s = { s with mem := m, freeCount := n } := by
  induction w generalizing s with
  | nil => exact ⟨s.mem, s.freeCount, rfl⟩
  | cons a w ih => obtain ⟨m, n, h⟩ := ih _; exact ⟨m, n, h⟩

/-- A byte that is not made free reads as before. -/
theorem State.freeBytes_read_other {w : List Nat} {a : Nat} (h : a ∉ w) (s : State) :
    (State.freeBytes w s).mem.read a = s.mem.read a := by
  induction w generalizing s with
  | nil => rfl
  | cons b w ih =>
    simp only [List.mem_cons, not_or] at h
    rw [State.freeBytes, ih h.2, Memory.read_write_other (Ne.symm h.1)]

/-- Free bytes are only ever drawn. -/
theorem State.freeBytes_mono (w : List Nat) (s : State) : s.freeCount ≤ (State.freeBytes w s).freeCount := by
  induction w generalizing s with
  | nil => exact Nat.le_refl _
  | cons a w ih => exact Nat.le_trans (Nat.le_succ _) (ih { s with mem := _, freeCount := s.freeCount + 1 })

/-- A byte made free holds one of the free bytes drawn for it. -/
theorem State.freeBytes_read_mem {w : List Nat} {a : Nat} (h : a ∈ w) (s : State) :
    ∃ n, s.freeCount ≤ n ∧ n < (State.freeBytes w s).freeCount ∧
      (State.freeBytes w s).mem.read a = some (Config.freeByte n) := by
  induction w generalizing s with
  | nil => simp at h
  | cons b w ih =>
    by_cases hw : a ∈ w
    · obtain ⟨n, h1, h2, h3⟩ :=
        ih hw { s with mem := s.mem.write b (Config.freeByte s.freeCount), freeCount := s.freeCount + 1 }
      exact ⟨n, Nat.le_of_succ_le h1, h2, h3⟩
    · have : a = b := by simpa [hw] using h
      subst this
      refine ⟨s.freeCount, Nat.le_refl _, State.freeBytes_mono w { s with mem := _, freeCount := s.freeCount + 1 }, ?_⟩
      rw [State.freeBytes, State.freeBytes_read_other hw, Memory.read_write_same]

/-- Free bytes inside destination memory keep the canonical form. -/
theorem State.freeBytes_wf {w : List Nat} {s : State} (hm : s.mem.wf = true) (hw : ∀ a ∈ w, a < Config.addrSpace) :
    (State.freeBytes w s).mem.wf = true := by
  induction w generalizing s with
  | nil => exact hm
  | cons a w ih =>
    exact ih (Memory.wf_write _ hm (hw a (by simp))) (fun b hb => hw b (by simp [hb]))

end Sys2Proof.Machine
end

