-- ==== Sys2Proof/Laws/State.lean ====
section
/-! SUPPORT. One lemma per field per update of the state, each true by `rfl`, so that no later proof unfolds a record
update. -/
namespace Sys2Proof.Machine

@[simp] theorem Session.succeed_dstBase (x : Session) : (x.succeed).dstBase = x.dstBase := rfl
@[simp] theorem Session.succeed_dstCap (x : Session) : (x.succeed).dstCap = x.dstCap := rfl
@[simp] theorem Session.succeed_winBase (x : Session) : (x.succeed).winBase = x.winBase := rfl
@[simp] theorem Session.succeed_winCap (x : Session) : (x.succeed).winCap = x.winCap := rfl
@[simp] theorem Session.succeed_phase (x : Session) : (x.succeed).phase = x.phase := rfl
@[simp] theorem Session.succeed_lastRes (x : Session) : (x.succeed).lastRes = .ok := rfl
@[simp] theorem Session.succeed_failErr (x : Session) : (x.succeed).failErr = x.failErr := rfl
@[simp] theorem Session.succeed_result (x : Session) : (x.succeed).result = x.result := rfl
@[simp] theorem Session.succeed_cursor (x : Session) : (x.succeed).cursor = x.cursor := rfl

@[simp] theorem Session.invalid_dstBase (x : Session) : (x.invalid).dstBase = x.dstBase := rfl
@[simp] theorem Session.invalid_dstCap (x : Session) : (x.invalid).dstCap = x.dstCap := rfl
@[simp] theorem Session.invalid_winBase (x : Session) : (x.invalid).winBase = x.winBase := rfl
@[simp] theorem Session.invalid_winCap (x : Session) : (x.invalid).winCap = x.winCap := rfl
@[simp] theorem Session.invalid_phase (x : Session) : (x.invalid).phase = x.phase := rfl
@[simp] theorem Session.invalid_lastRes (x : Session) : (x.invalid).lastRes = .invalidArgument := rfl
@[simp] theorem Session.invalid_failErr (x : Session) : (x.invalid).failErr = x.failErr := rfl
@[simp] theorem Session.invalid_result (x : Session) : (x.invalid).result = x.result := rfl
@[simp] theorem Session.invalid_cursor (x : Session) : (x.invalid).cursor = x.cursor := rfl

@[simp] theorem Session.fail_dstBase (x : Session) (c : Result) : (x.fail c).dstBase = x.dstBase := rfl
@[simp] theorem Session.fail_dstCap (x : Session) (c : Result) : (x.fail c).dstCap = x.dstCap := rfl
@[simp] theorem Session.fail_winBase (x : Session) (c : Result) : (x.fail c).winBase = x.winBase := rfl
@[simp] theorem Session.fail_winCap (x : Session) (c : Result) : (x.fail c).winCap = x.winCap := rfl
@[simp] theorem Session.fail_phase (x : Session) (c : Result) : (x.fail c).phase = .failed := rfl
@[simp] theorem Session.fail_lastRes (x : Session) (c : Result) : (x.fail c).lastRes = c := rfl
@[simp] theorem Session.fail_failErr (x : Session) (c : Result) : (x.fail c).failErr = c := rfl
@[simp] theorem Session.fail_result (x : Session) (c : Result) : (x.fail c).result = x.result := rfl
@[simp] theorem Session.fail_cursor (x : Session) (c : Result) : (x.fail c).cursor = x.cursor := rfl

@[simp] theorem Session.repeatError_dstBase (x : Session) : (x.repeatError).dstBase = x.dstBase := rfl
@[simp] theorem Session.repeatError_dstCap (x : Session) : (x.repeatError).dstCap = x.dstCap := rfl
@[simp] theorem Session.repeatError_winBase (x : Session) : (x.repeatError).winBase = x.winBase := rfl
@[simp] theorem Session.repeatError_winCap (x : Session) : (x.repeatError).winCap = x.winCap := rfl
@[simp] theorem Session.repeatError_phase (x : Session) : (x.repeatError).phase = x.phase := rfl
@[simp] theorem Session.repeatError_lastRes (x : Session) : (x.repeatError).lastRes = x.failErr := rfl
@[simp] theorem Session.repeatError_failErr (x : Session) : (x.repeatError).failErr = x.failErr := rfl
@[simp] theorem Session.repeatError_result (x : Session) : (x.repeatError).result = x.result := rfl
@[simp] theorem Session.repeatError_cursor (x : Session) : (x.repeatError).cursor = x.cursor := rfl

@[simp] theorem Session.openAt_dstBase (x : Session) (c : Word) : (x.openAt c).dstBase = x.dstBase := rfl
@[simp] theorem Session.openAt_dstCap (x : Session) (c : Word) : (x.openAt c).dstCap = x.dstCap := rfl
@[simp] theorem Session.openAt_winBase (x : Session) (c : Word) : (x.openAt c).winBase = x.dstBase := rfl
@[simp] theorem Session.openAt_winCap (x : Session) (c : Word) : (x.openAt c).winCap = x.dstCap := rfl
@[simp] theorem Session.openAt_phase (x : Session) (c : Word) : (x.openAt c).phase = .opened := rfl
@[simp] theorem Session.openAt_lastRes (x : Session) (c : Word) : (x.openAt c).lastRes = .ok := rfl
@[simp] theorem Session.openAt_failErr (x : Session) (c : Word) : (x.openAt c).failErr = .ok := rfl
@[simp] theorem Session.openAt_result (x : Session) (c : Word) : (x.openAt c).result = 0 := rfl
@[simp] theorem Session.openAt_cursor (x : Session) (c : Word) : (x.openAt c).cursor = c := rfl

@[simp] theorem Session.advance_dstBase (x : Session) : (x.advance).dstBase = x.dstBase := rfl
@[simp] theorem Session.advance_dstCap (x : Session) : (x.advance).dstCap = x.dstCap := rfl
@[simp] theorem Session.advance_winBase (x : Session) : (x.advance).winBase = x.winBase := rfl
@[simp] theorem Session.advance_winCap (x : Session) : (x.advance).winCap = x.winCap := rfl
@[simp] theorem Session.advance_phase (x : Session) : (x.advance).phase = x.phase := rfl
@[simp] theorem Session.advance_lastRes (x : Session) : (x.advance).lastRes = x.lastRes := rfl
@[simp] theorem Session.advance_failErr (x : Session) : (x.advance).failErr = x.failErr := rfl
@[simp] theorem Session.advance_result (x : Session) : (x.advance).result = x.result := rfl
@[simp] theorem Session.advance_cursor (x : Session) : (x.advance).cursor = x.cursor + 1 := rfl

@[simp] theorem Enc.succeed_toSession (e : Enc) : (e.succeed).toSession = e.toSession.succeed := rfl
@[simp] theorem Enc.succeed_slot (e : Enc) : (e.succeed).slot = e.slot := rfl
@[simp] theorem Enc.succeed_blen (e : Enc) : (e.succeed).blen = e.blen := rfl
@[simp] theorem Enc.invalid_toSession (e : Enc) : (e.invalid).toSession = e.toSession.invalid := rfl
@[simp] theorem Enc.invalid_slot (e : Enc) : (e.invalid).slot = e.slot := rfl
@[simp] theorem Enc.invalid_blen (e : Enc) : (e.invalid).blen = e.blen := rfl
@[simp] theorem Enc.fail_toSession (e : Enc) (c : Result) : (e.fail c).toSession = e.toSession.fail c := rfl
@[simp] theorem Enc.fail_slot (e : Enc) (c : Result) : (e.fail c).slot = e.slot := rfl
@[simp] theorem Enc.fail_blen (e : Enc) (c : Result) : (e.fail c).blen = e.blen := rfl
@[simp] theorem Enc.repeatError_toSession (e : Enc) : (e.repeatError).toSession = e.toSession.repeatError := rfl
@[simp] theorem Enc.repeatError_slot (e : Enc) : (e.repeatError).slot = e.slot := rfl
@[simp] theorem Enc.repeatError_blen (e : Enc) : (e.repeatError).blen = e.blen := rfl

@[simp] theorem Dec.succeed_toSession (d : Dec) : (d.succeed).toSession = d.toSession.succeed := rfl
@[simp] theorem Dec.succeed_pcode (d : Dec) : (d.succeed).pcode = d.pcode := rfl
@[simp] theorem Dec.succeed_rem (d : Dec) : (d.succeed).rem = d.rem := rfl
@[simp] theorem Dec.succeed_term (d : Dec) : (d.succeed).term = d.term := rfl
@[simp] theorem Dec.succeed_discard (d : Dec) : (d.succeed).discard = d.discard := rfl
@[simp] theorem Dec.invalid_toSession (d : Dec) : (d.invalid).toSession = d.toSession.invalid := rfl
@[simp] theorem Dec.invalid_pcode (d : Dec) : (d.invalid).pcode = d.pcode := rfl
@[simp] theorem Dec.invalid_rem (d : Dec) : (d.invalid).rem = d.rem := rfl
@[simp] theorem Dec.invalid_term (d : Dec) : (d.invalid).term = d.term := rfl
@[simp] theorem Dec.invalid_discard (d : Dec) : (d.invalid).discard = d.discard := rfl
@[simp] theorem Dec.fail_toSession (d : Dec) (c : Result) : (d.fail c).toSession = d.toSession.fail c := rfl
@[simp] theorem Dec.fail_pcode (d : Dec) (c : Result) : (d.fail c).pcode = d.pcode := rfl
@[simp] theorem Dec.fail_rem (d : Dec) (c : Result) : (d.fail c).rem = d.rem := rfl
@[simp] theorem Dec.fail_term (d : Dec) (c : Result) : (d.fail c).term = d.term := rfl
@[simp] theorem Dec.fail_discard (d : Dec) (c : Result) : (d.fail c).discard = d.discard := rfl
@[simp] theorem Dec.repeatError_toSession (d : Dec) : (d.repeatError).toSession = d.toSession.repeatError := rfl
@[simp] theorem Dec.repeatError_pcode (d : Dec) : (d.repeatError).pcode = d.pcode := rfl
@[simp] theorem Dec.repeatError_rem (d : Dec) : (d.repeatError).rem = d.rem := rfl
@[simp] theorem Dec.repeatError_term (d : Dec) : (d.repeatError).term = d.term := rfl
@[simp] theorem Dec.repeatError_discard (d : Dec) : (d.repeatError).discard = d.discard := rfl

@[simp] theorem State.commitEnc_params (s : State) (x : Effect Enc) (c : Custody) :
    (s.commitEnc x c).params = s.params := rfl
@[simp] theorem State.commitEnc_enc (s : State) (x : Effect Enc) (c : Custody) : (s.commitEnc x c).enc = x.regs := rfl
@[simp] theorem State.commitEnc_dec (s : State) (x : Effect Enc) (c : Custody) : (s.commitEnc x c).dec = s.dec := rfl
@[simp] theorem State.commitEnc_mem (s : State) (x : Effect Enc) (c : Custody) :
    (s.commitEnc x c).mem = s.land x.writes := rfl
@[simp] theorem State.commitEnc_pending (s : State) (x : Effect Enc) (c : Custody) :
    (s.commitEnc x c).pending = s.pending := rfl
@[simp] theorem State.commitEnc_readData (s : State) (x : Effect Enc) (c : Custody) :
    (s.commitEnc x c).readData = s.readData := rfl
@[simp] theorem State.commitEnc_freeCount (s : State) (x : Effect Enc) (c : Custody) :
    (s.commitEnc x c).freeCount = s.freeCount := rfl
@[simp] theorem State.commitEnc_encCustody (s : State) (x : Effect Enc) (c : Custody) :
    (s.commitEnc x c).encCustody = c := rfl
@[simp] theorem State.commitEnc_decCustody (s : State) (x : Effect Enc) (c : Custody) :
    (s.commitEnc x c).decCustody = s.decCustody := rfl
@[simp] theorem State.commitEnc_encRaced (s : State) (x : Effect Enc) (c : Custody) :
    (s.commitEnc x c).encRaced = s.encRaced := rfl
@[simp] theorem State.commitEnc_decRaced (s : State) (x : Effect Enc) (c : Custody) :
    (s.commitEnc x c).decRaced = s.decRaced := rfl

@[simp] theorem State.commitDec_params (s : State) (x : Effect Dec) (c : Custody) :
    (s.commitDec x c).params = s.params := rfl
@[simp] theorem State.commitDec_enc (s : State) (x : Effect Dec) (c : Custody) : (s.commitDec x c).enc = s.enc := rfl
@[simp] theorem State.commitDec_dec (s : State) (x : Effect Dec) (c : Custody) : (s.commitDec x c).dec = x.regs := rfl
@[simp] theorem State.commitDec_mem (s : State) (x : Effect Dec) (c : Custody) :
    (s.commitDec x c).mem = s.land x.writes := rfl
@[simp] theorem State.commitDec_pending (s : State) (x : Effect Dec) (c : Custody) :
    (s.commitDec x c).pending = s.pending := rfl
@[simp] theorem State.commitDec_readData (s : State) (x : Effect Dec) (c : Custody) :
    (s.commitDec x c).readData = s.readData := rfl
@[simp] theorem State.commitDec_freeCount (s : State) (x : Effect Dec) (c : Custody) :
    (s.commitDec x c).freeCount = s.freeCount := rfl
@[simp] theorem State.commitDec_encCustody (s : State) (x : Effect Dec) (c : Custody) :
    (s.commitDec x c).encCustody = s.encCustody := rfl
@[simp] theorem State.commitDec_decCustody (s : State) (x : Effect Dec) (c : Custody) :
    (s.commitDec x c).decCustody = c := rfl
@[simp] theorem State.commitDec_encRaced (s : State) (x : Effect Dec) (c : Custody) :
    (s.commitDec x c).encRaced = s.encRaced := rfl
@[simp] theorem State.commitDec_decRaced (s : State) (x : Effect Dec) (c : Custody) :
    (s.commitDec x c).decRaced = s.decRaced := rfl

@[simp] theorem State.setSession_enc_params (s : State) (x : Session) : (s.setSession .enc x).params = s.params := rfl
@[simp] theorem State.setSession_enc_enc (s : State) (x : Session) :
    (s.setSession .enc x).enc = { s.enc with toSession := x } := rfl
@[simp] theorem State.setSession_enc_dec (s : State) (x : Session) : (s.setSession .enc x).dec = s.dec := rfl
@[simp] theorem State.setSession_enc_mem (s : State) (x : Session) : (s.setSession .enc x).mem = s.mem := rfl
@[simp] theorem State.setSession_enc_pending (s : State) (x : Session) :
    (s.setSession .enc x).pending = s.pending := rfl
@[simp] theorem State.setSession_enc_readData (s : State) (x : Session) :
    (s.setSession .enc x).readData = s.readData := rfl
@[simp] theorem State.setSession_enc_freeCount (s : State) (x : Session) :
    (s.setSession .enc x).freeCount = s.freeCount := rfl
@[simp] theorem State.setSession_enc_encCustody (s : State) (x : Session) :
    (s.setSession .enc x).encCustody = s.encCustody := rfl
@[simp] theorem State.setSession_enc_decCustody (s : State) (x : Session) :
    (s.setSession .enc x).decCustody = s.decCustody := rfl
@[simp] theorem State.setSession_enc_encRaced (s : State) (x : Session) :
    (s.setSession .enc x).encRaced = s.encRaced := rfl
@[simp] theorem State.setSession_enc_decRaced (s : State) (x : Session) :
    (s.setSession .enc x).decRaced = s.decRaced := rfl

@[simp] theorem State.malformed_enc_params (s : State) : (s.malformed .enc).params = s.params := rfl
@[simp] theorem State.malformed_enc_enc (s : State) : (s.malformed .enc).enc = s.enc.invalid := rfl
@[simp] theorem State.malformed_enc_dec (s : State) : (s.malformed .enc).dec = s.dec := rfl
@[simp] theorem State.malformed_enc_mem (s : State) : (s.malformed .enc).mem = s.mem := rfl
@[simp] theorem State.malformed_enc_pending (s : State) : (s.malformed .enc).pending = s.pending := rfl
@[simp] theorem State.malformed_enc_readData (s : State) : (s.malformed .enc).readData = s.readData := rfl
@[simp] theorem State.malformed_enc_freeCount (s : State) : (s.malformed .enc).freeCount = s.freeCount := rfl
@[simp] theorem State.malformed_enc_encCustody (s : State) : (s.malformed .enc).encCustody = s.encCustody := rfl
@[simp] theorem State.malformed_enc_decCustody (s : State) : (s.malformed .enc).decCustody = s.decCustody := rfl
@[simp] theorem State.malformed_enc_encRaced (s : State) : (s.malformed .enc).encRaced = s.encRaced := rfl
@[simp] theorem State.malformed_enc_decRaced (s : State) : (s.malformed .enc).decRaced = s.decRaced := rfl

@[simp] theorem State.setCustody_enc_params (s : State) (c : Custody) : (s.setCustody .enc c).params = s.params := rfl
@[simp] theorem State.setCustody_enc_enc (s : State) (c : Custody) : (s.setCustody .enc c).enc = s.enc := rfl
@[simp] theorem State.setCustody_enc_dec (s : State) (c : Custody) : (s.setCustody .enc c).dec = s.dec := rfl
@[simp] theorem State.setCustody_enc_mem (s : State) (c : Custody) : (s.setCustody .enc c).mem = s.mem := rfl
@[simp] theorem State.setCustody_enc_pending (s : State) (c : Custody) :
    (s.setCustody .enc c).pending = s.pending := rfl
@[simp] theorem State.setCustody_enc_readData (s : State) (c : Custody) :
    (s.setCustody .enc c).readData = s.readData := rfl
@[simp] theorem State.setCustody_enc_freeCount (s : State) (c : Custody) :
    (s.setCustody .enc c).freeCount = s.freeCount := rfl
@[simp] theorem State.setCustody_enc_encCustody (s : State) (c : Custody) : (s.setCustody .enc c).encCustody = c := rfl
@[simp] theorem State.setCustody_enc_decCustody (s : State) (c : Custody) :
    (s.setCustody .enc c).decCustody = s.decCustody := rfl
@[simp] theorem State.setCustody_enc_encRaced (s : State) (c : Custody) :
    (s.setCustody .enc c).encRaced = s.encRaced := rfl
@[simp] theorem State.setCustody_enc_decRaced (s : State) (c : Custody) :
    (s.setCustody .enc c).decRaced = s.decRaced := rfl

@[simp] theorem State.release_enc_params (s : State) : (s.release .enc).params = s.params := rfl
@[simp] theorem State.release_enc_enc (s : State) : (s.release .enc).enc = s.enc := rfl
@[simp] theorem State.release_enc_dec (s : State) : (s.release .enc).dec = s.dec := rfl
@[simp] theorem State.release_enc_pending (s : State) : (s.release .enc).pending = s.pending := rfl
@[simp] theorem State.release_enc_readData (s : State) : (s.release .enc).readData = s.readData := rfl
@[simp] theorem State.release_enc_encCustody (s : State) : (s.release .enc).encCustody = .host := rfl
@[simp] theorem State.release_enc_decCustody (s : State) : (s.release .enc).decCustody = s.decCustody := rfl
@[simp] theorem State.release_enc_encRaced (s : State) : (s.release .enc).encRaced = [] := rfl
@[simp] theorem State.release_enc_decRaced (s : State) : (s.release .enc).decRaced = s.decRaced := rfl
@[simp] theorem State.session_enc (s : State) : s.session .enc = s.enc.toSession := rfl
@[simp] theorem State.custody_enc (s : State) : s.custody .enc = s.encCustody := rfl
@[simp] theorem State.racedOf_enc (s : State) : s.racedOf .enc = s.encRaced := rfl

@[simp] theorem State.setSession_dec_params (s : State) (x : Session) : (s.setSession .dec x).params = s.params := rfl
@[simp] theorem State.setSession_dec_enc (s : State) (x : Session) : (s.setSession .dec x).enc = s.enc := rfl
@[simp] theorem State.setSession_dec_dec (s : State) (x : Session) :
    (s.setSession .dec x).dec = { s.dec with toSession := x } := rfl
@[simp] theorem State.setSession_dec_mem (s : State) (x : Session) : (s.setSession .dec x).mem = s.mem := rfl
@[simp] theorem State.setSession_dec_pending (s : State) (x : Session) :
    (s.setSession .dec x).pending = s.pending := rfl
@[simp] theorem State.setSession_dec_readData (s : State) (x : Session) :
    (s.setSession .dec x).readData = s.readData := rfl
@[simp] theorem State.setSession_dec_freeCount (s : State) (x : Session) :
    (s.setSession .dec x).freeCount = s.freeCount := rfl
@[simp] theorem State.setSession_dec_encCustody (s : State) (x : Session) :
    (s.setSession .dec x).encCustody = s.encCustody := rfl
@[simp] theorem State.setSession_dec_decCustody (s : State) (x : Session) :
    (s.setSession .dec x).decCustody = s.decCustody := rfl
@[simp] theorem State.setSession_dec_encRaced (s : State) (x : Session) :
    (s.setSession .dec x).encRaced = s.encRaced := rfl
@[simp] theorem State.setSession_dec_decRaced (s : State) (x : Session) :
    (s.setSession .dec x).decRaced = s.decRaced := rfl

@[simp] theorem State.malformed_dec_params (s : State) : (s.malformed .dec).params = s.params := rfl
@[simp] theorem State.malformed_dec_enc (s : State) : (s.malformed .dec).enc = s.enc := rfl
@[simp] theorem State.malformed_dec_dec (s : State) : (s.malformed .dec).dec = s.dec.invalid := rfl
@[simp] theorem State.malformed_dec_mem (s : State) : (s.malformed .dec).mem = s.mem := rfl
@[simp] theorem State.malformed_dec_pending (s : State) : (s.malformed .dec).pending = s.pending := rfl
@[simp] theorem State.malformed_dec_readData (s : State) : (s.malformed .dec).readData = s.readData := rfl
@[simp] theorem State.malformed_dec_freeCount (s : State) : (s.malformed .dec).freeCount = s.freeCount := rfl
@[simp] theorem State.malformed_dec_encCustody (s : State) : (s.malformed .dec).encCustody = s.encCustody := rfl
@[simp] theorem State.malformed_dec_decCustody (s : State) : (s.malformed .dec).decCustody = s.decCustody := rfl
@[simp] theorem State.malformed_dec_encRaced (s : State) : (s.malformed .dec).encRaced = s.encRaced := rfl
@[simp] theorem State.malformed_dec_decRaced (s : State) : (s.malformed .dec).decRaced = s.decRaced := rfl

@[simp] theorem State.setCustody_dec_params (s : State) (c : Custody) : (s.setCustody .dec c).params = s.params := rfl
@[simp] theorem State.setCustody_dec_enc (s : State) (c : Custody) : (s.setCustody .dec c).enc = s.enc := rfl
@[simp] theorem State.setCustody_dec_dec (s : State) (c : Custody) : (s.setCustody .dec c).dec = s.dec := rfl
@[simp] theorem State.setCustody_dec_mem (s : State) (c : Custody) : (s.setCustody .dec c).mem = s.mem := rfl
@[simp] theorem State.setCustody_dec_pending (s : State) (c : Custody) :
    (s.setCustody .dec c).pending = s.pending := rfl
@[simp] theorem State.setCustody_dec_readData (s : State) (c : Custody) :
    (s.setCustody .dec c).readData = s.readData := rfl
@[simp] theorem State.setCustody_dec_freeCount (s : State) (c : Custody) :
    (s.setCustody .dec c).freeCount = s.freeCount := rfl
@[simp] theorem State.setCustody_dec_encCustody (s : State) (c : Custody) :
    (s.setCustody .dec c).encCustody = s.encCustody := rfl
@[simp] theorem State.setCustody_dec_decCustody (s : State) (c : Custody) : (s.setCustody .dec c).decCustody = c := rfl
@[simp] theorem State.setCustody_dec_encRaced (s : State) (c : Custody) :
    (s.setCustody .dec c).encRaced = s.encRaced := rfl
@[simp] theorem State.setCustody_dec_decRaced (s : State) (c : Custody) :
    (s.setCustody .dec c).decRaced = s.decRaced := rfl

@[simp] theorem State.release_dec_params (s : State) : (s.release .dec).params = s.params := rfl
@[simp] theorem State.release_dec_enc (s : State) : (s.release .dec).enc = s.enc := rfl
@[simp] theorem State.release_dec_dec (s : State) : (s.release .dec).dec = s.dec := rfl
@[simp] theorem State.release_dec_pending (s : State) : (s.release .dec).pending = s.pending := rfl
@[simp] theorem State.release_dec_readData (s : State) : (s.release .dec).readData = s.readData := rfl
@[simp] theorem State.release_dec_encCustody (s : State) : (s.release .dec).encCustody = s.encCustody := rfl
@[simp] theorem State.release_dec_decCustody (s : State) : (s.release .dec).decCustody = .host := rfl
@[simp] theorem State.release_dec_encRaced (s : State) : (s.release .dec).encRaced = s.encRaced := rfl
@[simp] theorem State.release_dec_decRaced (s : State) : (s.release .dec).decRaced = [] := rfl
@[simp] theorem State.session_dec (s : State) : s.session .dec = s.dec.toSession := rfl
@[simp] theorem State.custody_dec (s : State) : s.custody .dec = s.decCustody := rfl
@[simp] theorem State.racedOf_dec (s : State) : s.racedOf .dec = s.decRaced := rfl

@[simp] theorem State.resetRegisters_params (s : State) : s.resetRegisters.params = s.params := rfl
@[simp] theorem State.resetRegisters_enc (s : State) : s.resetRegisters.enc = Enc.reset := rfl
@[simp] theorem State.resetRegisters_dec (s : State) : s.resetRegisters.dec = Dec.reset := rfl
@[simp] theorem State.resetRegisters_pending (s : State) : s.resetRegisters.pending = s.pending := rfl
@[simp] theorem State.resetRegisters_readData (s : State) : s.resetRegisters.readData = s.readData := rfl
@[simp] theorem State.resetRegisters_encCustody (s : State) : s.resetRegisters.encCustody = .host := rfl
@[simp] theorem State.resetRegisters_decCustody (s : State) : s.resetRegisters.decCustody = .host := rfl
@[simp] theorem State.resetRegisters_encRaced (s : State) : s.resetRegisters.encRaced = [] := rfl
@[simp] theorem State.resetRegisters_decRaced (s : State) : s.resetRegisters.decRaced = [] := rfl

@[simp] theorem State.race_params (s : State) (a : Nat) : (s.race a).params = s.params := rfl
@[simp] theorem State.race_enc (s : State) (a : Nat) : (s.race a).enc = s.enc := rfl
@[simp] theorem State.race_dec (s : State) (a : Nat) : (s.race a).dec = s.dec := rfl
@[simp] theorem State.race_mem (s : State) (a : Nat) : (s.race a).mem = s.mem.erase a := rfl
@[simp] theorem State.race_pending (s : State) (a : Nat) : (s.race a).pending = s.pending := rfl
@[simp] theorem State.race_readData (s : State) (a : Nat) : (s.race a).readData = s.readData := rfl
@[simp] theorem State.race_freeCount (s : State) (a : Nat) : (s.race a).freeCount = s.freeCount := rfl
@[simp] theorem State.race_encCustody (s : State) (a : Nat) : (s.race a).encCustody = s.encCustody := rfl
@[simp] theorem State.race_decCustody (s : State) (a : Nat) : (s.race a).decCustody = s.decCustody := rfl
@[simp] theorem State.race_encRaced (s : State) (a : Nat) :
    (s.race a).encRaced = if s.holds .enc a then insertAddr a s.encRaced else s.encRaced := rfl
@[simp] theorem State.race_decRaced (s : State) (a : Nat) :
    (s.race a).decRaced = if s.holds .dec a then insertAddr a s.decRaced else s.decRaced := rfl

@[simp] theorem State.store_params (s : State) (a : Nat) (v : Byte) : (s.store a v).params = s.params := rfl
@[simp] theorem State.store_enc (s : State) (a : Nat) (v : Byte) : (s.store a v).enc = s.enc := rfl
@[simp] theorem State.store_dec (s : State) (a : Nat) (v : Byte) : (s.store a v).dec = s.dec := rfl
@[simp] theorem State.store_mem (s : State) (a : Nat) (v : Byte) : (s.store a v).mem = s.mem.write a v := rfl
@[simp] theorem State.store_pending (s : State) (a : Nat) (v : Byte) : (s.store a v).pending = s.pending := rfl
@[simp] theorem State.store_readData (s : State) (a : Nat) (v : Byte) : (s.store a v).readData = s.readData := rfl
@[simp] theorem State.store_freeCount (s : State) (a : Nat) (v : Byte) : (s.store a v).freeCount = s.freeCount := rfl
@[simp] theorem State.store_encCustody (s : State) (a : Nat) (v : Byte) : (s.store a v).encCustody = s.encCustody := rfl
@[simp] theorem State.store_decCustody (s : State) (a : Nat) (v : Byte) : (s.store a v).decCustody = s.decCustody := rfl
@[simp] theorem State.store_encRaced (s : State) (a : Nat) (v : Byte) :
    (s.store a v).encRaced = s.encRaced.filter (· != a) := rfl
@[simp] theorem State.store_decRaced (s : State) (a : Nat) (v : Byte) :
    (s.store a v).decRaced = s.decRaced.filter (· != a) := rfl

/-- Nothing to write leaves memory as it is. -/
@[simp] theorem State.land_nil (s : State) : s.land [] = s.mem := rfl

@[simp] theorem Effect.after_regs {ε : Type} (c : Host.Cell) (x : Effect ε) : (x.after c).regs = x.regs := rfl
@[simp] theorem Effect.after_writes {ε : Type} (c : Host.Cell) (x : Effect ε) : (x.after c).writes = c :: x.writes := rfl

end Sys2Proof.Machine
end

