-- ==== Sys2Proof/Laws/Encoder.lean ====
section
/-! SUPPORT. What each operation of the encoder can do, said once. -/
namespace Sys2Proof.Machine

/-- The room check, on naturals. -/
theorem Session.full_iff (x : Session) : x.full = true ↔ x.winCap.toNat ≤ x.cursor.toNat := by
  simp [Session.full]

theorem Session.not_full_iff (x : Session) : x.full = false ↔ x.cursor.toNat < x.winCap.toNat := by
  simp [Session.full]

/-- A cursor with room below it moves on without wrapping. -/
theorem Session.toNat_succ_of_room {x : Session} (h : x.full = false) : (x.cursor + 1).toNat = x.cursor.toNat + 1 := by
  have := (Session.not_full_iff x).1 h
  rw [BitVec.toNat_add]; have := x.winCap.isLt; simp; omega

/-- An address of the window's space is an address of destination memory. -/
theorem Session.address_lt (x : Session) (off : Word) : x.address off < Config.addrSpace := (x.winBase + off).isLt

/-- In a window that does not pass the top of memory, an offset inside it does not wrap. -/
theorem Session.address_eq {x : Session} (h : x.winBase.toNat + x.winCap.toNat ≤ Config.addrSpace) {off : Word}
    (ho : off.toNat < x.winCap.toNat) : x.address off = x.winBase.toNat + off.toNat := by
  simp only [Session.address, BitVec.toNat_add]
  exact Nat.mod_eq_of_lt (by simp only [Config.addrSpace] at h; omega)

/-- ENC.START with a refused window. -/
theorem Enc.start_refused {e : Enc} (h : e.windowRefused = true) : e.start = { regs := e.invalid, writes := [] } := by
  simp [Enc.start, h]

/-- ENC.START with a window it accepts. -/
theorem Enc.start_accepted {e : Enc} (h : e.windowRefused = false) :
    e.start = { regs := { toSession := e.toSession.openAt 1, slot := 0, blen := 1 }, writes := [] } := by
  simp [Enc.start, h]

/-- ENC.START writes nothing (R110). -/
theorem Enc.start_writes (e : Enc) : e.start.writes = [] := by
  unfold Enc.start; split <;> rfl

theorem Enc.whenOpen_idle {e : Enc} (h : e.phase = .idle) (f : Enc → Effect Enc) :
    e.whenOpen f = { regs := e.invalid, writes := [] } := by
  simp [Enc.whenOpen, h]

theorem Enc.whenOpen_failed {e : Enc} (h : e.phase = .failed) (f : Enc → Effect Enc) :
    e.whenOpen f = { regs := e.repeatError, writes := [] } := by
  simp [Enc.whenOpen, h]

theorem Enc.whenOpen_opened {e : Enc} (h : e.phase = .opened) (f : Enc → Effect Enc) : e.whenOpen f = f e := by
  simp [Enc.whenOpen, h]

/-- A FEED or END: refused, repeated, or the command's own effect. -/
theorem Enc.whenOpen_cases (e : Enc) (f : Enc → Effect Enc) :
    (e.phase = .idle ∧ e.whenOpen f = { regs := e.invalid, writes := [] }) ∨
    (e.phase = .failed ∧ e.whenOpen f = { regs := e.repeatError, writes := [] }) ∨
    (e.phase = .opened ∧ e.whenOpen f = f e) := by
  cases h : e.phase <;> simp [Enc.whenOpen, h]

@[simp] theorem Enc.openBlock_toSession (e : Enc) : e.openBlock.toSession = e.toSession.advance := rfl
@[simp] theorem Enc.openBlock_slot (e : Enc) : e.openBlock.slot = e.cursor := rfl
@[simp] theorem Enc.openBlock_blen (e : Enc) : e.openBlock.blen = 1 := rfl

/-- One byte against a block that is not full: overflow, a literal, or a closed block (R116, R117, R119). -/
theorem Enc.consume_cases (e : Enc) (b : Byte) :
    (e.full = true ∧ (e.consume b).regs = e.fail .bufferOverflow ∧
      (e.consume b).writes = if b = 0#8 then [e.put e.slot e.blen] else []) ∨
    (e.full = false ∧ b ≠ 0#8 ∧
      e.consume b =
        { regs := Enc.succeed { e with toSession := e.toSession.advance, blen := e.blen + 1 },
          writes := [e.put e.cursor b] }) ∨
    (e.full = false ∧ b = 0#8 ∧
      e.consume b = { regs := e.openBlock.succeed, writes := [e.put e.slot e.blen] }) := by
  by_cases hb : b = 0#8 <;> cases hf : e.full <;> simp [Enc.consume, Enc.literal, Enc.delimiter, hb, hf]

/-- ENC.FEED on an open session: the full block closes first, or the byte goes straight to the block (R114, R115). -/
theorem Enc.feedOpen_cases (e : Enc) (b : Byte) :
    (e.blen = 0xFF#8 ∧ e.full = true ∧
      e.feedOpen b = { regs := e.fail .bufferOverflow, writes := [e.put e.slot 0xFF#8] }) ∨
    (e.blen = 0xFF#8 ∧ e.full = false ∧ e.feedOpen b = (e.openBlock.consume b).after (e.put e.slot 0xFF#8)) ∨
    (e.blen ≠ 0xFF#8 ∧ e.feedOpen b = e.consume b) := by
  by_cases hb : e.blen = 0xFF#8 <;> cases hf : e.full <;> simp [Enc.feedOpen, hb, hf]

/-- ENC.END on an open session: overflow at the terminator, or a finished frame (R120). -/
theorem Enc.finishOpen_cases (e : Enc) :
    (e.full = true ∧
      e.finishOpen = { regs := e.fail .bufferOverflow, writes := [e.put e.slot e.blen] }) ∨
    (e.full = false ∧
      e.finishOpen =
        { regs := Enc.succeed { e with toSession := { e.toSession.advance with result := e.cursor + 1 } },
          writes := [e.put e.slot e.blen, e.put e.cursor 0#8] }) := by
  cases hf : e.full <;> simp [Enc.finishOpen, hf]

theorem Enc.consume_sameWindow (e : Enc) (b : Byte) :
    (e.consume b).regs.SameWindow e.toSession ∧ (e.consume b).regs.result = e.result := by
  rcases e.consume_cases b with ⟨_, h, _⟩ | ⟨_, _, h⟩ | ⟨_, _, h⟩ <;>
    exact ⟨by simp [h, Session.SameWindow], by simp [h]⟩

theorem Enc.feed_sameWindow (e : Enc) (b : Byte) :
    (e.feed b).regs.SameWindow e.toSession ∧ (e.feed b).regs.result = e.result := by
  rcases e.whenOpen_cases (Enc.feedOpen b) with ⟨_, h⟩ | ⟨_, h⟩ | ⟨_, h⟩
  · exact ⟨by simp [Enc.feed, h, Session.SameWindow], by simp [Enc.feed, h]⟩
  · exact ⟨by simp [Enc.feed, h, Session.SameWindow], by simp [Enc.feed, h]⟩
  · rcases e.feedOpen_cases b with ⟨_, _, h'⟩ | ⟨_, _, h'⟩ | ⟨_, h'⟩
    · exact ⟨by simp [Enc.feed, h, h', Session.SameWindow], by simp [Enc.feed, h, h']⟩
    · simp only [Enc.feed, h, h', Effect.after_regs]
      simpa [Session.SameWindow] using e.openBlock.consume_sameWindow b
    · simp only [Enc.feed, h, h']; exact e.consume_sameWindow b

theorem Enc.finish_sameWindow (e : Enc) : e.finish.regs.SameWindow e.toSession := by
  rcases e.whenOpen_cases Enc.finishOpen with ⟨_, h⟩ | ⟨_, h⟩ | ⟨_, h⟩
  · simp [Enc.finish, h, Session.SameWindow]
  · simp [Enc.finish, h, Session.SameWindow]
  · rcases e.finishOpen_cases with ⟨_, h'⟩ | ⟨_, h'⟩ <;> simp [Enc.finish, h, h', Session.SameWindow]

/-- Every write of an ENC.FEED goes to the slot or to an offset with room (R114, 20_memory.md R61). -/
theorem Enc.feed_writes {e : Enc} {b : Byte} {c : Host.Cell} (hc : c ∈ (e.feed b).writes) :
    ∃ off, c.1 = e.address off ∧ (off = e.slot ∨ off.toNat < e.winCap.toNat) := by
  rcases e.whenOpen_cases (Enc.feedOpen b) with ⟨_, h⟩ | ⟨_, h⟩ | ⟨_, h⟩ <;> simp only [Enc.feed, h] at hc
  · simp at hc
  · simp at hc
  have direct : ∀ e' : Enc, e'.winBase = e.winBase → e'.winCap = e.winCap → c ∈ (e'.consume b).writes →
      ∃ off, c.1 = e.address off ∧ (off = e'.slot ∨ off.toNat < e.winCap.toNat) := by
    intro e' hb hcap hc
    rcases e'.consume_cases b with ⟨_, _, h⟩ | ⟨hf, _, h⟩ | ⟨_, _, h⟩ <;> simp only [h] at hc
    · split at hc <;> simp at hc
      exact ⟨e'.slot, by simp [hc, Session.put, Session.address, hb], .inl rfl⟩
    · simp at hc
      exact ⟨e'.cursor, by simp [hc, Session.put, Session.address, hb],
        .inr (by rw [← hcap]; exact (Session.not_full_iff _).1 hf)⟩
    · simp at hc
      exact ⟨e'.slot, by simp [hc, Session.put, Session.address, hb], .inl rfl⟩
  rcases e.feedOpen_cases b with ⟨_, _, h'⟩ | ⟨_, hf, h'⟩ | ⟨_, h'⟩ <;> simp only [h'] at hc
  · simp at hc; exact ⟨e.slot, by simp [hc, Session.put], .inl rfl⟩
  · simp at hc
    rcases hc with hc | hc
    · exact ⟨e.slot, by simp [hc, Session.put], .inl rfl⟩
    · obtain ⟨off, h1, h2⟩ := direct e.openBlock rfl rfl hc
      refine ⟨off, h1, .inr ?_⟩
      rcases h2 with rfl | h2
      · exact (Session.not_full_iff _).1 hf
      · exact h2
  · exact direct e rfl rfl hc

/-- Every write of an ENC.END goes to the slot or to the cursor, which has room (R120). -/
theorem Enc.finish_writes {e : Enc} {c : Host.Cell} (hc : c ∈ e.finish.writes) :
    ∃ off, c.1 = e.address off ∧ (off = e.slot ∨ off.toNat < e.winCap.toNat) := by
  rcases e.whenOpen_cases Enc.finishOpen with ⟨_, h⟩ | ⟨_, h⟩ | ⟨_, h⟩ <;> simp only [Enc.finish, h] at hc
  · simp at hc
  · simp at hc
  rcases e.finishOpen_cases with ⟨_, h'⟩ | ⟨hf, h'⟩ <;> simp only [h'] at hc
  · simp at hc; exact ⟨e.slot, by simp [hc, Session.put], .inl rfl⟩
  · simp at hc
    rcases hc with hc | hc
    · exact ⟨e.slot, by simp [hc, Session.put], .inl rfl⟩
    · exact ⟨e.cursor, by simp [hc, Session.put], .inr ((Session.not_full_iff _).1 hf)⟩

end Sys2Proof.Machine
end

