-- ==== Sys2Proof/Laws/Decoder.lean ====
section
/-! SUPPORT. What each operation of the decoder can do, said once. -/
namespace Sys2Proof.Machine

/-- DEC.START with a refused window. -/
theorem Dec.start_refused {d : Dec} (h : d.windowRefused = true) : d.start = { regs := d.invalid, writes := [] } := by
  simp [Dec.start, h]

/-- DEC.START with a window it accepts. -/
theorem Dec.start_accepted {d : Dec} (h : d.windowRefused = false) :
    d.start =
      { regs := { toSession := d.toSession.openAt 0, pcode := 0xFF#8, rem := 0, term := false, discard := false },
        writes := [] } := by
  simp [Dec.start, h]

/-- DEC.START writes nothing (R140). -/
theorem Dec.start_writes (d : Dec) : d.start.writes = [] := by
  unfold Dec.start; split <;> rfl

theorem Dec.whenOpen_idle {d : Dec} (h : d.phase = .idle) (f : Dec → Effect Dec) :
    d.whenOpen f = { regs := d.invalid, writes := [] } := by
  simp [Dec.whenOpen, h]

theorem Dec.whenOpen_failed {d : Dec} (h : d.phase = .failed) (f : Dec → Effect Dec) :
    d.whenOpen f = { regs := d.repeatError, writes := [] } := by
  simp [Dec.whenOpen, h]

theorem Dec.whenOpen_opened {d : Dec} (h : d.phase = .opened) (f : Dec → Effect Dec) : d.whenOpen f = f d := by
  simp [Dec.whenOpen, h]

/-- A FEED or END: refused, repeated, or the command's own effect. -/
theorem Dec.whenOpen_cases (d : Dec) (f : Dec → Effect Dec) :
    (d.phase = .idle ∧ d.whenOpen f = { regs := d.invalid, writes := [] }) ∨
    (d.phase = .failed ∧ d.whenOpen f = { regs := d.repeatError, writes := [] }) ∨
    (d.phase = .opened ∧ d.whenOpen f = f d) := by
  cases h : d.phase <;> simp [Dec.whenOpen, h]

/-- A literal: a `0x00` is an error before the bound is looked at (R148, 60_exceptions.md R191). -/
theorem Dec.literal_cases (b : Byte) (d : Dec) :
    (b = 0#8 ∧ d.literal b = { regs := d.fail .decodeError, writes := [] }) ∨
    (b ≠ 0#8 ∧ d.full = true ∧ d.literal b = { regs := d.fail .bufferOverflow, writes := [] }) ∨
    (b ≠ 0#8 ∧ d.full = false ∧
      d.literal b =
        { regs := Dec.succeed { d with toSession := d.toSession.advance, rem := d.rem - 1 },
          writes := [d.put d.cursor b] }) := by
  by_cases hb : b = 0#8 <;> cases hf : d.full <;> simp [Dec.literal, hb, hf]

/-- Reading a byte in code position leaves every session register but `LASTRES` (R152). -/
@[simp] theorem Dec.readCode_toSession (b : Byte) (last : Bool) (d : Dec) :
    (d.readCode b last).toSession = d.toSession.succeed := by
  unfold Dec.readCode; split <;> rfl

/-- A terminator in code position (R152). -/
theorem Dec.readCode_terminator (last : Bool) (d : Dec) :
    d.readCode 0#8 last = Dec.succeed { d with term := true, discard := d.discard || !last } := rfl

/-- A code byte (R152). -/
theorem Dec.readCode_code {b : Byte} (h : b ≠ 0#8) (last : Bool) (d : Dec) :
    d.readCode b last = Dec.succeed { d with pcode := b, rem := b - 1 } := by
  simp [Dec.readCode, h]

/-- The default rule of zero synthesis (R150). -/
theorem synthesizes_default (pcode b : Byte) (last : Bool) :
    synthesizes false pcode b last = (pcode != 0xFF#8 && b != 0#8) := rfl

/-- The compatibility rule of zero synthesis (R150). -/
theorem synthesizes_legacy (pcode b : Byte) (last : Bool) :
    synthesizes true pcode b last = (pcode != 0xFF#8 && !last) := rfl

/-- A byte in code position: read at once, or after an implicit zero that may overflow (R150, R152). -/
theorem Dec.codeByte_cases (legacy : Bool) (b : Byte) (last : Bool) (d : Dec) :
    (synthesizes legacy d.pcode b last = false ∧
      d.codeByte legacy b last = { regs := d.readCode b last, writes := [] }) ∨
    (synthesizes legacy d.pcode b last = true ∧ d.full = true ∧
      d.codeByte legacy b last = { regs := d.fail .bufferOverflow, writes := [] }) ∨
    (synthesizes legacy d.pcode b last = true ∧ d.full = false ∧
      d.codeByte legacy b last =
        { regs := Dec.readCode b last { d with toSession := d.toSession.advance },
          writes := [d.put d.cursor 0#8] }) := by
  cases hs : synthesizes legacy d.pcode b last <;> cases hf : d.full <;> simp [Dec.codeByte, hs, hf]

/-- DEC.FEED on an open session: dropped, a literal, or a byte in code position (R144). -/
theorem Dec.feedOpen_cases (legacy : Bool) (b : Byte) (last : Bool) (d : Dec) :
    (d.discard = true ∧ d.feedOpen legacy b last = { regs := d.drop last, writes := [] }) ∨
    (d.discard = false ∧ d.rem ≠ 0#8 ∧ d.feedOpen legacy b last = d.literal b) ∨
    (d.discard = false ∧ d.rem = 0#8 ∧ d.feedOpen legacy b last = d.codeByte legacy b last) := by
  cases hd : d.discard <;> by_cases hr : d.rem = 0#8 <;> simp [Dec.feedOpen, hd, hr]

/-- DEC.END on an open session (R160). -/
theorem Dec.finishOpen_cases (d : Dec) :
    (d.rem ≠ 0#8 ∧ d.finishOpen = { regs := Dec.fail { d with discard := false } .decodeError, writes := [] }) ∨
    (d.rem = 0#8 ∧
      d.finishOpen =
        { regs := Dec.succeed { d with discard := false, toSession := { d.toSession with result := d.cursor } },
          writes := [] }) := by
  by_cases hr : d.rem = 0#8 <;> simp [Dec.finishOpen, hr]

@[simp] theorem Dec.drop_toSession (last : Bool) (d : Dec) : (d.drop last).toSession = d.toSession.succeed := rfl

theorem Dec.feed_sameWindow (legacy : Bool) (b : Byte) (last : Bool) (d : Dec) :
    (d.feed legacy b last).regs.SameWindow d.toSession ∧ (d.feed legacy b last).regs.result = d.result := by
  rcases d.whenOpen_cases (Dec.feedOpen legacy b last) with ⟨_, h⟩ | ⟨_, h⟩ | ⟨_, h⟩
  · exact ⟨by simp [Dec.feed, h, Session.SameWindow], by simp [Dec.feed, h]⟩
  · exact ⟨by simp [Dec.feed, h, Session.SameWindow], by simp [Dec.feed, h]⟩
  · rcases d.feedOpen_cases legacy b last with ⟨_, h'⟩ | ⟨_, _, h'⟩ | ⟨_, _, h'⟩
    · exact ⟨by simp [Dec.feed, h, h', Session.SameWindow], by simp [Dec.feed, h, h']⟩
    · rcases d.literal_cases b with ⟨_, h''⟩ | ⟨_, _, h''⟩ | ⟨_, _, h''⟩ <;>
        exact ⟨by simp [Dec.feed, h, h', h'', Session.SameWindow], by simp [Dec.feed, h, h', h'']⟩
    · rcases d.codeByte_cases legacy b last with ⟨_, h''⟩ | ⟨_, _, h''⟩ | ⟨_, _, h''⟩ <;>
        exact ⟨by simp [Dec.feed, h, h', h'', Session.SameWindow], by simp [Dec.feed, h, h', h'']⟩

theorem Dec.finish_sameWindow (d : Dec) : d.finish.regs.SameWindow d.toSession := by
  rcases d.whenOpen_cases Dec.finishOpen with ⟨_, h⟩ | ⟨_, h⟩ | ⟨_, h⟩
  · simp [Dec.finish, h, Session.SameWindow]
  · simp [Dec.finish, h, Session.SameWindow]
  · rcases d.finishOpen_cases with ⟨_, h'⟩ | ⟨_, h'⟩ <;> simp [Dec.finish, h, h', Session.SameWindow]

/-- Every write of a DEC.FEED goes to the cursor, which has room (R148, R150). -/
theorem Dec.feed_writes {legacy : Bool} {b : Byte} {last : Bool} {d : Dec} {c : Host.Cell}
    (hc : c ∈ (d.feed legacy b last).writes) : c.1 = d.address d.cursor ∧ d.cursor.toNat < d.winCap.toNat := by
  rcases d.whenOpen_cases (Dec.feedOpen legacy b last) with ⟨_, h⟩ | ⟨_, h⟩ | ⟨_, h⟩ <;> simp only [Dec.feed, h] at hc
  · simp at hc
  · simp at hc
  rcases d.feedOpen_cases legacy b last with ⟨_, h'⟩ | ⟨_, _, h'⟩ | ⟨_, _, h'⟩ <;> simp only [h'] at hc
  · simp at hc
  · rcases d.literal_cases b with ⟨_, h''⟩ | ⟨_, _, h''⟩ | ⟨_, hf, h''⟩ <;> simp [h''] at hc
    exact ⟨by simp [hc, Session.put], (Session.not_full_iff _).1 hf⟩
  · rcases d.codeByte_cases legacy b last with ⟨_, h''⟩ | ⟨_, _, h''⟩ | ⟨_, hf, h''⟩ <;> simp [h''] at hc
    exact ⟨by simp [hc, Session.put], (Session.not_full_iff _).1 hf⟩

/-- DEC.END writes nothing (R160). -/
theorem Dec.finish_writes (d : Dec) : d.finish.writes = [] := by
  rcases d.whenOpen_cases Dec.finishOpen with ⟨_, h⟩ | ⟨_, h⟩ | ⟨_, h⟩ <;> simp only [Dec.finish, h]
  rcases d.finishOpen_cases with ⟨_, h'⟩ | ⟨_, h'⟩ <;> simp [h']

end Sys2Proof.Machine
end

