-- ==== Sys2Proof/Laws/Frame.lean ====
section
/-! SUPPORT. Blocks and frames (30_encoding.md R91 to R95). -/
namespace Sys2Proof.Machine

/-- Every payload has at least one block. -/
theorem blocksFrom_ne (run rest : List Byte) : blocksFrom run rest ≠ [] := by
  induction rest generalizing run with
  | nil => simp [blocksFrom]
  | cons b rest ih =>
    simp only [blocksFrom]; split
    · split <;> simp
    · split
      · simp
      · exact ih _

/-- The code of a block that holds at most 254 literals is one more than their number (R92). -/
theorem Block.holding_code {run : List Byte} (h : run.length ≤ 254) : (Block.holding run).code.toNat = run.length + 1 := by
  simp [Block.holding]; omega

/-- Literals that are not 0, at most 254 of them, make a block of the grammar. -/
theorem Block.holding_wf {run : List Byte} (h : run.length ≤ 254) (hz : ∀ b ∈ run, b ≠ 0#8) :
    (Block.holding run).wf = true := by
  have hc := Block.holding_code h
  simp only [Block.wf, Bool.and_eq_true, bne_iff_ne, beq_iff_eq, List.all_eq_true]
  refine ⟨⟨fun h0 => ?_, hc.symm⟩, hz⟩
  rw [h0] at hc; simp at hc

/-- A block is capped exactly when it holds 254 literals (R92). -/
theorem Block.holding_capped {run : List Byte} (h : run.length ≤ 254) :
    (Block.holding run).code = 0xFF#8 ↔ run.length = 254 := by
  have hc := Block.holding_code h
  constructor
  · intro h0; rw [h0] at hc; simp at hc; omega
  · intro h0; apply BitVec.eq_of_toNat_eq; rw [hc, h0]; rfl

/-- The payload of a block and the blocks after it (R93). -/
theorem payloadOf_cons {x : Block} {l : List Block} (h : l ≠ []) :
    payloadOf (x :: l) = x.literals ++ (if x.code = 0xFF#8 then [] else [0#8]) ++ payloadOf l := by
  cases l with
  | nil => exact absurd rfl h
  | cons y l => rfl

/-- The capped blocks of a block and the blocks after it. -/
theorem cappedBefore_cons {x : Block} {l : List Block} (h : l ≠ []) :
    cappedBefore (x :: l) = (if x.code = 0xFF#8 then 1 else 0) + cappedBefore l := by
  cases l with
  | nil => exact absurd rfl h
  | cons y l => rfl

end Sys2Proof.Machine
end

