-- ==== Sys2Proof/Laws/Race.lean ====
section
/-! SUPPORT. Raced bytes (20_memory.md R74): what an engine's writes, another writer's writes and the end of the host's
contract do to them, said once. -/
namespace Sys2Proof.Machine

theorem mem_insertAddr {a b : Nat} {l : List Nat} : b ∈ insertAddr a l ↔ b = a ∨ b ∈ l := by
  induction l with
  | nil => simp [insertAddr]
  | cons k l ih =>
    simp only [insertAddr]
    split
    · simp
    · split
      · subst_vars; simp
      · simp only [List.mem_cons, ih]; tauto

/-- Putting an address in place keeps the addresses strictly rising. -/
theorem pairwise_insertAddr (a : Nat) {l : List Nat} (h : l.Pairwise (· < ·)) : (insertAddr a l).Pairwise (· < ·) := by
  induction l with
  | nil => simp [insertAddr]
  | cons k l ih =>
    obtain ⟨h1, h2⟩ := List.pairwise_cons.1 h
    simp only [insertAddr]
    split
    · refine List.pairwise_cons.2 ⟨fun b hb => ?_, h⟩
      rcases List.mem_cons.1 hb with rfl | hb
      · assumption
      · have := h1 b hb; omega
    · split
      · exact h
      · refine List.pairwise_cons.2 ⟨fun b hb => ?_, ih h2⟩
        rcases mem_insertAddr.1 hb with rfl | hb
        · omega
        · exact h1 b hb

theorem State.raced_iff {s : State} {a : Nat} : s.raced a = true ↔ a ∈ s.encRaced ∨ a ∈ s.decRaced := by
  simp [State.raced]

theorem State.raced_false_iff {s : State} {a : Nat} : s.raced a = false ↔ a ∉ s.encRaced ∧ a ∉ s.decRaced := by
  simp [State.raced]

/-- An engine's writes leave a raced byte as it is and reach every other byte. -/
theorem State.read_land (s : State) (w : List Host.Cell) (a : Nat) :
    (s.land w).read a = if s.raced a then s.mem.read a else (s.mem.writeAll w).read a := by
  unfold State.land
  generalize s.mem = m
  induction w generalizing m with
  | nil => simp
  | cons c w ih =>
    cases hc : s.raced c.1
    · rw [List.filter_cons_of_pos (by simp [hc]), Memory.writeAll_cons, ih, Memory.writeAll_cons]
      split
      · rename_i ha; exact Memory.read_write_other (fun h => by simp [h, ha] at hc)
      · rfl
    · rw [List.filter_cons_of_neg (by simp [hc]), ih]
      split
      · rfl
      · rename_i ha
        exact Memory.read_writeAll_congr w (Memory.read_write_other (fun h => ha (by rw [← h, hc]))).symm

/-- A byte that no listed write names reads as before. -/
theorem State.read_land_other {s : State} {w : List Host.Cell} {a : Nat} (h : ∀ c ∈ w, c.1 ≠ a) :
    (s.land w).read a = s.mem.read a := by
  rw [State.read_land, Memory.read_writeAll_other h, ite_self]

/-- An engine's writes inside destination memory keep the canonical form. -/
theorem State.wf_land {s : State} {w : List Host.Cell} (hm : s.mem.wf = true) (hw : ∀ c ∈ w, c.1 < Config.addrSpace) :
    (s.land w).wf = true :=
  Memory.wf_writeAll hm (fun c hc => hw c (List.mem_of_mem_filter hc))

/-- What an engine's writes leave depends on the writes, on memory and on which bytes are raced for alone. -/
theorem State.land_congr {s t : State} (w : List Host.Cell) (hm : s.mem = t.mem) (hr : ∀ a, s.raced a = t.raced a) :
    s.land w = t.land w := by
  simp only [State.land, hm, hr]

/-- A foreign write starts a race for its byte in each window an engine holds, and for no other byte. -/
theorem State.raced_race {s : State} {a k : Nat} :
    (s.race a).raced k = true ↔ s.raced k = true ∨ k = a ∧ (s.holds .enc a = true ∨ s.holds .dec a = true) := by
  simp only [State.raced_iff, State.race_encRaced, State.race_decRaced]
  split <;> split <;> simp_all [mem_insertAddr] <;> tauto

/-- A write to a byte no engine holds ends the race for it, and for no other byte. -/
theorem State.raced_store {s : State} {a k : Nat} {v : Byte} :
    (s.store a v).raced k = true ↔ s.raced k = true ∧ k ≠ a := by
  simp only [State.raced_iff, State.store_encRaced, State.store_decRaced, List.mem_filter, bne_iff_ne]; tauto

/-- Only bytes raced for are settled. -/
theorem State.settled_sub {s : State} {u : Engine} {a : Nat} (h : a ∈ s.settled u) : a ∈ s.racedOf u := by
  cases u <;> exact List.mem_of_mem_filter h

@[simp] theorem State.release_mem (s : State) (u : Engine) :
    (s.release u).mem = (State.freeBytes (s.settled u) s).mem := by cases u <;> rfl

@[simp] theorem State.release_freeCount (s : State) (u : Engine) :
    (s.release u).freeCount = (State.freeBytes (s.settled u) s).freeCount := by cases u <;> rfl

@[simp] theorem State.release_racedOf (s : State) (u : Engine) : (s.release u).racedOf u = [] := by cases u <;> rfl

@[simp] theorem State.release_custody (s : State) (u : Engine) : (s.release u).custody u = .host := by cases u <;> rfl

/-- A byte the window's race is not about reads as before. -/
theorem State.read_release_other {s : State} {u : Engine} {a : Nat} (h : a ∉ s.racedOf u) :
    (s.release u).mem.read a = s.mem.read a := by
  rw [State.release_mem, State.freeBytes_read_other (fun hs => h (State.settled_sub hs))]

/-- The end of a race keeps the canonical form. -/
theorem State.wf_release {s : State} (u : Engine) (hm : s.mem.wf = true)
    (hw : ∀ a ∈ s.racedOf u, a < Config.addrSpace) : (s.release u).mem.wf = true := by
  rw [State.release_mem]; exact State.freeBytes_wf hm (fun a ha => hw a (State.settled_sub ha))

theorem State.freeCount_le_release (s : State) (u : Engine) : s.freeCount ≤ (s.release u).freeCount := by
  rw [State.release_freeCount]; exact State.freeBytes_mono _ _

/-- A reset keeps the canonical form. -/
theorem State.wf_resetRegisters {s : State} (hm : s.mem.wf = true) (he : ∀ a ∈ s.encRaced, a < Config.addrSpace)
    (hd : ∀ a ∈ s.decRaced, a < Config.addrSpace) : s.resetRegisters.mem.wf = true :=
  State.wf_release .dec (State.wf_release .enc hm he) hd

theorem State.freeCount_le_resetRegisters (s : State) : s.freeCount ≤ s.resetRegisters.freeCount :=
  Nat.le_trans (State.freeCount_le_release { s with enc := Enc.reset, dec := Dec.reset } .enc)
    (State.freeCount_le_release _ .dec)

/-- A reset leaves every byte that nobody races for. -/
theorem State.read_resetRegisters_other {s : State} {a : Nat} (h : s.raced a = false) :
    s.resetRegisters.mem.read a = s.mem.read a := by
  obtain ⟨h1, h2⟩ := State.raced_false_iff.1 h
  rw [State.resetRegisters, State.read_release_other (by exact h2), State.read_release_other (by exact h1)]

/-- A reset settles a raced byte as any value. -/
theorem State.read_resetRegisters_raced {s : State} {a : Nat} (h : s.raced a = true) :
    ∃ n, s.freeCount ≤ n ∧ n < s.resetRegisters.freeCount ∧
      s.resetRegisters.mem.read a = some (Config.freeByte n) := by
  generalize hr : ({ s with enc := Enc.reset, dec := Dec.reset } : State) = r
  have hd : r.decRaced = s.decRaced := by rw [← hr]
  have he : r.encRaced = s.encRaced := by rw [← hr]
  have hc : r.freeCount = s.freeCount := by rw [← hr]
  have hk : s.resetRegisters = (r.release .enc).release .dec := by rw [← hr]; rfl
  rw [hk, ← hc]
  by_cases ha : a ∈ s.decRaced
  · rw [State.release_mem, State.release_freeCount]
    obtain ⟨n, h1, h2, h3⟩ := State.freeBytes_read_mem (w := (r.release .enc).settled .dec) (a := a)
      (by simp [State.settled, hd, ha]) (r.release .enc)
    exact ⟨n, Nat.le_trans (State.freeCount_le_release r .enc) h1, h2, h3⟩
  · have hs : a ∈ r.settled .enc := by
      have := (State.raced_iff.1 h).resolve_right ha
      simp [State.settled, hd, he, ha, this]
    obtain ⟨n, h1, h2, h3⟩ := State.freeBytes_read_mem hs r
    rw [← State.release_freeCount] at h2
    refine ⟨n, h1, Nat.lt_of_lt_of_le h2 (State.freeCount_le_release _ .dec), ?_⟩
    rw [State.read_release_other (by simpa [hd] using ha), State.release_mem, h3]

end Sys2Proof.Machine
end

