-- ==== Sys2Proof/Laws/Machine.lean ====
section
/-! SUPPORT. What one command, one host access and one step can do, said once. -/
namespace Sys2Proof.Machine

/-- The encoder's half of a command, on its registers alone. -/
def Instr.encEffect (i : Instr) (e : Enc) : Effect Enc :=
  match i with
  | .encStart => e.start
  | .encFeed b _ => e.feed b
  | .encEnd => e.finish
  | .decStart => { regs := e, writes := [] }
  | .decFeed _ _ => { regs := e, writes := [] }
  | .decEnd => { regs := e, writes := [] }

/-- The decoder's half of a command, on its registers and `LEGACY_CHUNK_ZERO` alone. -/
def Instr.decEffect (i : Instr) (legacy : Bool) (d : Dec) : Effect Dec :=
  match i with
  | .decStart => d.start
  | .decFeed b last => d.feed legacy b last
  | .decEnd => d.finish
  | .encStart => { regs := d, writes := [] }
  | .encFeed _ _ => { regs := d, writes := [] }
  | .encEnd => { regs := d, writes := [] }

/-- Who may use the encoder's window after a command. -/
def Instr.encCustody (i : Instr) (e : Enc) (c : Custody) : Custody :=
  match i with
  | .encStart => c.started e.windowRefused
  | .encFeed _ _ => c.fed e.phase
  | .encEnd => c.ended e.phase
  | .decStart => c
  | .decFeed _ _ => c
  | .decEnd => c

/-- Who may use the decoder's window after a command. -/
def Instr.decCustody (i : Instr) (d : Dec) (c : Custody) : Custody :=
  match i with
  | .decStart => c.started d.windowRefused
  | .decFeed _ _ => c.fed d.phase
  | .decEnd => c.ended d.phase
  | .encStart => c
  | .encFeed _ _ => c
  | .encEnd => c

/-- Every command goes to a next state: its engine's registers, its writes in order (R65, R66, R180), and who may use
the window. -/
theorem exec_eq (i : Instr) (s : State) :
    exec i s =
      .next { s with
        enc := (Instr.encEffect i s.enc).regs
        dec := (Instr.decEffect i s.params.legacyChunkZero s.dec).regs
        mem := s.land ((Instr.encEffect i s.enc).writes ++ (Instr.decEffect i s.params.legacyChunkZero s.dec).writes)
        encCustody := Instr.encCustody i s.enc s.encCustody
        decCustody := Instr.decCustody i s.dec s.decCustody } := by
  cases i <;> simp [exec, execEncStart, execEncFeed, execEncEnd, execDecStart, execDecFeed, execDecEnd,
    State.commitEnc, State.commitDec, Instr.encEffect, Instr.decEffect, Instr.encCustody, Instr.decCustody]

/-- A register of the map is found at its own offset (R39). -/
theorem Reg.ofOffset_offset (r : Reg) : Reg.ofOffset r.offset = some r := by
  cases r <;> decide

/-- The bus address of a register has that register's offset, wherever `CODEC_BASE` is. -/
theorem busOffset_address (p : Config.Params) (r : Reg) : busOffset p (r.address p) = r.offset := by
  have h : r.address p - p.codecBase = BitVec.ofNat 32 r.offset := by
    simp only [Reg.address]; rw [BitVec.add_comm]; exact BitVec.add_sub_cancel _ _
  simp only [busOffset, h]
  cases r <;> rfl

/-- A 32-bit access at a register's address selects that register. -/
theorem selectedReg_address (p : Config.Params) (r : Reg) : selectedReg p (r.address p) 4 = some r := by
  have : wellShaped p (r.address p) 4 = true := by
    simp only [wellShaped, busOffset_address]; cases r <;> decide
  simp only [selectedReg, this, if_true, busOffset_address, Reg.ofOffset_offset]

/-- A host write to `CMD` issues its value as a command word (R40). -/
theorem command?_wr_cmd (p : Config.Params) (w : Word) : (Access.wr p .cmd w).command? p = some w := by
  simp [Access.wr, Access.command?, selectedReg_address]

/-- A step that serves a command word. -/
theorem step_command {s : State} {a : Access} {rest : List Access} {w : Word} (hp : s.pending = a :: rest)
    (hw : a.command? s.params = some w) : step s = issue w { s with pending := rest } := by
  simp [step, hp, hw]

/-- A step that serves any other access. -/
theorem step_serve {s : State} {a : Access} {rest : List Access} (hp : s.pending = a :: rest)
    (hw : a.command? s.params = none) : step s = serve a { s with pending := rest } := by
  simp [step, hp, hw]

/-- A step with no access pending. -/
theorem step_idle {s : State} (hp : s.pending = []) : step s = .next s := by
  simp [step, hp]

/-- What a step can do: wait, run a command, reject a malformed word, or serve another access. -/
theorem step_cases (s : State) :
    (s.pending = [] ∧ step s = .next s) ∨
    (∃ a rest, s.pending = a :: rest ∧
      ((∃ w i, a.command? s.params = some w ∧ decode w = .ok i ∧ step s = exec i { s with pending := rest }) ∨
       (∃ w why, a.command? s.params = some w ∧ decode w = .error why ∧
          step s = .next ({ s with pending := rest }.malformed (unitField w))) ∨
       (a.command? s.params = none ∧ step s = serve a { s with pending := rest }))) := by
  cases hp : s.pending with
  | nil => exact .inl ⟨rfl, step_idle hp⟩
  | cons a rest =>
    refine .inr ⟨a, rest, rfl, ?_⟩
    cases hw : a.command? s.params with
    | none => exact .inr (.inr ⟨rfl, step_serve hp hw⟩)
    | some w =>
      have h := step_command hp hw
      cases hd : decode w with
      | ok i => exact .inl ⟨w, i, rfl, hd, by simp [h, issue, hd]⟩
      | error why => exact .inr (.inl ⟨w, why, rfl, hd, by simp [h, issue, hd]⟩)

/-- A command of the encoder goes to the state its effect leaves. -/
theorem exec_enc {i : Instr} (hi : i.engine = .enc) (s : State) :
    exec i s = .next (s.commitEnc (Instr.encEffect i s.enc) (Instr.encCustody i s.enc s.encCustody)) := by
  cases i <;> first | rfl | simp [Instr.engine] at hi

/-- A command of the decoder goes to the state its effect leaves. -/
theorem exec_dec {i : Instr} (hi : i.engine = .dec) (s : State) :
    exec i s =
      .next (s.commitDec (Instr.decEffect i s.params.legacyChunkZero s.dec)
        (Instr.decCustody i s.dec s.decCustody)) := by
  cases i <;> first | rfl | simp [Instr.engine] at hi

/-- An engine keeps or takes its window unless an END's result was read: a FEED or END never hands it to the host. -/
theorem Custody.fed_ne_host {p : Phase} {c : Custody} (h : c ≠ .host) : c.fed p ≠ .host := by
  cases p <;> simp [Custody.fed, h]

theorem Custody.ended_ne_host {p : Phase} {c : Custody} (h : c ≠ .host) : c.ended p ≠ .host := by
  cases p <;> cases c <;> simp_all [Custody.ended]

theorem Custody.started_ne_host {r : Bool} {c : Custody} (h : c ≠ .host) : c.started r ≠ .host := by
  cases r <;> simp [Custody.started, h]

/-- What a command of the encoder can do to the registers both engines have: refused in `IDLE`, a refused window, the
stored error repeated, a session opened, failure entry, or success (60_exceptions.md R184 to R188). -/
theorem encEffect_cases (i : Instr) (hi : i.engine = .enc) (e : Enc) :
    (i.isStart = false ∧ e.phase = .idle ∧ Instr.encEffect i e = { regs := e.invalid, writes := [] }) ∨
    (i.isStart = true ∧ e.windowRefused = true ∧ Instr.encEffect i e = { regs := e.invalid, writes := [] }) ∨
    (i.isStart = false ∧ e.phase = .failed ∧ Instr.encEffect i e = { regs := e.repeatError, writes := [] }) ∨
    (i.isStart = true ∧ e.windowRefused = false ∧
      Instr.encEffect i e =
        { regs := { toSession := e.toSession.openAt 1, slot := 0, blen := 1 }, writes := [] }) ∨
    (i.isStart = false ∧ e.phase = .opened ∧
      (Instr.encEffect i e).regs.phase = .failed ∧
      (Instr.encEffect i e).regs.failErr = .bufferOverflow ∧
      (Instr.encEffect i e).regs.lastRes = .bufferOverflow ∧
      (Instr.encEffect i e).regs.result = e.result ∧
      (Instr.encEffect i e).regs.SameWindow e.toSession) ∨
    (i.isStart = false ∧ e.phase = .opened ∧
      (Instr.encEffect i e).regs.phase = .opened ∧
      (Instr.encEffect i e).regs.failErr = e.failErr ∧
      (Instr.encEffect i e).regs.lastRes = .ok ∧
      (Instr.encEffect i e).regs.SameWindow e.toSession ∧
      ((Instr.encEffect i e).regs.result = e.result ∨
        (i = .encEnd ∧ (Instr.encEffect i e).regs.result = (Instr.encEffect i e).regs.cursor))) := by
  cases i with
  | encStart =>
    cases h : e.windowRefused
    · simp [Instr.encEffect, Instr.isStart, Enc.start_accepted h]
    · simp [Instr.encEffect, Instr.isStart, Enc.start_refused h]
  | encFeed b last =>
    have hsw := (e.feed_sameWindow b)
    simp only [Instr.encEffect]
    rcases e.whenOpen_cases (Enc.feedOpen b) with ⟨hp, h⟩ | ⟨hp, h⟩ | ⟨hp, h⟩
    · exact .inl ⟨rfl, hp, h⟩
    · exact .inr (.inr (.inl ⟨rfl, hp, h⟩))
    · right; right; right; right
      have cons : ∀ e : Enc, ((e.consume b).regs = e.fail .bufferOverflow) ∨
          ((e.consume b).regs.lastRes = .ok ∧ (e.consume b).regs.phase = e.phase ∧
            (e.consume b).regs.failErr = e.failErr) := by
        intro e
        rcases e.consume_cases b with ⟨h, h', _⟩ | ⟨h, _, h'⟩ | ⟨h, _, h'⟩
        · exact .inl h'
        · exact .inr ⟨by simp [h'], by simp [h'], by simp [h']⟩
        · exact .inr ⟨by simp [h'], by simp [h'], by simp [h']⟩
      have hfe : e.feed b = e.feedOpen b := h
      rw [hfe] at hsw ⊢
      rcases e.feedOpen_cases b with ⟨_, _, h'⟩ | ⟨_, _, h'⟩ | ⟨_, h'⟩
      · left; rw [h'] at hsw ⊢; exact ⟨rfl, hp, rfl, rfl, rfl, hsw.2, hsw.1⟩
      · rw [h'] at hsw ⊢
        rcases cons e.openBlock with h2 | ⟨h2, h3, h4⟩
        · left; exact ⟨rfl, hp, by simp [h2], by simp [h2], by simp [h2], hsw.2, hsw.1⟩
        · right; exact ⟨rfl, hp, by simp [h3, hp], by simp [h4], by simp [h2], hsw.1, .inl hsw.2⟩
      · rw [h'] at hsw ⊢
        rcases cons e with h2 | ⟨h2, h3, h4⟩
        · left; exact ⟨rfl, hp, by simp [h2], by simp [h2], by simp [h2], hsw.2, hsw.1⟩
        · right; exact ⟨rfl, hp, by simp [h3, hp], by simp [h4], by simp [h2], hsw.1, .inl hsw.2⟩
  | encEnd =>
    have hsw := e.finish_sameWindow
    simp only [Instr.encEffect]
    rcases e.whenOpen_cases Enc.finishOpen with ⟨hp, h⟩ | ⟨hp, h⟩ | ⟨hp, h⟩
    · exact .inl ⟨rfl, hp, h⟩
    · exact .inr (.inr (.inl ⟨rfl, hp, h⟩))
    · right; right; right; right
      have hfe : e.finish = e.finishOpen := h
      rw [hfe] at hsw ⊢
      rcases e.finishOpen_cases with ⟨_, h'⟩ | ⟨_, h'⟩
      · left; rw [h'] at hsw ⊢; exact ⟨rfl, hp, rfl, rfl, rfl, rfl, hsw⟩
      · right; rw [h'] at hsw ⊢; exact ⟨rfl, hp, hp, rfl, rfl, hsw, .inr (by first | exact ⟨rfl, rfl⟩ | exact ⟨trivial, rfl⟩)⟩
  | _ => simp [Instr.engine] at hi

/-- What a command of the decoder can do to the registers both engines have (60_exceptions.md R184 to R188). -/
theorem decEffect_cases (i : Instr) (hi : i.engine = .dec) (l : Bool) (e : Dec) :
    (i.isStart = false ∧ e.phase = .idle ∧ Instr.decEffect i l e = { regs := e.invalid, writes := [] }) ∨
    (i.isStart = true ∧ e.windowRefused = true ∧ Instr.decEffect i l e = { regs := e.invalid, writes := [] }) ∨
    (i.isStart = false ∧ e.phase = .failed ∧ Instr.decEffect i l e = { regs := e.repeatError, writes := [] }) ∨
    (i.isStart = true ∧ e.windowRefused = false ∧
      Instr.decEffect i l e =
        { regs := { toSession := e.toSession.openAt 0, pcode := 0xFF#8, rem := 0, term := false, discard := false },
          writes := [] }) ∨
    (i.isStart = false ∧ e.phase = .opened ∧
      (Instr.decEffect i l e).regs.phase = .failed ∧
      ((Instr.decEffect i l e).regs.lastRes = .bufferOverflow ∨
        (Instr.decEffect i l e).regs.lastRes = .decodeError) ∧
      (Instr.decEffect i l e).regs.failErr = (Instr.decEffect i l e).regs.lastRes ∧
      (Instr.decEffect i l e).regs.result = e.result ∧
      (Instr.decEffect i l e).regs.SameWindow e.toSession) ∨
    (i.isStart = false ∧ e.phase = .opened ∧
      (Instr.decEffect i l e).regs.phase = .opened ∧
      (Instr.decEffect i l e).regs.failErr = e.failErr ∧
      (Instr.decEffect i l e).regs.lastRes = .ok ∧
      (Instr.decEffect i l e).regs.SameWindow e.toSession ∧
      ((Instr.decEffect i l e).regs.result = e.result ∨
        (i = .decEnd ∧ (Instr.decEffect i l e).regs.result = (Instr.decEffect i l e).regs.cursor))) := by
  cases i with
  | decStart =>
    cases h : e.windowRefused
    · simp [Instr.decEffect, Instr.isStart, Dec.start_accepted h]
    · simp [Instr.decEffect, Instr.isStart, Dec.start_refused h]
  | decFeed b last =>
    have hsw := (e.feed_sameWindow l b last)
    simp only [Instr.decEffect]
    rcases e.whenOpen_cases (Dec.feedOpen l b last) with ⟨hp, h⟩ | ⟨hp, h⟩ | ⟨hp, h⟩
    · exact .inl ⟨rfl, hp, h⟩
    · exact .inr (.inr (.inl ⟨rfl, hp, h⟩))
    · right; right; right; right
      have hfe : e.feed l b last = e.feedOpen l b last := h
      rw [hfe] at hsw ⊢
      rcases e.feedOpen_cases l b last with ⟨_, h'⟩ | ⟨_, _, h'⟩ | ⟨_, _, h'⟩ <;> rw [h'] at hsw ⊢
      · right; exact ⟨rfl, hp, hp, rfl, rfl, hsw.1, .inl hsw.2⟩
      · rcases e.literal_cases b with ⟨_, h''⟩ | ⟨_, _, h''⟩ | ⟨_, _, h''⟩ <;> rw [h''] at hsw ⊢
        · left; exact ⟨rfl, hp, rfl, .inr rfl, rfl, hsw.2, hsw.1⟩
        · left; exact ⟨rfl, hp, rfl, .inl rfl, rfl, hsw.2, hsw.1⟩
        · right; exact ⟨rfl, hp, hp, rfl, rfl, hsw.1, .inl hsw.2⟩
      · rcases e.codeByte_cases l b last with ⟨_, h''⟩ | ⟨_, _, h''⟩ | ⟨_, _, h''⟩ <;> rw [h''] at hsw ⊢
        · right; exact ⟨rfl, hp, by simp [hp], by simp, by simp, hsw.1, .inl hsw.2⟩
        · left; exact ⟨rfl, hp, rfl, .inl rfl, rfl, hsw.2, hsw.1⟩
        · right; exact ⟨rfl, hp, by simp [hp], by simp, by simp, hsw.1, .inl hsw.2⟩
  | decEnd =>
    have hsw := e.finish_sameWindow
    simp only [Instr.decEffect]
    rcases e.whenOpen_cases Dec.finishOpen with ⟨hp, h⟩ | ⟨hp, h⟩ | ⟨hp, h⟩
    · exact .inl ⟨rfl, hp, h⟩
    · exact .inr (.inr (.inl ⟨rfl, hp, h⟩))
    · right; right; right; right
      have hfe : e.finish = e.finishOpen := h
      rw [hfe] at hsw ⊢
      rcases e.finishOpen_cases with ⟨_, h'⟩ | ⟨_, h'⟩
      · left; rw [h'] at hsw ⊢; exact ⟨rfl, hp, rfl, .inr rfl, rfl, rfl, hsw⟩
      · right; rw [h'] at hsw ⊢; exact ⟨rfl, hp, hp, rfl, rfl, hsw, .inr (by first | exact ⟨rfl, rfl⟩ | exact ⟨trivial, rfl⟩)⟩
  | _ => simp [Instr.engine] at hi

/-- A register read leaves the state as it is, or gives the host the window of an engine whose END it read. -/
theorem State.afterRead_cases (s : State) (r : Reg) :
    s.afterRead r = s ∨ ∃ u, r.endResultOf = some u ∧ s.custody u = .unread ∧ s.afterRead r = s.release u := by
  unfold State.afterRead
  cases hr : r.endResultOf with
  | none => exact .inl rfl
  | some u =>
    simp only []
    split
    · exact .inr ⟨u, rfl, by assumption, rfl⟩
    · exact .inl rfl

/-- What serving an access that issues no command can do. -/
theorem serve_cases {a : Access} {s t : State} (h : serve a s = .next t) :
    (∃ addr v r, a = .regWrite addr 4 v ∧ selectedReg s.params addr 4 = some r ∧ t = s.writeReg r v) ∨
    (∃ addr r, a = .regRead addr 4 ∧ selectedReg s.params addr 4 = some r ∧
      t = { s.afterRead r with readData := some (s.readReg r) }) ∨
    (∃ addr, a = .memRead addr ∧
      ((s.raced addr.toNat = true ∧
          t = { s with readData := some ((Config.freeByte s.freeCount).setWidth 32), freeCount := s.freeCount + 1 }) ∨
       (s.raced addr.toNat = false ∧ t = { s with readData := some ((s.memByte addr.toNat).setWidth 32) }))) ∨
    (∃ addr v, a = .memWrite addr v ∧
      (((s.holds .enc addr.toNat || s.holds .dec addr.toNat) = true ∧ t = s.race addr.toNat) ∨
       ((s.holds .enc addr.toNat || s.holds .dec addr.toNat) = false ∧ t = s.store addr.toNat v))) ∨
    (a = .reset ∧ t = s.resetRegisters) ∨ (∃ w, a = .resetDuring w ∧ t = s.resetDuring w) := by
  have hsize : ∀ {addr : Word} {size : Nat} {r : Reg}, selectedReg s.params addr size = some r → size = 4 := by
    intro addr size r hr
    by_contra hc; simp [selectedReg, wellShaped, hc] at hr
  cases a with
  | regWrite addr size v =>
    simp only [serve, serveRegWrite] at h
    split at h
    · rename_i r hr
      cases hsize hr
      cases h; exact .inl ⟨addr, v, r, rfl, hr, rfl⟩
    · simp only [badRegisterAccess] at h; split at h <;> cases h
  | regRead addr size =>
    simp only [serve, serveRegRead] at h
    split at h
    · rename_i r hr
      cases hsize hr
      cases h; exact .inr (.inl ⟨addr, r, rfl, hr, rfl⟩)
    · simp only [badRegisterAccess] at h; split at h <;> cases h
  | memRead addr =>
    refine .inr (.inr (.inl ⟨addr, rfl, ?_⟩))
    simp only [serve, serveMemRead] at h
    split at h <;> cases h
    · exact .inl ⟨by assumption, rfl⟩
    · exact .inr ⟨Bool.eq_false_iff.2 (by assumption), rfl⟩
  | memWrite addr v =>
    refine .inr (.inr (.inr (.inl ⟨addr, v, rfl, ?_⟩)))
    simp only [serve, serveMemWrite] at h
    split at h <;> cases h
    · exact .inl ⟨by assumption, rfl⟩
    · exact .inr ⟨Bool.eq_false_iff.2 (by assumption), rfl⟩
  | reset => simp only [serve] at h; cases h; exact .inr (.inr (.inr (.inr (.inl ⟨rfl, rfl⟩))))
  | resetDuring w => simp only [serve] at h; cases h; exact .inr (.inr (.inr (.inr (.inr ⟨w, rfl, rfl⟩))))

/-- What serving an access can do to the engines' registers: an argument register is written, a reset, or nothing. -/
theorem serve_regs {a : Access} {s t : State} (h : serve a s = .next t) :
    (∃ addr v r, a = .regWrite addr 4 v ∧ selectedReg s.params addr 4 = some r ∧ t = s.writeReg r v) ∨
    (t.enc = s.enc ∧ t.dec = s.dec ∧ t.params = s.params ∧ t.pending = s.pending) ∨
    (a = .reset ∧ t = s.resetRegisters) ∨ (∃ w, a = .resetDuring w ∧ t = s.resetDuring w) := by
  rcases serve_cases h with h | ⟨addr, r, _, _, rfl⟩ | ⟨addr, _, ⟨_, rfl⟩ | ⟨_, rfl⟩⟩ | ⟨addr, v, _, ⟨_, rfl⟩ | ⟨_, rfl⟩⟩ | h | h
  · exact .inl h
  · rcases s.afterRead_cases r with h | ⟨u, _, _, h⟩
    · rw [h]; exact .inr (.inl ⟨rfl, rfl, rfl, rfl⟩)
    · rw [h]; cases u <;> exact .inr (.inl ⟨rfl, rfl, rfl, rfl⟩)
  · exact .inr (.inl ⟨rfl, rfl, rfl, rfl⟩)
  · exact .inr (.inl ⟨rfl, rfl, rfl, rfl⟩)
  · exact .inr (.inl ⟨rfl, rfl, rfl, rfl⟩)
  · exact .inr (.inl ⟨rfl, rfl, rfl, rfl⟩)
  · exact .inr (.inr (.inl h))
  · exact .inr (.inr (.inr h))

end Sys2Proof.Machine
end

