-- ==== Sys2Proof/Laws/PerInstr.lean ====
section
/-! SUPPORT. A fact of every command as syntax: its word is addressed to its own engine and holds 0 in the reserved
fields (30_encoding.md R80, R84). -/
namespace Sys2Proof.Laws.ReservedZero

/-- The encoded word names the command's engine in `UNIT` and is 0 in `RES1` and `RES0`. -/
def Statement (i : Instr) : Prop :=
  unitField (encode i) = i.engine ∧ res1Field (encode i) = 0#16 ∧ res0Field (encode i) = 0#2

theorem encStart : Statement .encStart := by unfold Statement; decide

theorem encFeed (data : Byte) (last : Bool) : Statement (.encFeed data last) := by
  unfold Statement; revert data last; decide

theorem encEnd : Statement .encEnd := by unfold Statement; decide

theorem decStart : Statement .decStart := by unfold Statement; decide

theorem decFeed (data : Byte) (last : Bool) : Statement (.decFeed data last) := by
  unfold Statement; revert data last; decide

theorem decEnd : Statement .decEnd := by unfold Statement; decide

end Sys2Proof.Laws.ReservedZero
end

