-- ==== Sys2Proof/Laws/Run.lean ====
section
/-! SUPPORT. Running commands one after another. -/
namespace Sys2Proof.Machine

/-- A run goes on from the state its first command leaves. -/
theorem runAll_cons (i : Instr) (is : List Instr) {s t : State} (h : exec i s = .next t) :
    runAll (i :: is) s = runAll is t := by
  simp [runAll, h]

/-- A run of two lists is the run of the second after the run of the first. -/
theorem runAll_append (xs ys : List Instr) (s : State) :
    runAll (xs ++ ys) s =
      match runAll xs s with
      | .next t => runAll ys t
      | .fault r => .fault r
      | .refused r => .refused r := by
  induction xs generalizing s with
  | nil => rfl
  | cons i xs ih =>
    simp only [List.cons_append, runAll]
    rw [exec_eq]; exact ih _

/-- "Only the encoder" is transitive. -/
theorem OnlyEnc.trans {a b c : State} (h : OnlyEnc a b) (g : OnlyEnc b c) : OnlyEnc a c := by
  obtain ⟨h1, h2, h3, h4, h5, h6, h7, h8⟩ := h; obtain ⟨g1, g2, g3, g4, g5, g6, g7, g8⟩ := g
  exact ⟨g1.trans h1, g2.trans h2, g3.trans h3, g4.trans h4, g5.trans h5, g6.trans h6, g7.trans h7, g8.trans h8⟩

/-- "Only the decoder" is transitive. -/
theorem OnlyDec.trans {a b c : State} (h : OnlyDec a b) (g : OnlyDec b c) : OnlyDec a c := by
  obtain ⟨h1, h2, h3, h4, h5, h6, h7, h8⟩ := h; obtain ⟨g1, g2, g3, g4, g5, g6, g7, g8⟩ := g
  exact ⟨g1.trans h1, g2.trans h2, g3.trans h3, g4.trans h4, g5.trans h5, g6.trans h6, g7.trans h7, g8.trans h8⟩

/-- A command leaves which bytes are raced for. -/
theorem OnlyEnc.raced {s t : State} (h : OnlyEnc s t) (a : Nat) : t.raced a = s.raced a := by
  simp only [State.raced, h.2.2.2.2.2.2.1, h.2.2.2.2.2.2.2]

/-- A command leaves which bytes are raced for. -/
theorem OnlyDec.raced {s t : State} (h : OnlyDec s t) (a : Nat) : t.raced a = s.raced a := by
  simp only [State.raced, h.2.2.2.2.2.2.1, h.2.2.2.2.2.2.2]

/-- A command leaves the parameters, the pending accesses, the last read, the count of free bytes and the raced
bytes. -/
theorem exec_keeps {i : Instr} {s t : State} (h : exec i s = .next t) :
    t.params = s.params ∧ t.pending = s.pending ∧ t.readData = s.readData ∧ t.freeCount = s.freeCount ∧
    t.encRaced = s.encRaced ∧ t.decRaced = s.decRaced := by
  rw [exec_eq] at h; cases h; exact ⟨rfl, rfl, rfl, rfl, rfl, rfl⟩

/-- What a command does does not depend on the accesses still pending. -/
theorem exec_pending {i : Instr} {s t : State} (p : List Access) (h : exec i s = .next t) :
    exec i { s with pending := p } = .next { t with pending := p } := by
  rw [exec_eq] at h ⊢; cases h; rfl

end Sys2Proof.Machine
end

