-- ==== Sys2Proof/Tests/Slice0.lean ====
section
/-! SUPPORT. The model's own tests: the words of 30_encoding.md R85, single steps of 95_test_vectors.md with the results
written there, ill-formed accesses, and for every statement with hypotheses a state and operands that meet them. -/
namespace Sys2Proof.Tests

open Sys2Proof.Machine

/-! ### Small states -/

/-- An encoder with an open session in the window at `0x1000`. -/
def encAt (cap cursor slot : Word) (blen : Byte) : State :=
  { State.reset with
    enc := { dstBase := 0x1000, dstCap := cap, winBase := 0x1000, winCap := cap, phase := .opened, lastRes := .ok,
             failErr := .ok, result := 0, cursor := cursor, slot := slot, blen := blen }
    encCustody := .engine }

/-- A decoder with an open session in the window at `0x2000`. -/
def decAt (cap cursor : Word) (pcode rem : Byte) : State :=
  { State.reset with
    dec := { dstBase := 0x2000, dstCap := cap, winBase := 0x2000, winCap := cap, phase := .opened, lastRes := .ok,
             failErr := .ok, result := 0, cursor := cursor, pcode := pcode, rem := rem, term := false,
             discard := false }
    decCustody := .engine }

/-- The same under the compatibility rule of zero synthesis. -/
def legacy (s : State) : State := { s with params := { s.params with legacyChunkZero := true } }

/-- Reset, with the encoder's argument registers written. -/
def encArgs (base cap : Word) : State := (State.reset.writeReg .encDstBase base).writeReg .encDstCap cap

/-- Reset, with the decoder's argument registers written. -/
def decArgs (base cap : Word) : State := (State.reset.writeReg .decDstBase base).writeReg .decDstCap cap

/-- The encoder of `encAt` with a failed session, as 60_exceptions.md R186 leaves it. -/
def encFailed : State :=
  { encAt 3 3 0 3 with enc := (encAt 3 3 0 3).enc.fail .bufferOverflow }

/-- The encoder of `encAt` after an END, its result not read yet, with the byte at `0x1003` raced for. -/
def encUnread : State := { encAt 6 6 3 2 with encCustody := .unread, encRaced := [0x1003] }

/-- One host access on top of a state. -/
def asked (a : Access) (s : State) : State := { s with pending := [a] }

/-- The registers and byte a test looks at, after one command. -/
def after (i : Instr) (s : State) : Option State := next? (exec i s)

/-! ### Decoding: words written out from R80 and R85 -/

theorem test_decode_enc_start : decode 0b0000000000000000_00000000_0_00_0_0001#32 = .ok .encStart := by decide

theorem test_decode_enc_feed :
    decode 0b0000000000000000_00010001_0_00_0_0010#32 = .ok (.encFeed 0x11 false) ∧
    decode 0b0000000000000000_00110011_1_00_0_0010#32 = .ok (.encFeed 0x33 true) := by decide

theorem test_decode_enc_end : decode 0b0000000000000000_00000000_0_00_0_0011#32 = .ok .encEnd := by decide

theorem test_decode_dec_start : decode 0b0000000000000000_00000000_0_00_1_0001#32 = .ok .decStart := by decide

theorem test_decode_dec_feed :
    decode 0b0000000000000000_10101010_0_00_1_0010#32 = .ok (.decFeed 0xAA false) ∧
    decode 0b0000000000000000_10111011_1_00_1_0010#32 = .ok (.decFeed 0xBB true) := by decide

theorem test_decode_dec_end : decode 0b0000000000000000_00000000_0_00_1_0011#32 = .ok .decEnd := by decide

/-- 95_test_vectors.md section 2.9: each word is refused, by the name of its fault, and addressed to the engine of its
bit 4. -/
theorem test_decode_malformed :
    decode 0x00000000#32 = .error .reservedOp ∧ decode 0x0000000F#32 = .error .reservedOp ∧
    decode 0x00000014#32 = .error .reservedOp ∧ unitField 0x00000014#32 = .dec ∧
    decode 0x00010002#32 = .error .res1 ∧ decode 0x80000001#32 = .error .res1 ∧
    decode 0x00000022#32 = .error .res0 ∧ decode 0x00000041#32 = .error .res0 ∧
    decode 0x00000101#32 = .error .data ∧ decode 0x00000081#32 = .error .last ∧
    unitField 0x00000081#32 = .enc := by decide

/-- R85: the six rows are disjoint; two rows differ in a bit that both masks keep. -/
theorem test_rows_disjoint :
    opcodeRows.Pairwise (fun r q => r.pattern &&& (r.mask &&& q.mask) ≠ q.pattern &&& (r.mask &&& q.mask)) := by
  decide

/-- The opcode table's numbering is that of the word; a missing high part is 0. -/
theorem test_table_word :
    decodeTableWord 32 0x3382 = some (.encFeed 0x33 true) ∧ decodeTableWord 8 0x13 = some .decEnd ∧
    decodeTableWord 32 0x00010002 = none := by decide

/-- The next step runs the word placed. 95_test_vectors.md V1: `0x00001182` right after reset gives
`ENC_STATUS = 0x00000010` and nothing is written. -/
theorem test_fetch_word :
    (next? (step (State.reset.withFetchWord 32 0x00001182))).map (fun t => (t.enc.status, t.mem, t.pending)) =
      some (0x00000010#32, [], []) := by decide

/-! ### Ill-formed accesses (20_memory.md R68): one for each check -/

theorem test_wf_size : (Access.regRead 0x04 1).wf Config.defaultParams = false ∧
    next? (step (asked (.regRead 0x04 1) State.reset)) = none := by decide

theorem test_wf_aligned : (Access.regWrite 0x05 4 7).wf Config.defaultParams = false ∧
    next? (step (asked (.regWrite 0x05 4 7) State.reset)) = none := by decide

theorem test_wf_inside : (Access.regRead 0x40 4).wf Config.defaultParams = false ∧
    next? (step (asked (.regRead 0x40 4) State.reset)) = none := by decide

theorem test_wf_good : (Access.regRead 0x3C 4).wf Config.defaultParams = true ∧
    (next? (step (asked (.regRead 0x3C 4) (decAt 4 0 3 2)))).map State.readData = some (some 2) := by decide

/-! ### One step each, from 95_test_vectors.md -/

/-- E4: a window that ends exactly at `2^32` is accepted. -/
theorem test_enc_start_top :
    (after .encStart (encArgs 0xFFFFFFFE 2)).map (fun t => (t.enc.status, t.enc.cursor, t.enc.blen, t.mem)) =
      some (0x00000001#32, 1, 1, []) := by decide

/-- E5: a window that would wrap is refused, and the phase stays `IDLE`. -/
theorem test_enc_start_wraps :
    (after .encStart (encArgs 0xFFFFFFFF 2)).map (fun t => (t.enc.status, t.enc.winCap)) =
      some (0x00000010#32, 0) := by decide

/-- E21: a full block and a zero byte; offset 0 gets `FF`, offset 255 gets `01`. -/
theorem test_enc_feed_full_zero :
    (after (.encFeed 0 true) (encAt 300 255 0 0xFF)).map (fun t => (t.enc.slot, t.enc.cursor, t.enc.blen, t.mem)) =
      some (256, 257, 1, [(0x1000, 0xFF), (0x10FF, 0x01)]) := by decide

/-- E15: the slot reservation of a delimiter closure is bounds-checked; `SLOT`, `CURSOR` and `BLEN` stay. -/
theorem test_enc_feed_no_slot :
    (after (.encFeed 0 true) (encAt 4 4 0 4)).map (fun t => (t.enc.status, t.enc.slot, t.enc.cursor, t.enc.blen)) =
      some (0x00000222#32, 0, 4, 4) := by decide

/-- P1: `enc.end` writes `0x1003=02` and `0x1005=00` and reports 6; of these, a byte another writer races for stays
any value (R74). -/
theorem test_enc_end_writes :
    (after .encEnd (encAt 6 5 3 2)).map (fun t => (t.enc.result, t.enc.cursor, t.enc.blen, t.mem)) =
      some (6, 6, 2, [(0x1003, 0x02), (0x1005, 0x00)]) ∧
    (after .encEnd { encAt 6 5 3 2 with encRaced := [0x1003] }).map (fun t => (t.mem, t.raced 0x1003)) =
      some ([(0x1005, 0x00)], true) := by decide

/-- E28: no room for the terminator; `CURSOR` and `RESULT` are unchanged. -/
theorem test_enc_end_no_room :
    (after .encEnd (encAt 5 5 0 5)).map (fun t => (t.enc.status, t.enc.cursor, t.enc.result)) =
      some (0x00000222#32, 5, 0) := by decide

/-- D1: `PCODE = 0xFF`, `REM = 0`, `CURSOR = 0`, `DEC_STATUS = 0x00000001`. -/
theorem test_dec_start_opens :
    (after .decStart (decArgs 0x2000 4)).map (fun t => (t.dec.status, t.dec.pcode, t.dec.rem, t.dec.cursor)) =
      some (0x00000001#32, 0xFF, 0, 0) := by decide

/-- D2: a capacity of 1 is refused. -/
theorem test_dec_start_small :
    (after .decStart (decArgs 0x2000 1)).map (fun t => (t.dec.status, t.dec.pcode)) = some (0x00000010#32, 0) := by
  decide

/-- P6, `0x00000292`: the default rule writes `0x2002=00`, the compatibility rule writes nothing. -/
theorem test_dec_feed_zero_rules :
    (after (.decFeed 2 true) (decAt 4 2 3 0)).map (fun t => (t.dec.cursor, t.dec.pcode, t.dec.rem, t.mem)) =
      some (3, 2, 1, [(0x2002, 0x00)]) ∧
    (after (.decFeed 2 true) (legacy (decAt 4 2 3 0))).map (fun t => (t.dec.cursor, t.dec.rem, t.mem)) =
      some (2, 1, []) := ⟨by decide, by decide⟩

/-- D12: a `0x00` literal is `DecodeError` although the window is full. -/
theorem test_dec_feed_value_first :
    (after (.decFeed 0 true) (decAt 2 2 4 1)).map (fun t => (t.dec.status, t.dec.cursor, t.dec.rem)) =
      some (0x00000332#32, 2, 1) := by decide

/-- D32: END clears the `DISCARD` that a mid-chunk terminator left. -/
theorem test_dec_end_clears_discard :
    ((after (.decFeed 0 false) (decAt 2 0 0xFF 0)).bind (after .decEnd)).map (fun t => (t.dec.status, t.dec.result)) =
      some (0x00001001#32, 0) := by decide

/-- D20: a truncated block is `DecodeError`, and `RESULT` stays 0. -/
theorem test_dec_end_truncated :
    (after .decEnd (decAt 4 1 3 1)).map (fun t => (t.dec.status, t.dec.result)) = some (0x00000332#32, 0) := by decide

/-- P5: the malformed word `0x00000004` sets only `ENC`'s `LASTRES`. -/
theorem test_malformed_word :
    (next? (step ((encAt 4 2 1 1).withFetchWord 32 0x00000004))).map (fun t => (t.enc.status, t.enc.cursor, t.dec)) =
      some (0x00000011#32, 2, Dec.reset) := by decide

/-- E13, W1, W2: the frames of `00`, of nothing and of `11 22 00 33`. -/
theorem test_frames : frameOf [0x00] = [0x01, 0x01, 0x00] ∧ frameOf [] = [0x01, 0x00] ∧
    frameOf [0x11, 0x22, 0x00, 0x33] = [0x03, 0x11, 0x22, 0x02, 0x33, 0x00] := by decide

/-! ### Races (20_memory.md R74, 70_reset_and_hazards.md R216) -/

/-- R74, R216: a host write into the window of a failed session, before its END's result is read, is a race. -/
theorem test_race_in_failed_session :
    (next? (step (asked (.memWrite 0x1001 5) encFailed))).map (fun t => (t.mem, t.raced 0x1001)) =
      some ([], true) := by decide

/-- R216: the host's read of `ENC_RESULT` after END, at offset `0x10`, gives it the window back; the raced byte is
settled. -/
theorem test_result_read_ends_race :
    (next? (step (asked (.regRead 0x10 4) encUnread))).map (fun t => (t.encCustody, t.encRaced, t.freeCount)) =
      some (.host, [], 1) := by decide

/-- R216: after that read an ordinary write of the host is stored, although the phase is still `OPEN`. -/
theorem test_write_after_result_read :
    (next? (step (asked (.memWrite 0x1001 5) { encUnread with encCustody := .host, encRaced := [] }))).map
      (fun t => (t.mem, t.raced 0x1001)) = some ([(0x1001, 5)], false) := by decide

/-! ### Witnesses: hypotheses of the statements, met together -/

theorem test_witness_decode_exactly_encode : (Instr.encFeed 0xFF true).wf = true ∧
    decode 0x0000FF82#32 = .ok (.encFeed 0xFF true) := by decide

theorem test_witness_feed_operands :
    decode 0x00000002#32 = .ok (.encFeed 0x00 false) ∧ decode 0x0000FF92#32 = .ok (.decFeed 0xFF true) := by decide

theorem test_witness_reset_values :
    (∃ rest, (asked .reset encUnread).pending = .reset :: rest) ∧ encUnread.raced 0x1004 = false ∧
    (encAt 4 2 1 1).pending = [] :=
  ⟨⟨[], rfl⟩, by decide, rfl⟩

theorem test_witness_step_runs_decoded : ∃ (s : State) (rest : List Access) (w : Word) (i : Instr),
    s.pending = .regWrite s.params.codecBase 4 w :: rest ∧ decode w = .ok i ∧ i.wf = true :=
  ⟨asked (.regWrite 0 4 0x3382) State.reset, [], 0x3382, .encFeed 0x33 true, by decide⟩

theorem test_witness_malformed_word :
    (∃ (s : State) (rest : List Access) (w : Word),
      s.pending = .regWrite s.params.codecBase 4 w :: rest ∧ decode? w = none ∧ w.getLsbD 4 = false) ∧
    (∃ (s : State) (rest : List Access) (w : Word),
      s.pending = .regWrite s.params.codecBase 4 w :: rest ∧ decode? w = none ∧ w.getLsbD 4 = true) :=
  ⟨⟨asked (.regWrite 0 4 0x81) State.reset, [], 0x81, by decide⟩,
   ⟨asked (.regWrite 0 4 0x93) State.reset, [], 0x93, by decide⟩⟩

theorem test_witness_reset_during : ∃ (s : State) (rest : List Access) (w : Word),
    s.pending = .resetDuring w :: rest ∧ 0x1005 ∈ s.writesOfWord w ∧ 0x1003 ∈ s.writesOfWord w ∧
    s.raced 0x1003 = true ∧ 0x1004 ∉ s.writesOfWord w ∧ s.raced 0x1004 = false :=
  ⟨asked (.resetDuring 3) { encAt 6 5 3 2 with encRaced := [0x1003] }, [], 3, by decide⟩

theorem test_witness_register_reads :
    (∃ (s : State) (rest : List Access), s.pending = .regRead (s.params.codecBase + BitVec.ofNat 32 0x00) 4 :: rest) ∧
    (∃ (s : State) (rest : List Access), s.pending = .regRead (s.params.codecBase + BitVec.ofNat 32 0x10) 4 :: rest ∧
      s.raced 0x1003 = true ∧ s.raced 0x1002 = false) ∧
    (∃ (s : State) (rest : List Access), s.pending = .regRead (s.params.codecBase + BitVec.ofNat 32 0x3C) 4 :: rest) :=
  ⟨⟨asked (.regRead 0 4) State.reset, [], by decide⟩, ⟨asked (.regRead 0x10 4) encUnread, [], by decide⟩,
   ⟨asked (.regRead 0x3C 4) State.reset, [], by decide⟩⟩

theorem test_witness_register_writes :
    (∃ (s : State) (rest : List Access) (v : Word),
      s.pending = .regWrite (s.params.codecBase + BitVec.ofNat 32 0x04) 4 v :: rest) ∧
    (∃ (s : State) (rest : List Access) (v : Word),
      s.pending = .regWrite (s.params.codecBase + BitVec.ofNat 32 0x3C) 4 v :: rest) :=
  ⟨⟨asked (.regWrite 4 4 7) State.reset, [], 7, by decide⟩, ⟨asked (.regWrite 0x3C 4 7) State.reset, [], 7, by decide⟩⟩

theorem test_witness_other_accesses :
    (∃ (s : State) (off size : Nat), off < 64 ∧ (size ≠ 4 ∨ off % 4 ≠ 0) ∧
      s.pending = [.regRead (s.params.codecBase + BitVec.ofNat 32 off) size]) ∧
    (∃ (s : State) (off size : Nat) (v : Word), off < 64 ∧ (size ≠ 4 ∨ off % 4 ≠ 0) ∧
      s.pending = [.regWrite (s.params.codecBase + BitVec.ofNat 32 off) size v]) :=
  ⟨⟨asked (.regRead 63 4) State.reset, 63, 4, by decide⟩, ⟨asked (.regWrite 0 1 9) State.reset, 0, 1, 9, by decide⟩⟩

theorem test_witness_outside_block :
    (∃ (s : State) (off size : Nat), 64 ≤ off ∧ off + size ≤ 2 ^ 32 ∧ off < 2 ^ 32 ∧
      s.pending = [.regRead (s.params.codecBase + BitVec.ofNat 32 off) size]) ∧
    (∃ (s : State) (off size : Nat) (v : Word), 64 ≤ off ∧ off + size = 2 ^ 32 ∧ off < 2 ^ 32 ∧
      s.pending = [.regWrite (s.params.codecBase + BitVec.ofNat 32 off) size v]) :=
  ⟨⟨asked (.regRead 64 4) State.reset, 64, 4, by decide⟩,
   ⟨asked (.regWrite 0xFFFFFFFC 4 9) State.reset, 2 ^ 32 - 4, 4, 9, by decide⟩⟩

/-- The first and last bytes of a held window and the bytes beside them, of an open session and a failed one; a byte of
a window that the host has back; a listed byte, an unlisted one and a raced one. -/
theorem test_witness_memory_accesses :
    (encAt 4 2 1 1).holds .enc 0x1000 = true ∧ (encAt 4 2 1 1).holds .enc 0x1003 = true ∧
    (encAt 4 2 1 1).holds .enc 0x0FFF = false ∧ (encAt 4 2 1 1).holds .enc 0x1004 = false ∧
    (encAt 4 2 1 1).holds .dec 0x1000 = false ∧ encFailed.holds .enc 0x1002 = true ∧
    ({ encAt 4 2 1 1 with encCustody := .host } : State).holds .enc 0x1000 = false ∧
    (decAt 4 1 3 1).holds .dec 0x2003 = true ∧
    (asked (.memWrite 0x1003 5) (encAt 4 2 1 1)).pending = [.memWrite 0x1003 5] ∧
    (asked (.memRead 0x1000) (encAt 4 2 1 1)).pending = [.memRead 0x1000] ∧
    ({ encAt 4 2 1 1 with mem := [(0x1000, 1)] } : State).mem.read 0x1000 = some 1 ∧
    (encAt 4 2 1 1).mem.read 0x1000 = none ∧ (encAt 4 2 1 1).raced 0x1000 = false ∧
    encUnread.raced 0x1003 = true := by decide

/-- A START that is accepted; an END and a FEED of an open session; an unread result; a window the host gets back, and one it gives up by a START
and by a FEED of a session still open. -/
theorem test_witness_custody :
    (∃ (i : Instr) (s t : State), i.isStart = true ∧ exec i s = .next t ∧ (t.session i.engine).lastRes = .ok) ∧
    (∃ (i : Instr) (s : State), i.isStart = false ∧ (s.session i.engine).phase = .opened ∧ i = .decEnd) ∧
    (∃ (i : Instr) (s : State), i.isStart = false ∧ (s.session i.engine).phase = .opened ∧ i = .encFeed 0 true) ∧
    (∃ (s : State) (rest : List Access), s.custody .enc = .unread ∧ s.pending = .rd s.params .encResult :: rest) ∧
    (∃ s t : State, step s = .next t ∧ s.custody .enc ≠ .host ∧ t.custody .enc = .host) ∧
    (∃ s t : State, step s = .next t ∧ s.custody .enc = .host ∧ t.custody .enc ≠ .host ∧ s.enc.phase = .idle) ∧
    (∃ s t : State, step s = .next t ∧ s.custody .dec = .host ∧ t.custody .dec ≠ .host ∧ s.dec.phase = .opened) :=
  ⟨⟨.decStart, decArgs 0x2000 2, _, by decide, rfl, by decide⟩,
   ⟨.decEnd, decAt 4 4 2 0, by decide⟩, ⟨.encFeed 0 true, encAt 4 2 1 1, by decide⟩,
   ⟨asked (.regRead 0x10 4) encUnread, [], by decide⟩, ⟨asked (.regRead 0x0C 4) encUnread, _, rfl, by decide, by decide⟩,
   ⟨(encArgs 0x1000 6).withFetchWord 32 1, _, rfl, by decide, by decide, by decide⟩,
   ⟨{ decAt 4 1 3 1 with decCustody := .host }.withFetchWord 32 0x1112, _, rfl, by decide, by decide, by decide⟩⟩

/-- A race that starts, one that goes on, one that the host's read settles, and one that a write after the window of
that session is no longer latched ends. -/
theorem test_witness_raced_bytes :
    (∃ s t : State, s.Inv ∧ step s = .next t ∧ s.raced 0x1001 = false ∧ t.raced 0x1001 = true) ∧
    (∃ s t : State, s.Inv ∧ step s = .next t ∧ s.raced 0x1003 = true ∧ t.raced 0x1003 = true) ∧
    (∃ s t : State, s.Inv ∧ step s = .next t ∧ s.raced 0x1003 = true ∧ t.raced 0x1003 = false) ∧
    (∃ s t : State, s.Inv ∧ step s = .next t ∧ s.raced 0x4000 = true ∧ t.mem.read 0x4000 = some 5) :=
  ⟨⟨asked (.memWrite 0x1001 5) encFailed, _, by decide, rfl, by decide, by decide⟩,
   ⟨encUnread.withFetchWord 32 3, _, by decide, rfl, by decide, by decide⟩,
   ⟨asked (.regRead 0x10 4) encUnread, _, by decide, rfl, by decide, by decide⟩,
   ⟨asked (.memWrite 0x4000 5) { encAt 4 2 1 1 with encRaced := [0x4000] }, _, by decide, rfl, by decide, by decide⟩⟩

/-- The byte just below the cursor and the byte just above the slot; the decoder's last byte. -/
theorem test_witness_final_bytes :
    (∃ s t : State, s.Inv ∧ exec (.encFeed 0 true) s = .next t ∧ t.enc.lastRes = .ok ∧ s.enc.phase = .opened ∧
      4 < s.enc.cursor.toNat ∧ s.enc.slot.toNat = 3) ∧
    (∃ s t : State, s.Inv ∧ exec (.decFeed 2 true) s = .next t ∧ t.dec.lastRes = .ok ∧ s.dec.phase = .opened ∧
      s.dec.cursor.toNat = 2) :=
  ⟨⟨encAt 8 5 3 2, _, by decide, rfl, by decide, by decide, by decide, by decide⟩,
   ⟨decAt 4 2 3 0, _, by decide, rfl, by decide, by decide, by decide⟩⟩

theorem test_witness_enc_start :
    (encArgs 0x1000 1).enc.dstCap.toNat < 2 ∧
    2 ^ 32 < (encArgs 0xFFFFFFFF 2).enc.dstBase.toNat + (encArgs 0xFFFFFFFF 2).enc.dstCap.toNat ∧
    2 ≤ (encArgs 0xFFFFFFFE 2).enc.dstCap.toNat ∧
    (encArgs 0xFFFFFFFE 2).enc.dstBase.toNat + (encArgs 0xFFFFFFFE 2).enc.dstCap.toNat ≤ 2 ^ 32 := by decide

theorem test_witness_enc_feed_literal :
    (∃ (s : State) (b : Byte), s.enc.phase = .opened ∧ s.enc.blen ≠ 0xFF#8 ∧ b ≠ 0x00#8 ∧
      s.enc.cursor.toNat < s.enc.winCap.toNat) ∧
    (∃ (s : State) (b : Byte), s.enc.phase = .opened ∧ s.enc.blen ≠ 0xFF#8 ∧ b ≠ 0x00#8 ∧
      s.enc.winCap.toNat ≤ s.enc.cursor.toNat) :=
  ⟨⟨encAt 255 254 0 0xFE, 0xFF, by decide⟩, ⟨encAt 254 254 0 0xFE, 0x01, by decide⟩⟩

theorem test_witness_enc_feed_delimiter : ∃ s : State,
    s.enc.phase = .opened ∧ s.enc.blen ≠ 0xFF#8 ∧ s.enc.cursor.toNat < s.enc.winCap.toNat :=
  ⟨encAt 255 254 0 0xFE, by decide⟩

/-- Room for the new slot only, and room for both. -/
theorem test_witness_enc_feed_capped :
    (∃ s : State, s.enc.phase = .opened ∧ s.enc.blen = 0xFF#8 ∧ s.enc.cursor.toNat + 1 = s.enc.winCap.toNat) ∧
    (∃ s : State, s.enc.phase = .opened ∧ s.enc.blen = 0xFF#8 ∧ s.enc.cursor.toNat + 1 < s.enc.winCap.toNat) :=
  ⟨⟨encAt 256 255 0 0xFF, by decide⟩, ⟨encAt 257 255 0 0xFF, by decide⟩⟩

/-- No room, room for a full block's new slot only, and enough room. -/
theorem test_witness_enc_feed_overflow :
    ((encAt 4 4 0 4).enc.phase = .opened ∧ (encAt 4 4 0 4).enc.Inv) ∧
    ((encAt 256 255 0 0xFF).enc.phase = .opened ∧ (encAt 256 255 0 0xFF).enc.Inv) ∧
    ((encAt 257 255 0 0xFF).enc.phase = .opened ∧ (encAt 257 255 0 0xFF).enc.Inv) :=
  ⟨by decide, by decide, by decide⟩

theorem test_witness_enc_end :
    (∃ s : State, s.enc.phase = .opened ∧ s.enc.cursor.toNat < s.enc.winCap.toNat) ∧
    (∃ s : State, s.enc.phase = .opened ∧ s.enc.winCap.toNat ≤ s.enc.cursor.toNat ∧ s.enc.Inv) :=
  ⟨⟨encAt 6 5 3 2, by decide⟩, ⟨encAt 5 5 0 5, by decide⟩⟩

/-- E40: an encoder session for `11` with one byte of room after its END. -/
theorem test_witness_second_enc_end : ∃ s t : State, s.enc.phase = .opened ∧ s.enc.Inv ∧ exec .encEnd s = .next t ∧
    t.enc.lastRes = .ok ∧ t.enc.cursor.toNat < t.enc.winCap.toNat :=
  ⟨encAt 4 2 0 2, _, by decide, by decide, rfl, by decide, by decide⟩

theorem test_witness_block_ends_at_cursor :
    (∃ s t : State, exec .encStart s = .next t ∧ t.enc.lastRes = .ok) ∧
    (∃ s t : State, s.enc.Filling ∧ exec (.encFeed 0 true) s = .next t) :=
  ⟨⟨encArgs 0x1000 2, _, rfl, by decide⟩, ⟨encAt 255 255 0 0xFF, _, by decide, rfl⟩⟩

theorem test_witness_dec_start :
    (decArgs 0x2000 1).dec.dstCap.toNat < 2 ∧
    2 ^ 32 < (decArgs 0xFFFFFFFF 2).dec.dstBase.toNat + (decArgs 0xFFFFFFFF 2).dec.dstCap.toNat ∧
    2 ≤ (decArgs 0xFFFFFFFE 2).dec.dstCap.toNat ∧
    (decArgs 0xFFFFFFFE 2).dec.dstBase.toNat + (decArgs 0xFFFFFFFE 2).dec.dstCap.toNat ≤ 2 ^ 32 := by decide

theorem test_witness_dec_feed_drops : ∃ s : State, s.dec.phase = .opened ∧ s.dec.discard = true :=
  ⟨{ decAt 8 2 1 0 with dec := { (decAt 8 2 1 0).dec with term := true, discard := true } }, by decide⟩

theorem test_witness_dec_feed_literal :
    (∃ s : State, s.dec.phase = .opened ∧ s.dec.discard = false ∧ s.dec.rem ≠ 0#8 ∧
      s.dec.cursor.toNat < s.dec.winCap.toNat) ∧
    (∃ s : State, s.dec.phase = .opened ∧ s.dec.discard = false ∧ s.dec.rem ≠ 0#8 ∧
      s.dec.winCap.toNat ≤ s.dec.cursor.toNat) :=
  ⟨⟨decAt 2 1 3 1, by decide⟩, ⟨decAt 2 2 4 1, by decide⟩⟩

theorem test_witness_dec_feed_code_byte :
    (∃ s : State, s.dec.phase = .opened ∧ s.dec.discard = false ∧ s.dec.rem = 0#8 ∧ s.dec.pcode = 0xFF#8) ∧
    (∃ s : State, s.dec.phase = .opened ∧ s.dec.discard = false ∧ s.dec.rem = 0#8 ∧ s.dec.pcode ≠ 0xFF#8 ∧
      s.params.legacyChunkZero = true) ∧
    (∃ s : State, s.dec.phase = .opened ∧ s.dec.discard = false ∧ s.dec.rem = 0#8 ∧ s.dec.pcode ≠ 0xFF#8 ∧
      s.params.legacyChunkZero = false ∧ s.dec.cursor.toNat + 1 = s.dec.winCap.toNat) ∧
    (∃ s : State, s.dec.phase = .opened ∧ s.dec.discard = false ∧ s.dec.rem = 0#8 ∧ s.dec.pcode ≠ 0xFF#8 ∧
      s.params.legacyChunkZero = false ∧ s.dec.winCap.toNat = s.dec.cursor.toNat) :=
  ⟨⟨decAt 4 0 0xFF 0, by decide⟩, ⟨legacy (decAt 4 2 3 0), by decide⟩, ⟨decAt 3 2 0xFE 0, by decide⟩,
   ⟨decAt 2 2 3 0, by decide⟩⟩

theorem test_witness_dec_feed_terminator :
    (∃ s : State, s.dec.phase = .opened ∧ s.dec.discard = false ∧ s.dec.rem = 0#8 ∧
      s.params.legacyChunkZero = false) ∧
    (∃ s : State, s.dec.phase = .opened ∧ s.dec.discard = false ∧ s.dec.rem = 0#8 ∧
      s.params.legacyChunkZero = true ∧ s.dec.pcode ≠ 0xFF#8 ∧ s.dec.cursor.toNat + 1 = s.dec.winCap.toNat) ∧
    (∃ s : State, s.dec.phase = .opened ∧ s.dec.discard = false ∧ s.dec.rem = 0#8 ∧
      s.params.legacyChunkZero = true ∧ s.dec.pcode ≠ 0xFF#8 ∧ s.dec.winCap.toNat = s.dec.cursor.toNat) :=
  ⟨⟨decAt 4 4 2 0, by decide⟩, ⟨legacy (decAt 4 3 2 0), by decide⟩, ⟨legacy (decAt 4 4 2 0), by decide⟩⟩

theorem test_witness_dec_end :
    (∃ s : State, s.dec.phase = .opened ∧ s.dec.rem = 0#8) ∧ (∃ s : State, s.dec.phase = .opened ∧ s.dec.rem ≠ 0#8) :=
  ⟨⟨decAt 4 4 2 0, by decide⟩, ⟨decAt 4 1 3 1, by decide⟩⟩

theorem test_witness_second_dec_end : ∃ s t : State, exec .decEnd s = .next t ∧ t.dec.lastRes = .ok :=
  ⟨decAt 4 4 2 0, _, rfl, by decide⟩

theorem test_witness_decode_error :
    ((decAt 4 1 3 1).Inv ∧ (decAt 4 1 3 1).dec.phase = .opened) ∧
    (∃ (i : Instr) (s t : State), s.Inv ∧ i.engine = .enc ∧ exec i s = .next t) :=
  ⟨by decide, ⟨.encEnd, encAt 5 5 0 5, _, by decide, by decide, rfl⟩⟩

theorem test_witness_invalid_argument :
    (∃ (i : Instr) (s t : State), s.Inv ∧ exec i s = .next t ∧ (t.session i.engine).lastRes = .invalidArgument) ∧
    (∃ (i : Instr) (s : State), i.isStart = false ∧ (s.session i.engine).phase = .idle) :=
  ⟨⟨.decStart, decArgs 0x2000 1, _, by decide, rfl, by decide⟩, ⟨.encEnd, State.reset, by decide⟩⟩

theorem test_witness_failed_repeats : ∃ (i : Instr) (s : State),
    i.isStart = false ∧ (s.session i.engine).phase = .failed :=
  ⟨.encEnd, encFailed, by decide⟩

theorem test_witness_failure_entry : ∃ (i : Instr) (s t : State) (u : Engine), exec i s = .next t ∧
    (s.session u).phase ≠ .failed ∧ (t.session u).phase = .failed :=
  ⟨.decFeed 0 false, decAt 2 2 4 1, _, .dec, rfl, by decide, by decide⟩

/-- A recovery by START and one by reset. -/
theorem test_witness_recovery :
    (∃ (s t : State) (u : Engine), step s = .next t ∧ (s.session u).phase = .failed ∧ (t.session u).phase ≠ .failed ∧
      (t.session u).phase = .opened) ∧
    (∃ (s t : State) (u : Engine), step s = .next t ∧ (s.session u).phase = .failed ∧ (t.session u).phase ≠ .failed ∧
      (t.session u).phase = .idle) :=
  ⟨⟨encFailed.withFetchWord 32 1, _, .enc, rfl, by decide, by decide, by decide⟩,
   ⟨asked .reset encFailed, _, .enc, rfl, by decide, by decide, by decide⟩⟩

theorem test_witness_engines_share_nothing :
    (∃ (i : Instr) (s s' t t' : State), exec i s = .next t ∧ exec i s' = .next t' ∧ s.params = s'.params ∧
      i.engine = .enc ∧ s.enc = s'.enc ∧ s.mem = s'.mem ∧ (∀ a, s.raced a = s'.raced a) ∧ s.dec ≠ s'.dec) ∧
    (∃ (i : Instr) (s s' t t' : State), exec i s = .next t ∧ exec i s' = .next t' ∧ s.params = s'.params ∧
      i.engine = .dec ∧ s.dec = s'.dec ∧ s.mem = s'.mem ∧ (∀ a, s.raced a = s'.raced a) ∧ s.enc ≠ s'.enc) :=
  ⟨⟨.encEnd, State.reset, decAt 4 1 3 1, _, _, rfl, rfl, by decide, by decide, by decide, by decide, fun _ => rfl,
    by decide⟩,
   ⟨.decEnd, State.reset, encAt 6 5 3 2, _, _, rfl, rfl, by decide, by decide, by decide, by decide, fun _ => rfl,
    by decide⟩⟩

/-- Both engines open, in windows that meet at `0x2000` and share no address. -/
theorem test_witness_commute : ∃ (i j : Instr) (s a b c d : State), s.Inv ∧ i.engine = .enc ∧ j.engine = .dec ∧
    (∀ k, s.enc.inWindow k = true → s.dec.inWindow k = false) ∧
    exec i s = .next a ∧ exec j a = .next b ∧ exec j s = .next c ∧ exec i c = .next d :=
  ⟨.encEnd, .decFeed 0x11 false, { encAt 0x1000 5 3 2 with dec := (decAt 4 1 3 1).dec, decCustody := .engine }, _, _, _, _, by decide,
    by decide, by decide,
    fun k h =>
      have below : k < 0x2000 := of_decide_eq_true (Bool.and_eq_true_iff.1 h).2
      Bool.and_eq_false_iff.2 (.inl (decide_eq_false (Nat.not_le.2 below))),
    rfl, rfl, rfl, rfl⟩

theorem test_witness_command_runs : ∃ (i : Instr) (s t : State), s.Inv ∧ exec i s = .next t ∧
    (t.session i.engine).lastRes = .ok ∧ t.mem.read 0x1003 ≠ s.mem.read 0x1003 :=
  ⟨.encEnd, encAt 6 5 3 2, _, by decide, rfl, by decide, by decide⟩

theorem test_witness_step_invariant : ∃ s t : State, s.Inv ∧ step s = .next t ∧ s ≠ t :=
  ⟨(encAt 6 5 3 2).withFetchWord 32 3, _, by decide, rfl, by decide⟩

/-- A host write changes an argument register; a START and a reset change the latched window. -/
theorem test_witness_window_changes :
    (∃ (s t : State), step s = .next t ∧ (t.session .dec).dstCap ≠ (s.session .dec).dstCap) ∧
    (∃ (s t : State), step s = .next t ∧ (t.session .enc).winBase ≠ (s.session .enc).winBase) ∧
    (∃ (s t : State), step s = .next t ∧ (t.session .dec).winCap ≠ (s.session .dec).winCap ∧
      (t.session .dec).phase = .idle) :=
  ⟨⟨asked (.regWrite 0x28 4 9) State.reset, _, rfl, by decide⟩,
   ⟨(encArgs 0x1000 6).withFetchWord 32 1, _, rfl, by decide⟩,
   ⟨asked .reset (decAt 4 1 3 1), _, rfl, by decide, by decide⟩⟩

/-- An END sets `RESULT`; a START over an ended session clears it. -/
theorem test_witness_result_changes :
    (∃ (i : Instr) (s t : State) (u : Engine), exec i s = .next t ∧ (t.session u).result ≠ (s.session u).result) ∧
    (∃ (s t : State), exec .decStart s = .next t ∧ (t.session .dec).result ≠ (s.session .dec).result) :=
  ⟨⟨.encEnd, encAt 6 5 3 2, _, .enc, rfl, by decide⟩,
   ⟨{ decAt 4 4 2 0 with dec := { (decAt 4 4 2 0).dec with result := 4 } }, _, rfl, by decide⟩⟩

/-- Each command of the frames, ending `OK`, and a sound state in which it fails. -/
theorem test_witness_frames :
    (∃ s t : State, exec .encStart s = .next t) ∧
    (∃ s t : State, exec (.encFeed 0 true) s = .next t ∧ t.enc.lastRes = .ok ∧
      0x1005 ∉ s.enc.feedStores 0 ∧ 0x1000 ∈ s.enc.feedStores 0) ∧
    (∃ s t : State, exec .encEnd s = .next t ∧ s.enc.Inv ∧ t.enc.lastRes = .bufferOverflow) ∧
    (∃ s t : State, exec .decStart s = .next t) ∧
    (∃ s t : State, exec (.decFeed 0x11 false) s = .next t ∧ s.dec.Inv ∧ t.dec.lastRes = .ok) ∧
    (∃ s t : State, exec .decEnd s = .next t) :=
  ⟨⟨encArgs 0x1000 6, _, rfl⟩, ⟨encAt 300 255 0 0xFF, _, rfl, by decide⟩,
   ⟨encAt 5 5 0 5, _, rfl, by decide, by decide⟩, ⟨decArgs 0x2000 4, _, rfl⟩,
   ⟨decAt 4 1 3 1, _, rfl, by decide, by decide⟩, ⟨decAt 4 4 2 0, _, rfl⟩⟩

theorem test_witness_frame_of_payload : ∀ b ∈ ([0x11, 0xFF] : List Byte), b ≠ 0x00#8 := by decide

/-- A window that just holds the frame, and one that is a byte short. -/
theorem test_witness_encoder_session :
    (2 ≤ (encArgs 0xFFFFFFFD 3).enc.dstCap.toNat ∧
      (encArgs 0xFFFFFFFD 3).enc.dstBase.toNat + (encArgs 0xFFFFFFFD 3).enc.dstCap.toNat ≤ 2 ^ 32 ∧
      (frameOf ([((0x00#8 : Byte), true)].map Prod.fst)).length = (encArgs 0xFFFFFFFD 3).enc.dstCap.toNat) ∧
    (2 ≤ (encArgs 0x1000 2).enc.dstCap.toNat ∧
      (encArgs 0x1000 2).enc.dstBase.toNat + (encArgs 0x1000 2).enc.dstCap.toNat ≤ 2 ^ 32 ∧
      (encArgs 0x1000 2).enc.dstCap.toNat < (frameOf ([((0x00#8 : Byte), true)].map Prod.fst)).length) := by decide

/-- P2 in one byte per chunk under the default rule, and in one chunk under the compatibility rule. -/
theorem test_witness_decoder_session :
    (∃ (input : List (Byte × Bool)) (p : List Byte) (s : State),
      s.params.legacyChunkZero = false ∧ input.map Prod.fst = frameOf p ∧ 2 ≤ s.dec.dstCap.toNat ∧
      s.dec.dstBase.toNat + s.dec.dstCap.toNat ≤ 2 ^ 32 ∧ p.length ≤ s.dec.dstCap.toNat ∧ p ≠ []) ∧
    (∃ (input front : List (Byte × Bool)) (b : Byte) (p : List Byte) (s : State), input = front ++ [(b, true)] ∧
      s.params.legacyChunkZero = true ∧ (∀ x ∈ front, x.2 = false) ∧ input.map Prod.fst = frameOf p ∧
      2 ≤ s.dec.dstCap.toNat ∧ s.dec.dstBase.toNat + s.dec.dstCap.toNat ≤ 2 ^ 32 ∧ p.length ≤ s.dec.dstCap.toNat ∧
      p ≠ []) :=
  ⟨⟨[(3, true), (0x11, true), (0x22, true), (2, true), (0x33, true), (0, true)], [0x11, 0x22, 0, 0x33],
    decArgs 0x2000 4, by decide⟩,
   ⟨[(3, false), (0x11, false), (0x22, false), (2, false), (0x33, false), (0, true)],
    [(3, false), (0x11, false), (0x22, false), (2, false), (0x33, false)], 0, [0x11, 0x22, 0, 0x33],
    legacy (decArgs 0x2000 4), rfl, by decide, by simp, by decide⟩⟩

/-- P1 after its first three FEEDs: one open block with the literals `11 22`, then fed a `0x00`; and its END. -/
theorem test_witness_encoding_so_far :
    (∃ s t : State, exec .encStart s = .next t ∧ t.enc.lastRes = .ok) ∧
    (∃ s t : State, s.enc.Inv ∧ s.Encoding [0x11, 0x22] ∧ exec (.encFeed 0 false) s = .next t ∧ t.enc.lastRes = .ok) ∧
    (∃ s t : State, s.enc.Inv ∧ s.Encoding [0x11, 0x22] ∧ exec .encEnd s = .next t ∧ t.enc.lastRes = .ok) := by
  have h : ({ encAt 6 3 0 3 with mem := [(0x1001, 0x11), (0x1002, 0x22)] } : State).Encoding [0x11, 0x22] :=
    ⟨[], [0x11, 0x22], by decide, by decide, by decide, by decide, by decide,
      fun k hk => absurd hk (Nat.not_lt_zero k),
      fun k hk _ => by
        have : k = 0 ∨ k = 1 := by change k < 2 at hk; omega
        rcases this with rfl | rfl <;> decide⟩
  exact ⟨⟨encArgs 0x1000 6, _, rfl, by decide⟩, ⟨_, _, by decide, h, rfl, by decide⟩,
    ⟨_, _, by decide, h, rfl, by decide⟩⟩

theorem test_witness_fewer_than_fed : ∃ (input : List (Byte × Bool)) (s t : State), input ≠ [] ∧
    2 ≤ s.dec.dstCap.toNat ∧ s.dec.dstBase.toNat + s.dec.dstCap.toNat ≤ 2 ^ 32 ∧
    runAll (decFeeds input) s = .next t ∧ t.dec.cursor.toNat + 1 = input.length :=
  ⟨[(2, false), (0x11, true)], decArgs 0x2000 4, _, by decide, by decide, by decide, rfl, by decide⟩

theorem test_witness_stopping_early :
    (∃ base cap : Word, 2 ≤ cap.toNat ∧ base.toNat + cap.toNat ≤ 2 ^ 32) ∧
    State.reset.enc.phase = .idle ∧ State.reset.dec.phase = .idle :=
  ⟨⟨0xFFFFFFFE, 2, by decide⟩, by decide⟩

end Sys2Proof.Tests
end

section
/-! The state: what a host access of the register block does, what a command leaves of both engines' registers, and that
every step keeps the state sound (10_state.md). -/
namespace Sys2Proof.Machine

/-! ### The register block (10_state.md section 6) -/

/-- A register read is served in one step, at whatever address `CODEC_BASE` puts the register. -/
theorem step_regRead {s : State} {rest : List Access} {r : Reg}
    (hp : s.pending = .regRead (r.address s.params) 4 :: rest) :
    step s = .next { State.afterRead { s with pending := rest } r with readData := some (s.readReg r) } := by
  rw [step_serve hp rfl]
  simp only [serve, serveRegRead, selectedReg_address]
  cases r <;> rfl

/-- A write of any register but `CMD` is served in one step. -/
theorem step_regWrite {s : State} {rest : List Access} {r : Reg} {v : Word} (hr : r ≠ .cmd)
    (hp : s.pending = .regWrite (r.address s.params) 4 v :: rest) :
    step s = .next { s.writeReg r v with pending := rest } := by
  rw [step_serve hp (by simp [Access.command?, selectedReg_address, hr])]
  simp only [serve, serveRegWrite, selectedReg_address]
  cases r <;> rfl

/-- The status word as a number: each field at its bit (10_state.md R39). -/
theorem Session.toNat_status (x : Session) (term discard : Bool) :
    (x.status term discard).toNat = statusNumber x term discard := by
  simp only [Session.status, statusNumber]
  cases x.phase <;> cases x.lastRes <;> cases x.failErr <;> cases term <;> cases discard <;> rfl

/-- A register read changes no register, and no byte of memory that is not raced for (10_state.md R40). -/
theorem State.afterRead_keeps (s : State) (r : Reg) :
    (s.afterRead r).params = s.params ∧ (s.afterRead r).enc = s.enc ∧ (s.afterRead r).dec = s.dec ∧
    (s.afterRead r).pending = s.pending ∧ ∀ a, s.raced a = false → (s.afterRead r).mem.read a = s.mem.read a := by
  rcases s.afterRead_cases r with h | ⟨u, _, _, h⟩ <;> rw [h]
  · exact ⟨rfl, rfl, rfl, rfl, fun _ _ => rfl⟩
  · refine ⟨by cases u <;> rfl, by cases u <;> rfl, by cases u <;> rfl, by cases u <;> rfl, fun a ha => ?_⟩
    obtain ⟨he, hd⟩ := State.raced_false_iff.1 ha
    exact State.read_release_other (by cases u <;> assumption)

/-- A read of a register that shows no END's result leaves the record of the windows alone. -/
theorem State.afterRead_of_no_result {r : Reg} (h : r.endResultOf = none) (s : State) : s.afterRead r = s := by
  simp [State.afterRead, h]

/-- A register shows an END's result exactly at the offsets of `<E>_STATUS` and `<E>_RESULT` (10_state.md R39). -/
theorem Reg.endResultOf_eq_none {r : Reg} (h : r.offset ∉ [0x0C, 0x10, 0x2C, 0x30]) : r.endResultOf = none := by
  cases r <;> simp [Reg.offset] at h <;> rfl

/-- Settles O9: the map's sixteen rows are the registers with the values they read as, and one read serves them all. -/
theorem registerReads : Obligations.RegisterReads := by
  intro s rest x hx hp
  obtain ⟨r, rfl⟩ : ∃ r : Reg, x = (r.offset, (s.readReg r).toNat) := by
    have hrows : x ∈ Reg.all.map (fun r => (r.offset, (s.readReg r).toNat)) := by
      simpa [-BitVec.toNat_setWidth, BitVec.toNat_setWidth_of_le, Reg.all, Reg.offset, State.readReg, Enc.status,
        Dec.status, Session.toNat_status] using hx
    obtain ⟨r, -, hr⟩ := List.mem_map.1 hrows
    exact ⟨r, hr.symm⟩
  obtain ⟨hparams, henc, hdec, hpending, hmem⟩ := State.afterRead_keeps { s with pending := rest } r
  refine ⟨_, _, step_regRead hp, rfl, rfl, hparams, henc, hdec, hpending, hmem, fun hoff => ?_⟩
  rw [State.afterRead_of_no_result (Reg.endResultOf_eq_none hoff)]

/-- Settles O10: the fifteen rows are the registers but `CMD` with what a write of each leaves. -/
theorem registerWrites : Obligations.RegisterWrites := by
  intro s rest v x hx hp
  obtain ⟨r, hr, rfl⟩ : ∃ r : Reg, r ≠ .cmd ∧ x = (r.offset, s.writeReg r v) := by
    have hrows : x ∈ (Reg.all.filter (· ≠ .cmd)).map (fun r => (r.offset, s.writeReg r v)) := hx
    obtain ⟨r, hmem, hr⟩ := List.mem_map.1 hrows
    exact ⟨r, by simpa using List.of_mem_filter hmem, hr.symm⟩
  exact step_regWrite hr hp

/-- Settles O6: `CMD` stands at `CODEC_BASE`, so the write issues its word, and the word's command runs. -/
theorem stepRunsDecodedCommand : Obligations.StepRunsDecodedCommand := by
  intro s rest w i hp hd _
  have hcmd : Access.command? s.params (.regWrite s.params.codecBase 4 w) = some w := by
    simpa [Access.wr, Reg.address, Reg.offset] using command?_wr_cmd s.params w
  rw [step_command hp hcmd, issue, hd]

/-- The offset of a bus address that lies `off` above `CODEC_BASE`. -/
theorem busOffset_add (p : Config.Params) {off : Nat} (h : off < 2 ^ 32) :
    busOffset p (p.codecBase + BitVec.ofNat 32 off) = off := by
  rw [busOffset, BitVec.add_comm, BitVec.add_sub_cancel, BitVec.toNat_ofNat, Nat.mod_eq_of_lt h]

/-- An access at or past the block's end selects no register. -/
theorem selectedReg_outside {p : Config.Params} {addr : Word} (size : Nat) (h : 64 ≤ busOffset p addr) :
    selectedReg p addr size = none := by
  have : ¬ busOffset p addr < 64 := by omega
  simp [selectedReg, wellShaped, this]

/-- A register access that touches no byte of the block faults (log entry 4). -/
theorem badRegisterAccess_outside {p : Config.Params} {addr : Word} {size : Nat} (h : 64 ≤ busOffset p addr)
    (hend : busOffset p addr + size ≤ 2 ^ 32) : badRegisterAccess p addr size = .fault .outsideRegisterBlock := by
  have hout : touchesBlock p addr size = false := by
    simp only [touchesBlock, Config.blockBytes, Bool.or_eq_false_iff, decide_eq_false_iff_not]; omega
  simp [badRegisterAccess, hout]

/-- Settles O12: such an access selects no register and touches no byte of the block. -/
theorem outsideBlockFaults : Obligations.OutsideBlockFaults := by
  intro s rest off size v hlo hend hoff
  have hbus := busOffset_add s.params hoff
  have hsel := selectedReg_outside size (hlo.trans_eq hbus.symm)
  have hbad := badRegisterAccess_outside (hlo.trans_eq hbus.symm) (hbus.symm ▸ hend)
  refine ⟨fun hp => ?_, fun hp => ?_⟩
  · rw [step_serve hp rfl]; simp only [serve, serveRegRead, hsel, hbad]
  · rw [step_serve hp (by simp [Access.command?, hsel])]; simp only [serve, serveRegWrite, hsel, hbad]

/-! ### What a command can do to the registers both engines have -/

/-- A command leaves the registers of the other engine (10_state.md R20). -/
theorem exec_session_other {i : Instr} {s t : State} {u : Engine} (h : exec i s = .next t) (hu : i.engine ≠ u) :
    t.session u = s.session u := by
  cases u <;> cases hi : i.engine
  · exact absurd hi hu
  · rw [exec_dec hi] at h; cases h; rfl
  · rw [exec_enc hi] at h; cases h; rfl
  · exact absurd hi hu

/-- What a command can do to the registers both engines have, of its own engine: refused, the stored error repeated, a
session opened, failure entry, or success (60_exceptions.md R184 to R188). -/
theorem exec_session_cases {i : Instr} {s t : State} {x y : Session} (h : exec i s = .next t)
    (hx : s.session i.engine = x) (hy : t.session i.engine = y) :
    (i.isStart = false ∧ x.phase = .idle ∧ y = x.invalid) ∨
    (i.isStart = true ∧ x.windowRefused = true ∧ y = x.invalid) ∨
    (i.isStart = false ∧ x.phase = .failed ∧ y = x.repeatError) ∨
    (i.isStart = true ∧ x.windowRefused = false ∧ ∃ c, y = x.openAt c) ∨
    (x.phase = .opened ∧ y.phase = .failed ∧ y.SameWindow x ∧ y.result = x.result) ∨
    (x.phase = .opened ∧ y.phase = .opened ∧ y.SameWindow x ∧ y.lastRes = .ok ∧
      (y.result = x.result ∨ (i = .encEnd ∨ i = .decEnd) ∧ y.result = y.cursor)) := by
  cases hi : i.engine with
  | enc =>
    rw [hi] at hx hy
    rw [exec_enc hi] at h; cases h; subst hx hy
    simp only [State.session_enc, State.commitEnc_enc]
    rcases encEffect_cases i hi s.enc with ⟨hs, hp, he⟩ | ⟨hs, hw, he⟩ | ⟨hs, hp, he⟩ | ⟨hs, hw, he⟩ |
      ⟨_, hp, hf, _, _, hr, hw⟩ | ⟨_, hp, ho, _, hok, hw, hr⟩
    · rw [he]; exact .inl ⟨hs, hp, rfl⟩
    · rw [he]; exact .inr (.inl ⟨hs, hw, rfl⟩)
    · rw [he]; exact .inr (.inr (.inl ⟨hs, hp, rfl⟩))
    · rw [he]; exact .inr (.inr (.inr (.inl ⟨hs, hw, 1, rfl⟩)))
    · exact .inr (.inr (.inr (.inr (.inl ⟨hp, hf, hw, hr⟩))))
    · exact .inr (.inr (.inr (.inr (.inr ⟨hp, ho, hw, hok, hr.imp_right (.imp_left .inl)⟩))))
  | dec =>
    rw [hi] at hx hy
    rw [exec_dec hi] at h; cases h; subst hx hy
    simp only [State.session_dec, State.commitDec_dec]
    rcases decEffect_cases i hi s.params.legacyChunkZero s.dec with ⟨hs, hp, he⟩ | ⟨hs, hw, he⟩ | ⟨hs, hp, he⟩ |
      ⟨hs, hw, he⟩ | ⟨_, hp, hf, _, _, hr, hw⟩ | ⟨_, hp, ho, _, hok, hw, hr⟩
    · rw [he]; exact .inl ⟨hs, hp, rfl⟩
    · rw [he]; exact .inr (.inl ⟨hs, hw, rfl⟩)
    · rw [he]; exact .inr (.inr (.inl ⟨hs, hp, rfl⟩))
    · rw [he]; exact .inr (.inr (.inr (.inl ⟨hs, hw, 0, rfl⟩)))
    · exact .inr (.inr (.inr (.inr (.inl ⟨hp, hf, hw, hr⟩))))
    · exact .inr (.inr (.inr (.inr (.inr ⟨hp, ho, hw, hok, hr.imp_right (.imp_left .inr)⟩))))

/-- A command opens a session in the window of the argument registers, or leaves argument registers and window
(10_state.md R27). -/
theorem exec_window {i : Instr} {s t : State} (h : exec i s = .next t) :
    (i.isStart = true ∧ ∃ c, t.session i.engine = (s.session i.engine).openAt c) ∨
    (t.session i.engine).SameWindow (s.session i.engine) := by
  rcases exec_session_cases h rfl rfl with ⟨_, _, he⟩ | ⟨_, _, he⟩ | ⟨_, _, he⟩ | ⟨hs, _, ho⟩ | ⟨_, _, hw, _⟩ |
    ⟨_, _, hw, _⟩
  · rw [he]; exact .inr ⟨rfl, rfl, rfl, rfl⟩
  · rw [he]; exact .inr ⟨rfl, rfl, rfl, rfl⟩
  · rw [he]; exact .inr ⟨rfl, rfl, rfl, rfl⟩
  · exact .inl ⟨hs, ho⟩
  · exact .inr hw
  · exact .inr hw

/-- A command that leaves its engine in `IDLE` found it there, and if it is a START its window was refused. -/
theorem exec_idle {i : Instr} {s t : State} (h : exec i s = .next t) (ht : (t.session i.engine).phase = .idle) :
    (s.session i.engine).phase = .idle ∧ (i.isStart = true → (s.session i.engine).windowRefused = true) := by
  rcases exec_session_cases h rfl rfl with ⟨hs, hp, _⟩ | ⟨_, hw, he⟩ | ⟨_, hp, he⟩ | ⟨_, _, c, he⟩ | ⟨_, hp, _⟩ |
    ⟨_, hp, _⟩
  · exact ⟨hp, by simp [hs]⟩
  · rw [he] at ht; exact ⟨ht, fun _ => hw⟩
  · rw [he, Session.repeatError_phase, hp] at ht; cases ht
  · rw [he] at ht; cases ht
  · rw [hp] at ht; cases ht
  · rw [hp] at ht; cases ht

/-- No command changes an argument register (10_state.md R37). -/
theorem exec_args {i : Instr} {s t : State} (h : exec i s = .next t) (u : Engine) :
    (t.session u).dstBase = (s.session u).dstBase ∧ (t.session u).dstCap = (s.session u).dstCap := by
  by_cases hu : i.engine = u
  · subst hu
    rcases exec_window h with ⟨_, c, ho⟩ | ⟨hbase, hcap, _, _⟩
    · rw [ho]; exact ⟨rfl, rfl⟩
    · exact ⟨hbase, hcap⟩
  · rw [exec_session_other h hu]; exact ⟨rfl, rfl⟩

/-- A malformed word leaves argument registers and window (30_encoding.md R88). -/
theorem State.malformed_sameWindow (s : State) (v u : Engine) :
    ((s.malformed v).session u).SameWindow (s.session u) := by
  cases v <;> cases u <;> exact ⟨rfl, rfl, rfl, rfl⟩

/-- The argument registers of an engine (10_state.md R37). -/
def argRegs : Engine → List Reg
  | .enc => [.encDstBase, .encDstCap]
  | .dec => [.decDstBase, .decDstCap]

/-- A register write leaves the latched window, and the argument registers unless it names one. -/
theorem State.writeReg_window (s : State) (r : Reg) (v : Word) (u : Engine) :
    (((s.writeReg r v).session u).winBase = (s.session u).winBase ∧
      ((s.writeReg r v).session u).winCap = (s.session u).winCap) ∧
    (r ∈ argRegs u ∨ (s.writeReg r v).session u = s.session u) := by
  cases r <;> cases u <;> simp [State.writeReg, State.writeDstBase, State.writeDstCap, argRegs]

/-- Settles O47: of what a command can do, only a session opened and an END that ends `OK` change `RESULT`. -/
theorem resultChangesOnlyAtEndAndStart : Obligations.ResultChangesOnlyAtEndAndStart := by
  intro i s t u h hne
  have hu : i.engine = u := by
    by_contra hu; exact hne (by rw [exec_session_other h hu])
  subst hu
  rcases exec_session_cases h rfl rfl with ⟨_, _, he⟩ | ⟨_, _, he⟩ | ⟨_, _, he⟩ | ⟨hs, _, c, ho⟩ | ⟨_, _, _, hr⟩ |
    ⟨_, _, _, hok, hr | ⟨hend, hr⟩⟩
  · exact absurd (by rw [he]; rfl) hne
  · exact absurd (by rw [he]; rfl) hne
  · exact absurd (by rw [he]; rfl) hne
  · rw [ho]; exact ⟨rfl, rfl, .inl ⟨hs, rfl⟩⟩
  · exact absurd hr hne
  · exact absurd hr hne
  · exact ⟨rfl, hok, .inr ⟨hend, hr⟩⟩

/-- Settles O46, by what a step can do: only an opened session latches a window, and only a register
write or a reset reaches an argument register. -/
theorem windowChangesOnlyAtStart : Obligations.WindowChangesOnlyAtStart := by
  intro s t u h
  rcases step_cases s with ⟨_, hstep⟩ | ⟨a, rest, hp, ⟨w, i, hw, hd, hstep⟩ | ⟨w, _, _, _, hstep⟩ | ⟨_, hstep⟩⟩ <;>
    rw [hstep] at h
  · cases h; simp
  · obtain ⟨hbase, hcap⟩ := exec_args h u
    refine ⟨fun hne => (hne.elim (· hbase) (· hcap)).elim, fun hne => .inl ⟨a, rest, w, i, hp, hw, hd, ?_⟩⟩
    have hu : i.engine = u := by
      by_contra hu
      rw [exec_session_other h hu] at hne
      exact hne.elim (· rfl) (· rfl)
    subst hu
    rcases exec_window h with ⟨hs, c, ho⟩ | ⟨_, _, hwb, hwc⟩
    · rw [ho]; exact ⟨rfl, hs, rfl, rfl, rfl⟩
    · exact (hne.elim (· hwb) (· hwc)).elim
  · cases h
    obtain ⟨hbase, hcap, hwb, hwc⟩ := State.malformed_sameWindow { s with pending := rest } (unitField w) u
    exact ⟨fun hne => (hne.elim (· hbase) (· hcap)).elim, fun hne => (hne.elim (· hwb) (· hwc)).elim⟩
  · rcases serve_regs h with ⟨addr, v, r, rfl, hsel, rfl⟩ | ⟨he, hd, _, _⟩ | ⟨rfl, _⟩ | ⟨w, rfl, _⟩
    · obtain ⟨⟨hwb, hwc⟩, hr⟩ := State.writeReg_window { s with pending := rest } r v u
      refine ⟨fun hne => .inl ⟨addr, v, rest, r, hp, hsel, ?_⟩, fun hne => (hne.elim (· hwb) (· hwc)).elim⟩
      rcases hr with hr | hr
      · cases u <;> exact hr
      · rw [hr] at hne; exact (hne.elim (· rfl) (· rfl)).elim
    · have hs : t.session u = s.session u := by cases u <;> simp [he, hd]
      simp [hs]
    · exact ⟨fun _ => .inr (.inl ⟨rest, hp⟩), fun _ => .inr (.inl ⟨rest, hp⟩)⟩
    · exact ⟨fun _ => .inr (.inr ⟨w, rest, hp⟩), fun _ => .inr (.inr ⟨w, rest, hp⟩)⟩

/-- Settles O40: a command's effect is a function of its own engine's registers, and its writes land in the same way
where memory and the raced bytes are the same. -/
theorem enginesShareNoState : Obligations.EnginesShareNoState := by
  intro i s s' t t' h h' hparams
  refine ⟨fun hi => ?_, fun hi => ?_⟩
  · rw [exec_enc hi] at h h'; cases h; cases h'
    refine ⟨rfl, fun he => ⟨by simp [he], fun hm hr _ => ?_⟩⟩
    simp only [State.commitEnc_mem, he]; exact State.land_congr _ hm hr
  · rw [exec_dec hi] at h h'; cases h; cases h'
    refine ⟨rfl, fun hd => ⟨by simp [hd, hparams], fun hm hr _ => ?_⟩⟩
    simp only [State.commitDec_mem, hd, hparams]; exact State.land_congr _ hm hr

/-! ### The block being filled (10_state.md R24, R25) -/

/-- A block with room for a literal counts it without wrapping. -/
theorem Enc.toNat_blen_succ {e : Enc} (h : e.blen ≠ 0xFF#8) : (e.blen + 1).toNat = e.blen.toNat + 1 := by
  have := BitVec.toNat_ne.1 h
  bv_omega

/-- A block just opened is its slot alone, below the cursor (40_encoder.md R115, R117). -/
theorem Enc.openBlock_filling {e : Enc} (hf : e.full = false) : e.openBlock.Filling := Session.toNat_succ_of_room hf

/-- A byte against a block that is not full adds to the block, opens a new one or leaves it. -/
theorem Enc.Filling.consume {e : Enc} (h : e.Filling) (hb : e.blen ≠ 0xFF#8) (b : Byte) :
    (e.consume b).regs.Filling := by
  rcases e.consume_cases b with ⟨_, hr, _⟩ | ⟨hf, _, hr⟩ | ⟨hf, _, hr⟩ <;> rw [hr]
  · exact h
  · have hcur := Session.toNat_succ_of_room hf
    have hblen := Enc.toNat_blen_succ hb
    simp only [Enc.Filling] at h
    simp only [Enc.Filling, Enc.succeed_toSession, Session.succeed_cursor, Session.advance_cursor, Enc.succeed_slot,
      Enc.succeed_blen, hcur, hblen]
    omega
  · exact Enc.openBlock_filling hf

theorem Enc.Filling.feed {e : Enc} (h : e.Filling) (b : Byte) : (e.feed b).regs.Filling := by
  unfold Enc.feed
  rcases e.whenOpen_cases (Enc.feedOpen b) with ⟨_, hr⟩ | ⟨_, hr⟩ | ⟨_, hr⟩ <;> rw [hr]
  · exact h
  · exact h
  · rcases e.feedOpen_cases b with ⟨_, _, hr⟩ | ⟨_, hf, hr⟩ | ⟨hb, hr⟩ <;> rw [hr]
    · exact h
    · exact (Enc.openBlock_filling hf).consume (by simp) b
    · exact h.consume hb b

/-- Settles O26: a START that ends `OK` opens a block of one slot below the cursor, and a FEED keeps the block there. -/
theorem blockEndsAtCursor : Obligations.BlockEndsAtCursor := by
  refine ⟨fun s t h hok => ?_, fun s t b last hfill h => ?_⟩
  · rw [exec_enc rfl] at h; cases h
    change s.enc.start.regs.lastRes = .ok at hok
    change s.enc.start.regs.Filling
    cases hw : s.enc.windowRefused
    · rw [Enc.start_accepted hw]; rfl
    · rw [Enc.start_refused hw] at hok; cases hok
  · rw [exec_enc rfl] at h; cases h
    exact hfill.feed b

/-! ### The registers both engines have (10_state.md R23, R29 to R31) -/

/-- The window START accepts (40_encoder.md R110, 41_decoder.md R140). -/
theorem Session.windowRefused_false_iff {x : Session} :
    x.windowRefused = false ↔
      Config.minCap ≤ x.dstCap.toNat ∧ x.dstBase.toNat + x.dstCap.toNat ≤ Config.addrSpace := by
  simp only [Session.windowRefused, Bool.or_eq_false_iff, decide_eq_false_iff_not, Nat.not_lt]

theorem Session.Inv.fail {x : Session} (h : x.Inv) (hp : x.phase = .opened) {c : Result}
    (hc : c = .bufferOverflow ∨ c = .decodeError) : (x.fail c).Inv := by
  obtain ⟨hcur, hres, hwin, hcap, -, -⟩ := h
  exact ⟨hcur, hres, hwin, fun _ => hcap (by simp [hp]), fun _ => hc, fun hne => absurd rfl hne⟩

theorem Session.Inv.advance {x : Session} (h : x.Inv) (hf : x.full = false) : x.advance.Inv := by
  obtain ⟨-, hrest⟩ := h
  refine ⟨?_, hrest⟩
  rw [Session.advance_cursor, Session.toNat_succ_of_room hf]
  exact (Session.not_full_iff x).1 hf

/-- `RESULT` may take any length that fits the window (10_state.md R31). -/
theorem Session.Inv.setResult {x : Session} (h : x.Inv) {r : Word} (hr : r.toNat ≤ x.winCap.toNat) :
    Session.Inv { x with result := r } := by
  obtain ⟨hcur, -, hrest⟩ := h
  exact ⟨hcur, hr, hrest⟩

theorem Session.openAt_inv {x : Session} (hw : x.windowRefused = false) {c : Word} (hc : c.toNat ≤ Config.minCap) :
    (x.openAt c).Inv := by
  obtain ⟨hcap, hwin⟩ := Session.windowRefused_false_iff.1 hw
  exact ⟨hc.trans hcap, Nat.zero_le _, hwin, fun _ => hcap, fun hp => by simp at hp, fun _ => rfl⟩

/-! ### The encoder (10_state.md R24, R25, R29) -/

/-- A command that only sets `LASTRES` keeps the encoder sound. -/
theorem Enc.Inv.setLastRes {e : Enc} (h : e.Inv) (r : Result) : Enc.Inv { e with lastRes := r } := h

theorem Enc.Inv.fail {e : Enc} (h : e.Inv) (hp : e.phase = .opened) : (e.fail .bufferOverflow).Inv := by
  obtain ⟨hs, -, hblock⟩ := h
  exact ⟨hs.fail hp (.inl rfl), by simp, fun _ => hblock (by simp [hp])⟩

theorem Enc.Inv.openBlock {e : Enc} (h : e.Inv) (hf : e.full = false) : e.openBlock.Inv := by
  obtain ⟨hs, herr, -⟩ := h
  refine ⟨hs.advance hf, herr, fun _ => ⟨(Session.not_full_iff _).1 hf, Nat.le_refl _, ?_⟩⟩
  exact (Session.toNat_succ_of_room hf).ge

/-- A literal goes into a block that is not full. -/
theorem Enc.Inv.addLiteral {e : Enc} (h : e.Inv) (hp : e.phase = .opened) (hf : e.full = false) (hb : e.blen ≠ 0xFF#8) :
    Enc.Inv { e with toSession := e.toSession.advance, blen := e.blen + 1 } := by
  obtain ⟨hs, herr, hblock⟩ := h
  obtain ⟨hslot, hpos, hend⟩ := hblock (by simp [hp])
  have hcur := Session.toNat_succ_of_room hf
  have hblen := Enc.toNat_blen_succ hb
  refine ⟨hs.advance hf, herr, fun _ => ⟨hslot, by simp only [hblen]; omega, ?_⟩⟩
  simp only [Session.advance_cursor, hcur, hblen]; omega

theorem Enc.Inv.consume {e : Enc} (h : e.Inv) (hp : e.phase = .opened) (hb : e.blen ≠ 0xFF#8) (b : Byte) :
    (e.consume b).regs.Inv := by
  rcases e.consume_cases b with ⟨_, hr, _⟩ | ⟨hf, _, hr⟩ | ⟨hf, _, hr⟩ <;> rw [hr]
  · exact h.fail hp
  · exact (h.addLiteral hp hf hb).setLastRes .ok
  · exact (h.openBlock hf).setLastRes .ok

theorem Enc.Inv.whenOpen {e : Enc} (h : e.Inv) {f : Enc → Effect Enc} (hf : e.phase = .opened → (f e).regs.Inv) :
    (e.whenOpen f).regs.Inv := by
  rcases e.whenOpen_cases f with ⟨_, hr⟩ | ⟨_, hr⟩ | ⟨hp, hr⟩ <;> rw [hr]
  · exact h.setLastRes .invalidArgument
  · exact h.setLastRes e.failErr
  · exact hf hp

theorem Enc.Inv.feed {e : Enc} (h : e.Inv) (b : Byte) : (e.feed b).regs.Inv := by
  refine h.whenOpen fun hp => ?_
  rcases e.feedOpen_cases b with ⟨_, _, hr⟩ | ⟨_, hf, hr⟩ | ⟨hb, hr⟩ <;> rw [hr]
  · exact h.fail hp
  · exact (h.openBlock hf).consume hp (by simp) b
  · exact h.consume hp hb b

theorem Enc.Inv.finish {e : Enc} (h : e.Inv) : e.finish.regs.Inv := by
  refine h.whenOpen fun hp => ?_
  rcases e.finishOpen_cases with ⟨_, hr⟩ | ⟨hf, hr⟩ <;> rw [hr]
  · exact h.fail hp
  · obtain ⟨hs, herr, hblock⟩ := h
    obtain ⟨hslot, hpos, hend⟩ := hblock (by simp [hp])
    have hcur := Session.toNat_succ_of_room hf
    have hadv := hs.advance hf
    refine ⟨hadv.setResult hadv.1, herr, fun _ => ⟨hslot, hpos, ?_⟩⟩
    simp only [Enc.succeed_toSession, Session.succeed_cursor, Session.advance_cursor, Enc.succeed_slot,
      Enc.succeed_blen, hcur]
    omega

theorem Enc.Inv.start {e : Enc} (h : e.Inv) : e.start.regs.Inv := by
  cases hw : e.windowRefused
  · rw [Enc.start_accepted hw]
    obtain ⟨hcap, -⟩ := Session.windowRefused_false_iff.1 hw
    refine ⟨Session.openAt_inv hw (by decide), by simp, fun _ => ⟨?_, Nat.le_refl 1, Nat.le_refl 1⟩⟩
    exact Nat.lt_of_lt_of_le (Nat.zero_lt_two) hcap
  · rw [Enc.start_refused hw]; exact h.setLastRes .invalidArgument

/-- Every command keeps the encoder sound. -/
theorem Enc.Inv.effect {e : Enc} (h : e.Inv) (i : Instr) : (Instr.encEffect i e).regs.Inv := by
  cases i with
  | encStart => exact h.start
  | encFeed b _ => exact h.feed b
  | encEnd => exact h.finish
  | decStart => exact h
  | decFeed _ _ => exact h
  | decEnd => exact h

/-! ### The decoder (10_state.md R32, R33, R35) -/

/-- A command that only sets `LASTRES` keeps the decoder sound. -/
theorem Dec.Inv.setLastRes {d : Dec} (h : d.Inv) (r : Result) : Dec.Inv { d with lastRes := r } := h

theorem Dec.Inv.fail {d : Dec} (h : d.Inv) (hp : d.phase = .opened) {c : Result}
    (hc : c = .bufferOverflow ∨ c = .decodeError) : (d.fail c).Inv := by
  obtain ⟨hs, hrem, hdisc⟩ := h
  exact ⟨hs.fail hp hc, fun _ => hrem (by simp [hp]), hdisc⟩

theorem Dec.Inv.advance {d : Dec} (h : d.Inv) (hf : d.full = false) :
    Dec.Inv { d with toSession := d.toSession.advance } := by
  obtain ⟨hs, hrest⟩ := h
  exact ⟨hs.advance hf, hrest⟩

/-- Dropping may end at any byte (41_decoder.md R146, R160). -/
theorem Dec.Inv.endDiscard {d : Dec} (h : d.Inv) {x : Bool} (hx : x = true → d.discard = true) :
    Dec.Inv { d with discard := x } := by
  obtain ⟨hs, hrem, hdisc⟩ := h
  exact ⟨hs, hrem, fun h => hdisc (hx h)⟩

/-- A literal that is due is one less to come. -/
theorem Dec.Inv.literal {d : Dec} (h : d.Inv) (hp : d.phase = .opened) (hd : d.discard = false) (hr : d.rem ≠ 0#8)
    (b : Byte) : (d.literal b).regs.Inv := by
  rcases d.literal_cases b with ⟨_, he⟩ | ⟨_, _, he⟩ | ⟨_, hf, he⟩ <;> rw [he]
  · exact h.fail hp (.inr rfl)
  · exact h.fail hp (.inl rfl)
  · obtain ⟨hs, hrem, -⟩ := h
    have hlt := hrem (by simp [hp])
    refine ⟨hs.advance hf, fun _ => ?_, fun h => absurd (hd.symm.trans h) (by decide)⟩
    simp only [Dec.succeed_rem, Dec.succeed_pcode]
    bv_omega

/-- A code announces one literal less than its value; a terminator is read where no literal is due. -/
theorem Dec.Inv.readCode {d : Dec} (h : d.Inv) (hd : d.discard = false) (hr : d.rem = 0#8) (b : Byte) (last : Bool) :
    (d.readCode b last).Inv := by
  obtain ⟨hs, hrem, -⟩ := h
  by_cases hb : b = 0#8
  · subst hb
    rw [Dec.readCode_terminator]
    exact ⟨hs, hrem, fun _ => ⟨rfl, hr⟩⟩
  · rw [Dec.readCode_code hb]
    refine ⟨hs, fun _ => ?_, fun h => absurd (hd.symm.trans h) (by decide)⟩
    simp only [Dec.succeed_rem, Dec.succeed_pcode]
    bv_omega

theorem Dec.Inv.codeByte {d : Dec} (h : d.Inv) (hp : d.phase = .opened) (hd : d.discard = false) (hr : d.rem = 0#8)
    (legacy : Bool) (b : Byte) (last : Bool) : (d.codeByte legacy b last).regs.Inv := by
  rcases d.codeByte_cases legacy b last with ⟨_, he⟩ | ⟨_, _, he⟩ | ⟨_, hf, he⟩ <;> rw [he]
  · exact h.readCode hd hr b last
  · exact h.fail hp (.inl rfl)
  · exact (h.advance hf).readCode hd hr b last

theorem Dec.Inv.whenOpen {d : Dec} (h : d.Inv) {f : Dec → Effect Dec} (hf : d.phase = .opened → (f d).regs.Inv) :
    (d.whenOpen f).regs.Inv := by
  rcases d.whenOpen_cases f with ⟨_, hr⟩ | ⟨_, hr⟩ | ⟨hp, hr⟩ <;> rw [hr]
  · exact h.setLastRes .invalidArgument
  · exact h.setLastRes d.failErr
  · exact hf hp

theorem Dec.Inv.feed {d : Dec} (h : d.Inv) (legacy : Bool) (b : Byte) (last : Bool) :
    (d.feed legacy b last).regs.Inv := by
  refine h.whenOpen fun hp => ?_
  rcases d.feedOpen_cases legacy b last with ⟨_, he⟩ | ⟨hd, hr, he⟩ | ⟨hd, hr, he⟩ <;> rw [he]
  · exact (h.endDiscard (x := d.discard && !last) (fun hx => (Bool.and_eq_true_iff.1 hx).1)).setLastRes .ok
  · exact h.literal hp hd hr b
  · exact h.codeByte hp hd hr legacy b last

theorem Dec.Inv.finish {d : Dec} (h : d.Inv) : d.finish.regs.Inv := by
  refine h.whenOpen fun hp => ?_
  have hdisc : Dec.Inv { d with discard := false } := h.endDiscard (by simp)
  rcases d.finishOpen_cases with ⟨_, he⟩ | ⟨_, he⟩ <;> rw [he]
  · exact hdisc.fail hp (.inr rfl)
  · obtain ⟨hs, hrest⟩ := hdisc
    exact ⟨hs.setResult hs.1, hrest⟩

theorem Dec.Inv.start {d : Dec} (h : d.Inv) : d.start.regs.Inv := by
  cases hw : d.windowRefused
  · rw [Dec.start_accepted hw]
    exact ⟨Session.openAt_inv hw (by decide), fun _ => (by decide : (0#8).toNat < (0xFF#8).toNat), by simp⟩
  · rw [Dec.start_refused hw]; exact h.setLastRes .invalidArgument

/-- Every command keeps the decoder sound. -/
theorem Dec.Inv.effect {d : Dec} (h : d.Inv) (i : Instr) (legacy : Bool) : (Instr.decEffect i legacy d).regs.Inv := by
  cases i with
  | decStart => exact h.start
  | decFeed b last => exact h.feed legacy b last
  | decEnd => exact h.finish
  | encStart => exact h
  | encFeed _ _ => exact h
  | encEnd => exact h

/-! ### The host's contract on a window (70_reset_and_hazards.md R216; log entry 7) -/

/-- A window the host may use, with no byte raced for, meets the contract. -/
theorem CustodyInv.released (m : Memory) (p : Phase) : CustodyInv m p .host [] :=
  ⟨.nil, by simp, fun _ => rfl, fun _ => rfl⟩

/-- The contract is kept where raced bytes stay without a value and the window is not handed to the host. -/
theorem CustodyInv.of_kept {m m' : Memory} {p p' : Phase} {c c' : Custody} {l : List Nat} (h : CustodyInv m p c l)
    (hm : ∀ a ∈ l, m'.read a = m.read a) (hc : c' = .host → c = .host) (hp : p' = .idle → p = .idle ∧ c' = c) :
    CustodyInv m' p' c' l := by
  obtain ⟨hsorted, hnone, hhost, hidle⟩ := h
  exact ⟨hsorted, fun a ha => ⟨(hm a ha).trans (hnone a ha).1, (hnone a ha).2⟩, fun hh => hhost (hc hh),
    fun hi => (hp hi).2.trans (hidle (hp hi).1)⟩

/-- What the invariant says of one engine's window, for the engine named. -/
abbrev State.WindowInv (s : State) (u : Engine) : Prop :=
  CustodyInv s.mem (s.session u).phase (s.custody u) (s.racedOf u)

/-- A state is sound when its engines, its memory and both windows are. -/
theorem State.inv_iff {s : State} :
    s.Inv ↔ s.enc.Inv ∧ s.dec.Inv ∧ s.mem.wf = true ∧ ∀ u, s.WindowInv u :=
  ⟨fun ⟨he, hd, hm, hwe, hwd⟩ => ⟨he, hd, hm, fun u => by cases u <;> assumption⟩,
   fun ⟨he, hd, hm, hw⟩ => ⟨he, hd, hm, hw .enc, hw .dec⟩⟩

theorem State.raced_of_mem_racedOf {s : State} {u : Engine} {a : Nat} (h : a ∈ s.racedOf u) : s.raced a = true := by
  cases u
  · exact State.raced_iff.2 (.inl h)
  · exact State.raced_iff.2 (.inr h)

/-- Who may use the window of a command's own engine afterwards. -/
def Instr.custodyAfter (i : Instr) (x : Session) (c : Custody) : Custody :=
  match i with
  | .encStart => c.started x.windowRefused
  | .encFeed _ _ => c.fed x.phase
  | .encEnd => c.ended x.phase
  | .decStart => c.started x.windowRefused
  | .decFeed _ _ => c.fed x.phase
  | .decEnd => c.ended x.phase

theorem exec_custody {i : Instr} {s t : State} (h : exec i s = .next t) :
    t.custody i.engine = Instr.custodyAfter i (s.session i.engine) (s.custody i.engine) := by
  rw [exec_eq] at h; cases h; cases i <;> rfl

theorem exec_custody_other {i : Instr} {s t : State} {u : Engine} (h : exec i s = .next t) (hu : i.engine ≠ u) :
    t.custody u = s.custody u := by
  cases u <;> cases hi : i.engine
  · exact absurd hi hu
  · rw [exec_dec hi] at h; cases h; rfl
  · rw [exec_enc hi] at h; cases h; rfl
  · exact absurd hi hu

/-- A command hands no window to the host. -/
theorem Instr.custodyAfter_ne_host (i : Instr) (x : Session) {c : Custody} (h : c ≠ .host) :
    Instr.custodyAfter i x c ≠ .host := by
  cases i with
  | encStart => exact Custody.started_ne_host h
  | encFeed _ _ => exact Custody.fed_ne_host h
  | encEnd => exact Custody.ended_ne_host h
  | decStart => exact Custody.started_ne_host h
  | decFeed _ _ => exact Custody.fed_ne_host h
  | decEnd => exact Custody.ended_ne_host h

/-- A command that is refused in `IDLE` leaves the window with its holder. -/
theorem Instr.custodyAfter_idle {i : Instr} {x : Session} (hp : x.phase = .idle)
    (hw : i.isStart = true → x.windowRefused = true) (c : Custody) : Instr.custodyAfter i x c = c := by
  cases i <;> simp_all [Instr.custodyAfter, Instr.isStart, Custody.started, Custody.fed, Custody.ended]

/-- A byte raced for stays without a value, whatever a command writes (20_memory.md R74). -/
theorem exec_read_raced {i : Instr} {s t : State} {a : Nat} (h : exec i s = .next t) (ha : s.raced a = true) :
    t.mem.read a = s.mem.read a := by
  rw [exec_eq] at h; cases h
  simp only [State.read_land, ha, if_true]

theorem State.WindowInv.exec {i : Instr} {s t : State} {u : Engine} (hw : s.WindowInv u) (h : exec i s = .next t) :
    t.WindowInv u := by
  have hraced : t.racedOf u = s.racedOf u := by
    obtain ⟨_, _, _, _, he, hd⟩ := exec_keeps h
    cases u <;> assumption
  rw [State.WindowInv, hraced]
  have hmem : ∀ a ∈ s.racedOf u, t.mem.read a = s.mem.read a :=
    fun a ha => exec_read_raced h (State.raced_of_mem_racedOf ha)
  by_cases hu : i.engine = u
  · subst hu
    refine hw.of_kept hmem (fun hh => ?_) (fun hp => ?_)
    · by_contra hne
      exact Instr.custodyAfter_ne_host i _ hne ((exec_custody h).symm.trans hh)
    · obtain ⟨hidle, hrefused⟩ := exec_idle h hp
      exact ⟨hidle, (exec_custody h).trans (Instr.custodyAfter_idle hidle hrefused _)⟩
  · rw [exec_session_other h hu, exec_custody_other h hu]
    exact hw.of_kept hmem id (fun hp => ⟨hp, rfl⟩)

/-! ### Every command and every access keeps the state sound -/

/-- Every address the encoder writes lies in destination memory. -/
theorem Instr.encEffect_writes_lt {i : Instr} {e : Enc} {c : Host.Cell} (hc : c ∈ (Instr.encEffect i e).writes) :
    c.1 < Config.addrSpace := by
  cases i with
  | encStart => simp [Instr.encEffect, Enc.start_writes] at hc
  | encFeed b _ => obtain ⟨off, h, _⟩ := Enc.feed_writes hc; rw [h]; exact Session.address_lt _ _
  | encEnd => obtain ⟨off, h, _⟩ := Enc.finish_writes hc; rw [h]; exact Session.address_lt _ _
  | decStart => simp [Instr.encEffect] at hc
  | decFeed _ _ => simp [Instr.encEffect] at hc
  | decEnd => simp [Instr.encEffect] at hc

/-- Every address the decoder writes lies in destination memory. -/
theorem Instr.decEffect_writes_lt {i : Instr} {legacy : Bool} {d : Dec} {c : Host.Cell}
    (hc : c ∈ (Instr.decEffect i legacy d).writes) : c.1 < Config.addrSpace := by
  cases i with
  | decStart => simp [Instr.decEffect, Dec.start_writes] at hc
  | decFeed b last => obtain ⟨h, _⟩ := Dec.feed_writes hc; rw [h]; exact Session.address_lt _ _
  | decEnd => simp [Instr.decEffect, Dec.finish_writes] at hc
  | encStart => simp [Instr.decEffect] at hc
  | encFeed _ _ => simp [Instr.decEffect] at hc
  | encEnd => simp [Instr.decEffect] at hc

/-- The addresses a command writes are those of its two halves. -/
theorem State.writesOf_eq (s : State) (i : Instr) :
    s.writesOf i = ((Instr.encEffect i s.enc).writes ++
      (Instr.decEffect i s.params.legacyChunkZero s.dec).writes).map Prod.fst := by
  cases i <;> simp [State.writesOf, Instr.encEffect, Instr.decEffect]

theorem State.writesOf_lt {s : State} {i : Instr} {a : Nat} (ha : a ∈ s.writesOf i) : a < Config.addrSpace := by
  rw [State.writesOf_eq] at ha
  obtain ⟨c, hc, rfl⟩ := List.mem_map.1 ha
  exact (List.mem_append.1 hc).elim Instr.encEffect_writes_lt Instr.decEffect_writes_lt

theorem State.writesOfWord_lt {s : State} {w : Word} {a : Nat} (ha : a ∈ s.writesOfWord w) : a < Config.addrSpace := by
  unfold State.writesOfWord at ha
  split at ha
  · exact State.writesOf_lt ha
  · cases ha

/-- A command keeps memory in its canonical form (20_memory.md R61). -/
theorem exec_wf {i : Instr} {s t : State} (hm : s.mem.wf = true) (h : exec i s = .next t) : t.mem.wf = true := by
  rw [exec_eq] at h; cases h
  refine State.wf_land hm fun c hc => ?_
  exact (List.mem_append.1 hc).elim Instr.encEffect_writes_lt Instr.decEffect_writes_lt

theorem State.Inv.exec {i : Instr} {s t : State} (hs : s.Inv) (h : exec i s = .next t) : t.Inv := by
  obtain ⟨he, hd, hm, hw⟩ := State.inv_iff.1 hs
  have hmem := exec_wf hm h
  have hwindows : ∀ u, t.WindowInv u := fun u => (hw u).exec h
  rw [exec_eq] at h; cases h
  exact State.inv_iff.2 ⟨he.effect i, hd.effect i _, hmem, hwindows⟩

theorem State.Inv.malformed {s : State} (hs : s.Inv) (u : Engine) : (s.malformed u).Inv := by
  cases u <;> exact hs

/-- An argument register may hold any value (10_state.md R37). -/
theorem State.Inv.writeReg {s : State} (hs : s.Inv) (r : Reg) (v : Word) : (s.writeReg r v).Inv := by
  cases r <;> exact hs

/-- A byte the other window races for too is not settled. -/
theorem State.not_mem_settled {s : State} {u v : Engine} {a : Nat} (huv : u ≠ v) (ha : a ∈ s.racedOf v) :
    a ∉ s.settled u := by
  cases u <;> cases v <;> simp_all [State.settled]

theorem State.WindowInv.release {s : State} {v : Engine} (hw : s.WindowInv v) (u : Engine) :
    (s.release u).WindowInv v := by
  by_cases huv : u = v
  · subst huv
    rw [State.WindowInv, State.release_custody, State.release_racedOf]
    exact CustodyInv.released _ _
  · have hkept : (s.release u).session v = s.session v ∧ (s.release u).custody v = s.custody v ∧
        (s.release u).racedOf v = s.racedOf v := by
      cases u <;> cases v
      · exact absurd rfl huv
      · exact ⟨rfl, rfl, rfl⟩
      · exact ⟨rfl, rfl, rfl⟩
      · exact absurd rfl huv
    obtain ⟨hsession, hcustody, hraced⟩ := hkept
    rw [State.WindowInv, hsession, hcustody, hraced, State.release_mem]
    exact hw.of_kept (fun a ha => State.freeBytes_read_other (State.not_mem_settled huv ha) s) id (fun hp => ⟨hp, rfl⟩)

theorem State.Inv.release {s : State} (hs : s.Inv) (u : Engine) : (s.release u).Inv := by
  obtain ⟨he, hd, hm, hw⟩ := State.inv_iff.1 hs
  obtain ⟨-, hraced, -, -⟩ := hw u
  refine State.inv_iff.2 ⟨by cases u <;> exact he, by cases u <;> exact hd, ?_, fun v => (hw v).release u⟩
  exact State.wf_release u hm fun a ha => (hraced a ha).2

theorem State.Inv.afterRead {s : State} (hs : s.Inv) (r : Reg) : (s.afterRead r).Inv := by
  rcases s.afterRead_cases r with h | ⟨u, _, _, h⟩ <;> rw [h]
  · exact hs
  · exact hs.release u

theorem State.racedOf_race (s : State) (a : Nat) (u : Engine) :
    (s.race a).racedOf u = if s.holds u a then insertAddr a (s.racedOf u) else s.racedOf u := by
  cases u <;> rfl

theorem State.WindowInv.race {s : State} {u : Engine} (hw : s.WindowInv u) {a : Nat} (ha : a < Config.addrSpace) :
    (s.race a).WindowInv u := by
  obtain ⟨hsorted, hnone, hhost, hidle⟩ := hw
  have hsession : (s.race a).session u = s.session u := by cases u <;> rfl
  have hcustody : (s.race a).custody u = s.custody u := by cases u <;> rfl
  have herased : ∀ k, s.mem.read k = none → (s.mem.erase a).read k = none := by
    intro k hk; rw [Memory.read_erase, hk, ite_self]
  rw [State.WindowInv, hsession, hcustody, State.racedOf_race, State.race_mem]
  split
  · rename_i hheld
    refine ⟨pairwise_insertAddr a hsorted, fun k hk => ?_, fun hh => ?_, hidle⟩
    · rcases mem_insertAddr.1 hk with rfl | hk
      · exact ⟨by simp [Memory.read_erase], ha⟩
      · exact ⟨herased k (hnone k hk).1, (hnone k hk).2⟩
    · simp [State.holds, hh] at hheld
  · exact ⟨hsorted, fun k hk => ⟨herased k (hnone k hk).1, (hnone k hk).2⟩, hhost, hidle⟩

theorem State.Inv.race {s : State} (hs : s.Inv) {a : Nat} (ha : a < Config.addrSpace) : (s.race a).Inv := by
  obtain ⟨he, hd, hm, hw⟩ := State.inv_iff.1 hs
  exact State.inv_iff.2 ⟨he, hd, Memory.wf_erase a hm, fun u => (hw u).race ha⟩

theorem State.racedOf_store (s : State) (a : Nat) (v : Byte) (u : Engine) :
    (s.store a v).racedOf u = (s.racedOf u).filter (· != a) := by
  cases u <;> rfl

theorem State.WindowInv.store {s : State} {u : Engine} (hw : s.WindowInv u) (a : Nat) (v : Byte) :
    (s.store a v).WindowInv u := by
  obtain ⟨hsorted, hnone, hhost, hidle⟩ := hw
  have hsession : (s.store a v).session u = s.session u := by cases u <;> rfl
  have hcustody : (s.store a v).custody u = s.custody u := by cases u <;> rfl
  rw [State.WindowInv, hsession, hcustody, State.racedOf_store, State.store_mem]
  refine ⟨hsorted.filter _, fun k hk => ?_, fun hh => by rw [hhost hh]; rfl, hidle⟩
  obtain ⟨hk, hka⟩ := List.mem_filter.1 hk
  rw [Memory.read_write_other (Ne.symm (by simpa using hka))]
  exact hnone k hk

theorem State.Inv.store {s : State} (hs : s.Inv) {a : Nat} (ha : a < Config.addrSpace) (v : Byte) :
    (s.store a v).Inv := by
  obtain ⟨he, hd, hm, hw⟩ := State.inv_iff.1 hs
  exact State.inv_iff.2 ⟨he, hd, Memory.wf_write v hm ha, fun u => (hw u).store a v⟩

theorem Enc.reset_inv : Enc.reset.Inv := by decide

theorem Dec.reset_inv : Dec.reset.Inv := by decide

/-- A reset needs only that memory and the raced bytes lie in destination memory. -/
theorem State.inv_resetRegisters {s : State} (hm : s.mem.wf = true)
    (hraced : ∀ u, ∀ a ∈ s.racedOf u, a < Config.addrSpace) : s.resetRegisters.Inv :=
  ⟨Enc.reset_inv, Dec.reset_inv, State.wf_resetRegisters hm (hraced .enc) (hraced .dec),
    CustodyInv.released _ _, CustodyInv.released _ _⟩

theorem State.Inv.racedOf_lt {s : State} (hs : s.Inv) (u : Engine) {a : Nat} (ha : a ∈ s.racedOf u) :
    a < Config.addrSpace := by
  obtain ⟨_, _, _, hw⟩ := State.inv_iff.1 hs
  obtain ⟨-, hraced, -, -⟩ := hw u
  exact (hraced a ha).2

theorem State.Inv.resetDuring {s : State} (hs : s.Inv) (w : Word) : (s.resetDuring w).Inv := by
  obtain ⟨_, _, hm, _⟩ := State.inv_iff.1 hs
  refine State.inv_resetRegisters (State.freeBytes_wf hm fun a => State.writesOfWord_lt) fun u a ha => ?_
  obtain ⟨m, n, hfree⟩ := State.freeBytes_eq (s.writesOfWord w) s
  rw [hfree] at ha
  exact hs.racedOf_lt u (by cases u <;> exact ha)

theorem State.Inv.serve {a : Access} {s t : State} (hs : s.Inv) (h : serve a s = .next t) : t.Inv := by
  obtain ⟨_, _, hmem, _⟩ := State.inv_iff.1 hs
  rcases serve_cases h with ⟨_, v, r, _, _, rfl⟩ | ⟨_, r, _, _, rfl⟩ | ⟨addr, _, ⟨_, rfl⟩ | ⟨_, rfl⟩⟩ |
    ⟨addr, v, _, ⟨_, rfl⟩ | ⟨_, rfl⟩⟩ | ⟨_, rfl⟩ | ⟨w, _, rfl⟩
  · exact hs.writeReg r v
  · exact hs.afterRead r
  · exact hs
  · exact hs
  · exact hs.race addr.isLt
  · exact hs.store addr.isLt v
  · exact State.inv_resetRegisters hmem fun u _ => hs.racedOf_lt u
  · exact hs.resetDuring w

/-- Settles O44, by what a step can do: wait, run a command, reject a malformed word, or serve another access. -/
theorem stepKeepsInvariant : Obligations.StepKeepsInvariant := by
  intro s t hs h
  have hrest : ∀ rest, State.Inv { s with pending := rest } := fun _ => hs
  rcases step_cases s with ⟨_, hstep⟩ | ⟨a, rest, _, ⟨w, i, _, _, hstep⟩ | ⟨w, _, _, _, hstep⟩ | ⟨_, hstep⟩⟩ <;>
    rw [hstep] at h
  · cases h; exact hs
  · exact (hrest rest).exec h
  · cases h; exact (hrest rest).malformed _
  · exact (hrest rest).serve h

/-- Settles O45: the engines' reset values are sound, and the host holds both windows. -/
theorem resetIsSound : Obligations.ResetIsSound :=
  ⟨Enc.reset_inv, Dec.reset_inv, rfl, CustodyInv.released _ _, CustodyInv.released _ _⟩

end Sys2Proof.Machine
end

section
/-! Destination memory and the bus (20_memory.md): which accesses are refused, what an access of memory does, what a
race leaves of a byte, where a command may write and on what its writes depend, and the order of commands. -/
namespace Sys2Proof.Machine

/-! ### Register accesses of another shape (20_memory.md R68) -/

/-- A register access that is not 32 bits wide or not aligned selects no register. -/
theorem selectedReg_misshapen {p : Config.Params} {addr : Word} {size : Nat}
    (h : size ≠ 4 ∨ busOffset p addr % 4 ≠ 0) : selectedReg p addr size = none := by
  have hshape : wellShaped p addr size = false := by
    rcases h with h | h <;> simp [wellShaped, h]
  simp [selectedReg, hshape]

/-- A register access that starts in the block and selects no register is refused. -/
theorem badRegisterAccess_inside {p : Config.Params} {addr : Word} (size : Nat) (h : busOffset p addr < 64) :
    badRegisterAccess p addr size = .refused .registerAccess := by
  simp [badRegisterAccess, touchesBlock, h]

/-- A register read that selects no register stops. -/
theorem step_regRead_unselected {s : State} {rest : List Access} {addr : Word} {size : Nat}
    (hp : s.pending = .regRead addr size :: rest) (hsel : selectedReg s.params addr size = none) :
    step s = badRegisterAccess s.params addr size := by
  rw [step_serve hp rfl]
  simp only [serve, serveRegRead, hsel]

/-- A register write that selects no register stops. -/
theorem step_regWrite_unselected {s : State} {rest : List Access} {addr : Word} {size : Nat} {v : Word}
    (hp : s.pending = .regWrite addr size v :: rest) (hsel : selectedReg s.params addr size = none) :
    step s = badRegisterAccess s.params addr size := by
  rw [step_serve hp (by simp [Access.command?, hsel])]
  simp only [serve, serveRegWrite, hsel]

/-- Settles O11: such an access selects no register, but its first byte lies in the block. -/
theorem otherRegisterAccessesRefused : Obligations.OtherRegisterAccessesRefused := by
  intro s rest off size v hoff hshape
  have hbus := busOffset_add s.params (show off < 2 ^ 32 by omega)
  have hsel := selectedReg_misshapen (p := s.params) (hbus.symm ▸ hshape)
  have hbad := badRegisterAccess_inside size (hbus.trans_lt hoff)
  exact ⟨fun hp => (step_regRead_unselected hp hsel).trans hbad,
    fun hp => (step_regWrite_unselected hp hsel).trans hbad⟩

/-! ### Accesses of destination memory (20_memory.md R66, R74) -/

/-- A foreign write to a byte of a window an engine holds starts a race. -/
theorem step_memWrite_held {s : State} {rest : List Access} {a : Word} {v : Byte}
    (hp : s.pending = .memWrite a v :: rest) (h : s.holds .enc a.toNat = true ∨ s.holds .dec a.toNat = true) :
    step s = .next { s.race a.toNat with pending := rest } := by
  rw [step_serve hp rfl]
  exact if_pos (Bool.or_eq_true _ _ ▸ h)

/-- A foreign write to a byte that no engine holds is stored. -/
theorem step_memWrite_free {s : State} {rest : List Access} {a : Word} {v : Byte}
    (hp : s.pending = .memWrite a v :: rest) (he : s.holds .enc a.toNat = false)
    (hd : s.holds .dec a.toNat = false) : step s = .next { s.store a.toNat v with pending := rest } := by
  rw [step_serve hp rfl]
  exact if_neg (by simpa using ⟨he, hd⟩)

/-- A host read of a raced byte draws a free byte. -/
theorem step_memRead_raced {s : State} {rest : List Access} {a : Word}
    (hp : s.pending = .memRead a :: rest) (h : s.raced a.toNat = true) :
    step s = .next { s with pending := rest, readData := some ((Config.freeByte s.freeCount).setWidth 32),
                            freeCount := s.freeCount + 1 } := by
  rw [step_serve hp rfl]
  exact if_pos h

/-- A host read of a byte that is not raced for hands back what memory holds. -/
theorem step_memRead {s : State} {rest : List Access} {a : Word}
    (hp : s.pending = .memRead a :: rest) (h : s.raced a.toNat = false) :
    step s = .next { s with pending := rest, readData := some ((s.memByte a.toNat).setWidth 32) } := by
  rw [step_serve hp rfl]
  exact if_neg (Bool.eq_false_iff.1 h)

/-- A race takes the value of its byte and leaves every other byte. -/
theorem State.race_other {s : State} {a k : Nat} (h : k ≠ a) :
    (s.race a).mem.read k = s.mem.read k ∧ (s.race a).raced k = s.raced k :=
  ⟨by simp [Memory.read_erase, h.symm], Bool.eq_iff_iff.2 (by simp [State.raced_race, h])⟩

/-- A stored byte leaves every other byte. -/
theorem State.store_other {s : State} {a k : Nat} {v : Byte} (h : k ≠ a) :
    (s.store a v).mem.read k = s.mem.read k ∧ (s.store a v).raced k = s.raced k :=
  ⟨Memory.read_write_other h.symm, Bool.eq_iff_iff.2 (by simp [State.raced_store, h])⟩

/-- A stored byte reads as stored and is not raced for. -/
theorem State.store_same (s : State) (a : Nat) (v : Byte) :
    (s.store a v).mem.read a = some v ∧ (s.store a v).raced a = false :=
  ⟨Memory.read_write_same _ _ _, Bool.eq_false_iff.2 (by simp [State.raced_store])⟩

/-- In a window an engine holds, a race leaves its byte without a value and raced for. -/
theorem State.race_same {s : State} {a : Nat} (h : s.holds .enc a = true ∨ s.holds .dec a = true) :
    (s.race a).mem.read a = none ∧ (s.race a).raced a = true :=
  ⟨by simp [Memory.read_erase], State.raced_race.2 (.inr ⟨rfl, h⟩)⟩

/-- Settles O13: a foreign write races for a byte that an engine holds and is stored elsewhere; a host read draws a
free byte where its byte is raced for. -/
theorem memoryAccesses : Obligations.MemoryAccesses := by
  intro s rest a
  refine ⟨fun v hp => ?_, fun v hp hr hm => ?_, fun hp hr hm => ?_, step_memRead_raced⟩
  · by_cases h : s.holds .enc a.toNat = true ∨ s.holds .dec a.toNat = true
    · exact ⟨_, step_memWrite_held hp h, rfl, rfl, rfl, rfl, rfl, rfl, rfl, rfl, fun k => State.race_other,
        fun he hd => by simp [he, hd] at h, fun _ => State.race_same h⟩
    · obtain ⟨he, hd⟩ : s.holds .enc a.toNat = false ∧ s.holds .dec a.toNat = false := by simpa using h
      exact ⟨_, step_memWrite_free hp he hd, rfl, rfl, rfl, rfl, rfl, rfl, rfl, rfl, fun k => State.store_other,
        fun _ _ => State.store_same s a.toNat v, fun h' => absurd h' h⟩
  · rw [step_memRead hp hr, State.memByte, hm, Option.getD_some]
  · rw [step_memRead hp hr, State.memByte, hm, Option.getD_none]

/-! ### What becomes of a raced byte (20_memory.md R74; log entry 7) -/

/-- Which bytes are raced for is what the two windows' records say. -/
theorem State.raced_congr {s t : State} (he : t.encRaced = s.encRaced) (hd : t.decRaced = s.decRaced) (k : Nat) :
    t.raced k = s.raced k := by
  simp only [State.raced, he, hd]

/-- The byte is settled as a free byte drawn between the two states. -/
def State.SettledAt (s t : State) (k : Nat) : Prop :=
  ∃ n, s.freeCount ≤ n ∧ n < t.freeCount ∧ t.mem.read k = some (Config.freeByte n)

/-- When a window is given back, no race starts, and a byte whose race is over is settled. -/
theorem State.release_raced (s : State) (u : Engine) (k : Nat) :
    (s.release u).raced k = s.raced k ∨
      ((s.release u).raced k = false ∧ s.SettledAt (s.release u) k) := by
  by_cases hk : k ∈ s.settled u
  · refine .inr ⟨State.raced_false_iff.2 ?_, ?_⟩
    · cases u <;> simp_all [State.settled]
    · rw [State.SettledAt, State.release_mem, State.release_freeCount]
      exact State.freeBytes_read_mem hk s
  · refine .inl (Bool.eq_iff_iff.2 ?_)
    rw [State.raced_iff, State.raced_iff]
    cases u <;> simpa [State.settled] using hk

/-- A reset ends every race and settles its bytes. -/
theorem State.resetRegisters_raced (s : State) (k : Nat) :
    s.resetRegisters.raced k = false ∧ (s.raced k = true → s.SettledAt s.resetRegisters k) :=
  ⟨rfl, State.read_resetRegisters_raced⟩

/-- A reset during a command settles the bytes raced for too. -/
theorem State.resetDuring_raced (s : State) (w : Word) (k : Nat) :
    (s.resetDuring w).raced k = false ∧ (s.raced k = true → s.SettledAt (s.resetDuring w) k) := by
  obtain ⟨m, c, hfree⟩ := State.freeBytes_eq (s.writesOfWord w) s
  have hcount := State.freeBytes_mono (s.writesOfWord w) s
  rw [hfree] at hcount
  rw [State.resetDuring, hfree]
  refine ⟨rfl, fun hk => ?_⟩
  obtain ⟨n, hlo, hhi, hread⟩ := State.read_resetRegisters_raced (s := { s with mem := m, freeCount := c }) hk
  exact ⟨n, hcount.trans hlo, hhi, hread⟩

/-- What a step can do to the race for a byte: leave it, start it or end it by a foreign write, or settle it. -/
theorem step_raced_cases {s t : State} (h : step s = .next t) (k : Nat) :
    t.raced k = s.raced k ∨
    (∃ a v rest, s.pending = .memWrite a v :: rest ∧ a.toNat = k ∧
      (s.holds .enc k = true ∨ s.holds .dec k = true) ∧ t.raced k = true) ∨
    (∃ a v rest, s.pending = .memWrite a v :: rest ∧ a.toNat = k ∧ s.holds .enc k = false ∧
      s.holds .dec k = false ∧ t.mem.read k = some v ∧ t.raced k = false) ∨
    (t.raced k = false ∧ (s.raced k = true → s.SettledAt t k)) := by
  rcases step_cases s with ⟨_, hstep⟩ | ⟨a, rest, hp, ⟨w, i, _, _, hstep⟩ | ⟨w, _, _, _, hstep⟩ | ⟨_, hstep⟩⟩ <;>
    rw [hstep] at h
  · cases h; exact .inl rfl
  · obtain ⟨_, _, _, _, he, hd⟩ := exec_keeps h
    exact .inl (State.raced_congr he hd k)
  · cases h; exact .inl (by cases unitField w <;> rfl)
  rcases serve_cases h with ⟨_, v, r, _, _, rfl⟩ | ⟨_, r, _, _, rfl⟩ | ⟨addr, _, ⟨_, rfl⟩ | ⟨_, rfl⟩⟩ |
    ⟨addr, v, rfl, ⟨hheld, rfl⟩ | ⟨hfree, rfl⟩⟩ | ⟨_, rfl⟩ | ⟨w, _, rfl⟩
  · exact .inl (by cases r <;> rfl)
  · rcases State.afterRead_cases { s with pending := rest } r with hr | ⟨u, _, _, hr⟩ <;> rw [hr]
    · exact .inl rfl
    · rcases State.release_raced { s with pending := rest } u k with hsame | ⟨hover, hsettled⟩
      · exact .inl hsame
      · exact .inr (.inr (.inr ⟨hover, fun _ => hsettled⟩))
  · exact .inl rfl
  · exact .inl rfl
  · by_cases hk : k = addr.toNat
    · subst hk
      have hholds := (Bool.or_eq_true _ _).mp hheld
      exact .inr (.inl ⟨addr, v, rest, hp, rfl, hholds, (State.race_same hholds).2⟩)
    · exact .inl (State.race_other hk).2
  · by_cases hk : k = addr.toNat
    · subst hk
      obtain ⟨he, hd⟩ := Bool.or_eq_false_iff.1 hfree
      obtain ⟨hread, hraced⟩ := State.store_same { s with pending := rest } addr.toNat v
      exact .inr (.inr (.inl ⟨addr, v, rest, hp, rfl, he, hd, hread, hraced⟩))
    · exact .inl (State.store_other hk).2
  · exact .inr (.inr (.inr (State.resetRegisters_raced { s with pending := rest } k)))
  · exact .inr (.inr (.inr (State.resetDuring_raced { s with pending := rest } w k)))

/-- In a sound state a byte raced for has no value. -/
theorem State.Inv.read_raced {s : State} (hs : s.Inv) {k : Nat} (hk : s.raced k = true) : s.mem.read k = none := by
  obtain ⟨_, _, _, hw⟩ := State.inv_iff.1 hs
  obtain ⟨-, henc, -, -⟩ := hw .enc
  obtain ⟨-, hdec, -, -⟩ := hw .dec
  exact (State.raced_iff.1 hk).elim (fun h => (henc k h).1) (fun h => (hdec k h).1)

/-- Settles O15: the step keeps the state sound, and races start, end and are settled as `step_raced_cases` says. -/
theorem racedBytesAreAnyValue : Obligations.RacedBytesAreAnyValue := by
  intro s t k hs h
  refine ⟨(stepKeepsInvariant s t hs h).read_raced, fun hk ht => ?_, fun hk => ?_⟩ <;>
    rcases step_raced_cases h k with hsame | ⟨a, v, rest, hp, hak, hheld, hraced⟩ |
      ⟨a, v, rest, hp, hak, he, hd, hread, hover⟩ | ⟨hover, hsettled⟩
  · rw [hsame, hk] at ht; cases ht
  · exact ⟨a, v, rest, hp, hak, hheld⟩
  · rw [hover] at ht; cases ht
  · rw [hover] at ht; cases ht
  · exact .inl (hsame.trans hk)
  · exact .inl hraced
  · exact .inr (.inr ⟨a, v, rest, hp, hak, he, hd, hread⟩)
  · exact .inr (.inl (hsettled hk))

/-! ### Where a command writes, and on what it depends (20_memory.md R61, R62) -/

/-- In a window that does not pass the top of memory, an offset below the capacity has an address in the window. -/
theorem Session.inWindow_address {x : Session} (h : x.winBase.toNat + x.winCap.toNat ≤ Config.addrSpace) {off : Word}
    (ho : off.toNat < x.winCap.toNat) : x.inWindow (x.address off) = true := by
  rw [Session.address_eq h ho]
  simp only [Session.inWindow, Bool.and_eq_true, decide_eq_true_eq]
  omega

/-- The encoder writes to its slot or to an offset with room, and only in a session. -/
theorem Instr.encEffect_writes {i : Instr} {e : Enc} {c : Host.Cell} (hc : c ∈ (Instr.encEffect i e).writes) :
    e.phase ≠ .idle ∧ ∃ off, c.1 = e.address off ∧ (off = e.slot ∨ off.toNat < e.winCap.toNat) := by
  cases i with
  | encStart => simp [Instr.encEffect, Enc.start_writes] at hc
  | encFeed b _ =>
    exact ⟨fun hp => by simp [Instr.encEffect, Enc.feed, Enc.whenOpen_idle hp] at hc, Enc.feed_writes hc⟩
  | encEnd => exact ⟨fun hp => by simp [Instr.encEffect, Enc.finish, Enc.whenOpen_idle hp] at hc, Enc.finish_writes hc⟩
  | decStart => simp [Instr.encEffect] at hc
  | decFeed _ _ => simp [Instr.encEffect] at hc
  | decEnd => simp [Instr.encEffect] at hc

/-- The decoder writes to its cursor, which has room. -/
theorem Instr.decEffect_writes {i : Instr} {legacy : Bool} {d : Dec} {c : Host.Cell}
    (hc : c ∈ (Instr.decEffect i legacy d).writes) : c.1 = d.address d.cursor ∧ d.cursor.toNat < d.winCap.toNat := by
  cases i with
  | decStart => simp [Instr.decEffect, Dec.start_writes] at hc
  | decFeed b last => exact Dec.feed_writes hc
  | decEnd => simp [Instr.decEffect, Dec.finish_writes] at hc
  | encStart => simp [Instr.decEffect] at hc
  | encFeed _ _ => simp [Instr.decEffect] at hc
  | encEnd => simp [Instr.decEffect] at hc

theorem Enc.Inv.writes_inWindow {e : Enc} (h : e.Inv) {i : Instr} {c : Host.Cell}
    (hc : c ∈ (Instr.encEffect i e).writes) : e.inWindow c.1 = true := by
  obtain ⟨⟨_, _, hwindow, _⟩, _, hblock⟩ := h
  obtain ⟨hp, off, hoff, hin⟩ := Instr.encEffect_writes hc
  rw [hoff]
  refine Session.inWindow_address hwindow ?_
  rcases hin with rfl | hroom
  · exact (hblock hp).1
  · exact hroom

theorem Dec.Inv.writes_inWindow {d : Dec} (h : d.Inv) {i : Instr} {legacy : Bool} {c : Host.Cell}
    (hc : c ∈ (Instr.decEffect i legacy d).writes) : d.inWindow c.1 = true := by
  obtain ⟨⟨_, _, hwindow, _⟩, _, _⟩ := h
  obtain ⟨hcursor, hroom⟩ := Instr.decEffect_writes hc
  rw [hcursor]
  exact Session.inWindow_address hwindow hroom

/-- Engine writes inside a window keep every byte outside it. -/
theorem State.read_land_outside {s : State} {x : Session} {w : List Host.Cell}
    (hw : ∀ c ∈ w, x.inWindow c.1 = true) {a : Nat} (ha : x.inWindow a = false) :
    (s.land w).read a = s.mem.read a :=
  State.read_land_other fun c hc hca => by rw [← hca, hw c hc] at ha; cases ha

/-- Settles O42: each engine's writes lie in its window, and no other byte changes. -/
theorem writesStayInWindow : Obligations.WritesStayInWindow := by
  intro i s t hs h a ha
  obtain ⟨henc, hdec, _, _⟩ := State.inv_iff.1 hs
  cases hi : i.engine with
  | enc =>
    rw [exec_enc hi] at h; cases h
    exact State.read_land_outside (fun c => henc.writes_inWindow) (x := s.session .enc) (by rwa [hi] at ha)
  | dec =>
    rw [exec_dec hi] at h; cases h
    exact State.read_land_outside (fun c => hdec.writes_inWindow) (x := s.session .dec) (by rwa [hi] at ha)

/-- A byte reads after writes as before them, in every memory, or as one value, whatever memory held. -/
theorem Memory.read_writeAll_cases (w : List Host.Cell) (a : Nat) :
    (∀ m : Memory, (m.writeAll w).read a = m.read a) ∨
      ∃ v, ∀ m : Memory, (m.writeAll w).read a = some v := by
  induction w with
  | nil => exact .inl fun _ => rfl
  | cons c w ih =>
    rcases ih with hkept | ⟨v, hv⟩
    · by_cases hca : c.1 = a
      · exact .inr ⟨c.2, fun m => by rw [Memory.writeAll_cons, hkept, hca, Memory.read_write_same]⟩
      · exact .inl fun m => by rw [Memory.writeAll_cons, hkept, Memory.read_write_other hca]
    · exact .inr ⟨v, fun m => hv _⟩

/-- A byte that engine writes change takes the same value whatever memory held. -/
theorem State.read_land_changed {s : State} {w : List Host.Cell} {a : Nat}
    (h : (s.land w).read a ≠ s.mem.read a) (m : Memory) :
    (State.land { s with mem := m } w).read a = (s.land w).read a := by
  have hraced : State.raced { s with mem := m } a = s.raced a := rfl
  rw [State.read_land] at h
  rw [State.read_land, State.read_land, hraced]
  split at h
  · exact absurd rfl h
  · rename_i hfree
    rw [if_neg hfree, if_neg hfree]
    rcases Memory.read_writeAll_cases w a with hkept | ⟨v, hv⟩
    · exact absurd (hkept _) h
    · rw [hv, hv]

/-- Settles O43: registers and writes are functions of the registers, and a written byte forgets what memory held. -/
theorem commandsNeverReadMemory : Obligations.CommandsNeverReadMemory := by
  intro i s t m h
  rw [exec_eq] at h; cases h
  exact ⟨_, exec_eq i _, rfl, rfl, fun _ a ha => State.read_land_changed ha m⟩

/-! ### Commands in bus order (20_memory.md R66) -/

/-- A command's word decodes to it (30_encoding.md R85). -/
theorem decode_encode (i : Instr) : decode (encode i) = .ok i := by
  cases i with
  | encStart => rfl
  | encFeed data last => revert data last; decide
  | encEnd => rfl
  | decStart => rfl
  | decFeed data last => revert data last; decide
  | decEnd => rfl

/-- A step at the host's write of a command to `CMD` runs the command (30_encoding.md R89). -/
theorem step_issue {s : State} {i : Instr} {rest : List Access}
    (hp : s.pending = Access.issue s.params i :: rest) : step s = exec i { s with pending := rest } := by
  rw [step_command hp (command?_wr_cmd s.params (encode i)), issue, decode_encode]

/-- A run of a machine goes on from the state its first step leaves. -/
theorem run_succ (M : Host.Core) {s t : M.State} (h : M.step s = .next t) (n : Nat) :
    M.run (n + 1) s = M.run n t := by
  simp only [Host.Core.run, h]

/-- Stepping through pending `CMD` writes runs their commands in order: each step runs its command, which leaves the
parameters and the accesses still pending. -/
theorem core_run_issued {cmds : List Instr} {s : State} (hp : s.pending = cmds.map (Access.issue s.params)) :
    core.run cmds.length s = runAll cmds { s with pending := [] } := by
  induction cmds generalizing s with
  | nil => exact congrArg (fun p => Host.Outcome.next { s with pending := p }) hp
  | cons i cmds ih =>
    obtain ⟨t, ht⟩ : ∃ t, exec i { s with pending := cmds.map (Access.issue s.params) } = .next t := ⟨_, exec_eq i _⟩
    obtain ⟨hparams, hpending, -⟩ := exec_keeps ht
    have hrest := ih (hpending.trans (congrArg (fun p => cmds.map (Access.issue p)) hparams.symm))
    have hfirst := run_succ core ((step_issue hp).trans ht) cmds.length
    exact hfirst.trans (hrest.trans (runAll_cons i cmds (exec_pending [] ht)).symm)

/-- Settles O57, by induction on the commands. -/
theorem stepsRunCommandsInOrder : Obligations.StepsRunCommandsInOrder :=
  fun cmds s => core_run_issued (cmds := cmds) (s := { s with pending := cmds.map (Access.issue s.params) }) rfl

end Sys2Proof.Machine
end

section
/-! The encoding (30_encoding.md): the command word and its fields, malformed words, the wire format's frames, how much
the decoder writes, and the one-shot compositions. -/
namespace Sys2Proof.Machine

/-! ### The command word (30_encoding.md R80 to R86) -/

/-- A word that decodes to a command is that command's word. -/
theorem eq_encode_of_decode {w : Word} {i : Instr} (h : decode w = .ok i) : w = encode i := by
  rcases decode_cases w with ⟨hw, hd⟩ | ⟨hw, hd⟩ | ⟨hw, hd⟩ | ⟨hw, hd⟩ | ⟨hw, hd⟩ | ⟨hw, hd⟩ | ⟨-, hd⟩
  all_goals rw [hd] at h; cases h
  all_goals exact hw

/-- Settles O1: a command's word decodes to it, the decoder answers a command for its own word only, and no command is
ill-formed. -/
theorem decodeExactlyEncode : Obligations.DecodeExactlyEncode :=
  ⟨fun i _ => decode_encode i, fun _ i h => ⟨by cases i <;> rfl, eq_encode_of_decode h⟩⟩

/-- A malformed word is no command's word. -/
theorem decode?_eq_none_iff {w : Word} : decode? w = none ↔ ¬ ∃ i, w = encode i := by
  have hcmd : (∃ i, w = encode i) ↔ ∃ i, decode w = .ok i :=
    exists_congr fun i => ⟨fun h => h ▸ decode_encode i, eq_encode_of_decode⟩
  rw [hcmd, decode?]
  cases decode w <;> simp

section
variable (data : Byte) (last : Bool) (u : Engine) (op : BitVec 4)

@[simp] theorem opField_commandWord : opField (commandWord data last u op) = op :=
  BitVec.extractLsb'_append_eq_right

@[simp] theorem res0Field_commandWord : res0Field (commandWord data last u op) = 0 := by
  rw [res0Field, commandWord, BitVec.extractLsb'_append_eq_of_le (by decide),
    BitVec.extractLsb'_append_eq_of_le (by decide)]
  exact BitVec.extractLsb'_append_eq_right

@[simp] theorem lastField_commandWord : lastField (commandWord data last u op) = last := by
  simp only [lastField, commandWord, BitVec.getLsbD_append]
  cases last <;> rfl

@[simp] theorem dataField_commandWord : dataField (commandWord data last u op) = data := by
  rw [dataField, commandWord, BitVec.extractLsb'_append_eq_of_le (by decide),
    BitVec.extractLsb'_append_eq_of_le (by decide), BitVec.extractLsb'_append_eq_of_le (by decide),
    BitVec.extractLsb'_append_eq_of_le (by decide)]
  exact BitVec.extractLsb'_append_eq_right

@[simp] theorem res1Field_commandWord : res1Field (commandWord data last u op) = 0 := by
  rw [res1Field, commandWord, BitVec.extractLsb'_append_eq_of_le (by decide),
    BitVec.extractLsb'_append_eq_of_le (by decide), BitVec.extractLsb'_append_eq_of_le (by decide),
    BitVec.extractLsb'_append_eq_of_le (by decide), BitVec.extractLsb'_append_eq_of_le (by decide)]
  rfl

end

/-- A word whose reserved fields are 0 is put together from its other fields. -/
theorem eq_commandWord {w : Word} (h1 : res1Field w = 0) (h0 : res0Field w = 0) :
    w = commandWord (dataField w) (lastField w) (unitField w) (opField w) := by
  have hw := word_fields w
  have hu : w.getLsbD 4 = decide (unitField w = .dec) := by simp [unitField]
  rwa [h1, h0, hu] at hw

/-- The words of the commands, by their fields (R81, R85). -/
theorem exists_encode_iff {w : Word} :
    (∃ i, w = encode i) ↔
      res1Field w = 0 ∧ res0Field w = 0 ∧
      (opField w = 2 ∨ (opField w = 1 ∨ opField w = 3) ∧ dataField w = 0 ∧ lastField w = false) := by
  constructor
  · rintro ⟨i, rfl⟩
    cases i <;> simp [encode]
  · rintro ⟨h1, h0, hop⟩
    have hw := eq_commandWord h1 h0
    cases hu : unitField w <;> rcases hop with hop | ⟨hop | hop, hd, hl⟩
    all_goals rw [hu, hop] at hw
    · exact ⟨.encFeed _ _, hw⟩
    · rw [hd, hl] at hw; exact ⟨.encStart, hw⟩
    · rw [hd, hl] at hw; exact ⟨.encEnd, hw⟩
    · exact ⟨.decFeed _ _, hw⟩
    · rw [hd, hl] at hw; exact ⟨.decStart, hw⟩
    · rw [hd, hl] at hw; exact ⟨.decEnd, hw⟩

/-- `OP` is reserved when it is none of START, FEED and END (R81). -/
theorem op_reserved_iff (op : BitVec 4) : (op = 0 ∨ 4 ≤ op.toNat) ↔ op ≠ 2 ∧ ¬(op = 1 ∨ op = 3) := by
  revert op; decide

/-- Settles O2: a malformed word is one whose fields are no command's. -/
theorem malformedExactlyByFields : Obligations.MalformedExactlyByFields := by
  intro w
  have hfeed : opField w = 2 → ¬(opField w = 1 ∨ opField w = 3) := by
    intro h; rw [h]; decide
  rw [decode?_eq_none_iff, exists_encode_iff, op_reserved_iff, ← Bool.not_eq_true]
  tauto

theorem toNat_dataField (w : Word) : (dataField w).toNat = w.toNat / 2 ^ 8 % 2 ^ 8 := by
  simp only [dataField, BitVec.extractLsb'_toNat, Nat.shiftRight_eq_div_pow]

theorem toNat_lastField (w : Word) : (lastField w).toNat = w.toNat / 2 ^ 7 % 2 := by
  simp only [lastField, BitVec.getLsbD, Nat.toNat_testBit]

/-- Settles O3: a FEED's word holds its operands in `DATA` and `LAST`. -/
theorem feedOperandsAreFields : Obligations.FeedOperandsAreFields := by
  intro w b last h
  have hw : dataField w = b ∧ lastField w = last := by
    rcases h with h | h <;> rw [eq_encode_of_decode h] <;> simp [encode]
  obtain ⟨rfl, rfl⟩ := hw
  exact ⟨toNat_dataField w, toNat_lastField w⟩

/-- Settles O4: the rows of the table at seven words. -/
theorem sampleWordsDecode : Obligations.SampleWordsDecode := by
  unfold Obligations.SampleWordsDecode; decide

/-- A malformed word sets `LASTRES` of the engine it is addressed to (R88). -/
theorem issue_malformed {w : Word} (h : decode? w = none) (s : State) :
    issue w s = .next (s.malformed (unitField w)) := by
  rw [decode?] at h
  rw [issue]
  cases hd : decode w <;> simp_all

/-- A write of `CMD` issues its word, wherever `CODEC_BASE` is (10_state.md R40). -/
theorem step_cmdWrite {s : State} {rest : List Access} {w : Word}
    (hp : s.pending = .regWrite s.params.codecBase 4 w :: rest) : step s = issue w { s with pending := rest } := by
  have haddr : Reg.address s.params .cmd = s.params.codecBase := by simp [Reg.address, Reg.offset]
  exact step_command hp (haddr ▸ command?_wr_cmd s.params w)

/-- Settles O7: the word is issued, and the one register it sets is `LASTRES`. -/
theorem malformedWordSetsLastres : Obligations.MalformedWordSetsLastres := by
  intro s rest w hp hd
  rw [step_cmdWrite hp, issue_malformed hd, unitField]
  cases w.getLsbD 4 <;> rfl

/-! ### The wire format (30_encoding.md R91 to R98) -/

/-- No byte of a block of the grammar is 0 (R91). -/
theorem Block.ne_zero_of_wf {x : Block} (h : x.wf = true) {b : Byte} (hb : b ∈ x.bytes) : b ≠ 0#8 := by
  simp only [Block.wf, Bool.and_eq_true, bne_iff_ne, List.all_eq_true] at h
  obtain ⟨⟨hcode, -⟩, hlits⟩ := h
  rcases List.mem_cons.1 hb with rfl | hb
  · exact hcode
  · exact hlits b hb

/-- The bytes of a frame's blocks, counted: the payload, one for the zero that the last block does not stand for, and
one for each capped block that another follows (R98). -/
theorem length_flatMap_bytes {l : List Block} (h : l ≠ []) :
    (l.flatMap Block.bytes).length = (payloadOf l).length + 1 + cappedBefore l := by
  induction l with
  | nil => exact absurd rfl h
  | cons x l ih =>
    by_cases hl : l = []
    · subst hl; simp [Block.bytes, payloadOf, cappedBefore]
    · rw [List.flatMap_cons, List.length_append, ih hl, payloadOf_cons hl, cappedBefore_cons hl]
      by_cases hc : x.code = 0xFF#8 <;> simp [Block.bytes, hc] <;> omega

/-- A full block that another follows stands for its literals alone, and counts as capped. -/
theorem payloadOf_full {run : List Byte} {l : List Block} (hfull : run.length = 254) (h : l ≠ []) :
    payloadOf (Block.holding run :: l) = run ++ payloadOf l ∧
    cappedBefore (Block.holding run :: l) = cappedBefore l + 1 := by
  have hcode := (Block.holding_capped hfull.le).2 hfull
  rw [payloadOf_cons h, cappedBefore_cons h, if_pos hcode, if_pos hcode, List.append_nil, Nat.add_comm]
  exact ⟨rfl, rfl⟩

/-- A block with room that another follows stands for its literals and a 0, and does not count as capped. -/
theorem payloadOf_room {run : List Byte} {l : List Block} (hroom : run.length < 254) (h : l ≠ []) :
    payloadOf (Block.holding run :: l) = run ++ 0#8 :: payloadOf l ∧
    cappedBefore (Block.holding run :: l) = cappedBefore l := by
  have hcode := mt (Block.holding_capped hroom.le).1 hroom.ne
  rw [payloadOf_cons h, cappedBefore_cons h, if_neg hcode, if_neg hcode, List.append_assoc, Nat.zero_add]
  exact ⟨rfl, rfl⟩

/-- How the blocks of a payload grow (40_encoder.md R115 to R118, R124): `Fills run rest l` when a block that holds `run`
and is then given `rest` becomes the blocks `l`. -/
inductive Fills : List Byte → List Byte → List Block → Prop
  /-- nothing follows: the block is the last -/
  | last {run : List Byte} (hlen : run.length ≤ 254) : Fills run [] [Block.holding run]
  /-- a 0 after a full block closes a block of its own -/
  | fullZero {run rest : List Byte} {l : List Block} (hfull : run.length = 254) (h : Fills [] rest l) :
      Fills run (0#8 :: rest) (Block.holding run :: Block.holding [] :: l)
  /-- a literal after a full block opens the next block -/
  | fullLiteral {run rest : List Byte} {b : Byte} {l : List Block} (hfull : run.length = 254) (hb : b ≠ 0#8)
      (h : Fills [b] rest l) : Fills run (b :: rest) (Block.holding run :: l)
  /-- a 0 closes the block -/
  | zero {run rest : List Byte} {l : List Block} (hroom : run.length < 254) (h : Fills [] rest l) :
      Fills run (0#8 :: rest) (Block.holding run :: l)
  /-- a literal goes into the block -/
  | literal {run rest : List Byte} {b : Byte} {l : List Block} (hroom : run.length < 254) (hb : b ≠ 0#8)
      (h : Fills (run ++ [b]) rest l) : Fills run (b :: rest) l

/-- What `blocksFrom` answers, case by case. -/
theorem fills_blocksFrom {run rest : List Byte} (hlen : run.length ≤ 254) : Fills run rest (blocksFrom run rest) := by
  induction rest generalizing run with
  | nil => exact .last hlen
  | cons b rest ih =>
    have hroom : run.length ≠ Config.maxRun → run.length < 254 := lt_of_le_of_ne hlen
    rw [blocksFrom]
    split_ifs with hfull hb hb
    · rw [hb]; exact .fullZero hfull (ih (by simp))
    · exact .fullLiteral hfull hb (ih (by simp))
    · rw [hb]; exact .zero (hroom hfull) (ih (by simp))
    · exact .literal (hroom hfull) hb (ih (by simpa using hroom hfull))

namespace Fills

variable {run rest : List Byte} {l : List Block}

theorem ne_nil (h : Fills run rest l) : l ≠ [] := by
  induction h with
  | literal _ _ _ ih => exact ih
  | _ => simp

/-- The blocks are blocks of the grammar (R91, R92). -/
theorem wf (h : Fills run rest l) (hz : ∀ b ∈ run, b ≠ 0#8) : ∀ x ∈ l, x.wf = true := by
  induction h with
  | last hlen => simpa using Block.holding_wf hlen hz
  | fullZero hfull _ ih =>
    simpa using ⟨Block.holding_wf hfull.le hz, Block.holding_wf (run := []) (by simp) (by simp), ih (by simp)⟩
  | fullLiteral hfull hb _ ih => simpa using ⟨Block.holding_wf hfull.le hz, ih (by simpa using hb)⟩
  | zero hroom _ ih => simpa using ⟨Block.holding_wf hroom.le hz, ih (by simp)⟩
  | literal _ hb _ ih => exact ih (by simpa [or_imp, forall_and] using ⟨hz, hb⟩)

/-- The blocks stand for what the first of them held and what followed (R93). -/
theorem payload (h : Fills run rest l) : payloadOf l = run ++ rest := by
  induction h with
  | last => exact (List.append_nil _).symm
  | fullZero hfull h ih =>
    rw [(payloadOf_full hfull (by simp)).1, (payloadOf_room (by simp) h.ne_nil).1, ih]; rfl
  | fullLiteral hfull _ h ih => rw [(payloadOf_full hfull h.ne_nil).1, ih]; rfl
  | zero hroom h ih => rw [(payloadOf_room hroom h.ne_nil).1, ih]; rfl
  | literal _ _ _ ih => rw [ih, List.append_assoc]; rfl

/-- A capped block that another follows takes 254 bytes of the payload, and a byte follows the last of them (R98). -/
theorem capped_le (h : Fills run rest l) : 254 * cappedBefore l ≤ run.length + rest.length - 1 := by
  induction h with
  | last => simp [cappedBefore]
  | fullZero hfull h ih =>
    rw [(payloadOf_full hfull (by simp)).2, (payloadOf_room (by simp) h.ne_nil).2, hfull, List.length_cons]
    rw [List.length_nil] at ih; omega
  | fullLiteral hfull _ h ih =>
    rw [(payloadOf_full hfull h.ne_nil).2, hfull, List.length_cons]
    rw [List.length_singleton] at ih; omega
  | zero hroom h ih =>
    rw [(payloadOf_room hroom h.ne_nil).2, List.length_cons]
    rw [List.length_nil] at ih; omega
  | literal _ _ _ ih =>
    rw [List.length_cons]
    rw [List.length_append, List.length_singleton] at ih; omega

/-- Without a 0 in the payload every block but the last is capped (R98). -/
theorem capped_eq (h : Fills run rest l) (hz : ∀ b ∈ rest, b ≠ 0#8) :
    cappedBefore l = (run.length + rest.length - 1) / 254 := by
  induction h with
  | last hlen => simp [cappedBefore]; omega
  | fullZero | zero => exact absurd rfl (hz 0#8 (by simp))
  | fullLiteral hfull _ h ih =>
    rw [(payloadOf_full hfull h.ne_nil).2, hfull, List.length_cons, ih fun b hb => hz b (by simp [hb]),
      List.length_singleton]
    omega
  | literal _ _ _ ih =>
    rw [ih fun b hb => hz b (by simp [hb]), List.length_cons, List.length_append, List.length_singleton]
    omega

end Fills

/-- The size bound counts one byte for each full block that another follows (R97, R98). -/
theorem bound_eq (n : Nat) : bound n = n + 2 + (n - 1) / 254 := by
  simp only [bound, ceilDiv, Config.maxRun]
  split <;> omega

/-- Settles O51: the blocks of a payload are blocks of the grammar that stand for it, so its frame is as long as their
capped blocks say. -/
theorem frameOfPayload : Obligations.FrameOfPayload := by
  intro p
  have h : Fills [] p (blocksOf p) := fills_blocksFrom (by simp)
  have hwf := h.wf (by simp)
  have hlen : (frameOf p).length = p.length + 2 + cappedBefore (blocksOf p) := by
    rw [frameOf, frameBytes, List.length_append, length_flatMap_bytes h.ne_nil, h.payload, List.length_singleton]
    simp only [List.nil_append]; omega
  have hle := h.capped_le
  rw [List.length_nil, Nat.zero_add] at hle
  refine ⟨h.ne_nil, hwf, h.payload, ⟨_, rfl, fun b hb => ?_⟩, hlen, ?_, fun hz => ?_⟩
  · obtain ⟨x, hx, hbx⟩ := List.mem_flatMap.1 hb
    exact Block.ne_zero_of_wf (hwf x hx) hbx
  · rw [hlen, bound_eq]; omega
  · rw [hlen, bound_eq, h.capped_eq hz, List.length_nil, Nat.zero_add]

/-! ### How much the decoder writes (30_encoding.md R99) -/

theorem Session.toNat_advance_le (x : Session) : x.advance.cursor.toNat ≤ x.cursor.toNat + 1 := by
  rw [Session.advance_cursor, BitVec.toNat_add]
  exact Nat.mod_le _ _

/-- A DEC.FEED moves the cursor by at most one (R148, R150). -/
theorem Dec.toNat_feed_cursor_le (legacy : Bool) (b : Byte) (last : Bool) (d : Dec) :
    (d.feed legacy b last).regs.cursor.toNat ≤ d.cursor.toNat + 1 := by
  have hadv := d.toNat_advance_le
  unfold Dec.feed
  rcases d.whenOpen_cases (Dec.feedOpen legacy b last) with ⟨_, h⟩ | ⟨_, h⟩ | ⟨_, h⟩ <;> rw [h]
  · exact Nat.le_succ _
  · exact Nat.le_succ _
  rcases d.feedOpen_cases legacy b last with ⟨_, h⟩ | ⟨_, _, h⟩ | ⟨_, _, h⟩ <;> rw [h]
  · exact Nat.le_succ _
  · rcases d.literal_cases b with ⟨_, h⟩ | ⟨_, _, h⟩ | ⟨_, _, h⟩ <;> rw [h]
    · exact Nat.le_succ _
    · exact Nat.le_succ _
    · exact hadv
  · rcases d.codeByte_cases legacy b last with ⟨_, h⟩ | ⟨_, _, h⟩ | ⟨_, _, h⟩ <;> rw [h]
    · simp
    · exact Nat.le_succ _
    · simpa using hadv

/-- The first byte of a session is a code byte with no zero before it, so nothing is written for it (R150, R152). -/
theorem Dec.feed_cursor_of_start {d : Dec} (hw : d.windowRefused = false) (legacy : Bool) (b : Byte) (last : Bool) :
    (d.start.regs.feed legacy b last).regs.cursor = 0 := by
  have hnone : synthesizes legacy 0xFF#8 b last = false := by cases legacy <;> rfl
  rw [Dec.start_accepted hw, Dec.feed, Dec.whenOpen_opened rfl]
  simp [Dec.feedOpen, Dec.codeByte, hnone]

/-- Feeding `n` bytes moves the cursor by at most `n`. -/
theorem toNat_cursor_le_of_feeds {input : List (Byte × Bool)} {s t : State}
    (h : runAll (input.map (fun x => Instr.decFeed x.1 x.2)) s = .next t) :
    t.dec.cursor.toNat ≤ s.dec.cursor.toNat + input.length := by
  induction input generalizing s with
  | nil => cases h; exact Nat.le_refl _
  | cons x input ih =>
    have hfirst := Dec.toNat_feed_cursor_le s.params.legacyChunkZero x.1 x.2 s.dec
    rw [List.map_cons, runAll_cons _ _ (exec_dec rfl s)] at h
    have hrest := ih h
    simp only [State.commitDec_dec, Instr.decEffect, List.length_cons] at hrest ⊢
    omega

/-- Settles O55: the first byte writes nothing, and each later one at most one byte. -/
theorem decoderWritesFewerThanFed : Obligations.DecoderWritesFewerThanFed := by
  intro input s t hne hcap hwin h
  obtain ⟨x, input, rfl⟩ := List.exists_cons_of_ne_nil hne
  have hw : s.dec.windowRefused = false := Session.windowRefused_false_iff.2 ⟨hcap, hwin⟩
  rw [decFeeds, runAll_cons _ _ (exec_dec rfl s), List.map_cons, runAll_cons _ _ (exec_dec rfl _)] at h
  have hrest := toNat_cursor_le_of_feeds h
  simp only [State.commitDec_dec, Instr.decEffect, Dec.feed_cursor_of_start hw] at hrest
  simpa using hrest

/-! ### The one-shot compositions (30_encoding.md R90) -/

/-- No FEED or END changes the session any more but for who may use the window: it answers what `LASTRES` already holds
(60_exceptions.md R187, R189). -/
def Session.Stuck (x : Session) : Prop :=
  x.phase = .idle ∧ x.lastRes = .invalidArgument ∨ x.phase = .failed ∧ x.lastRes = x.failErr

@[simp] theorem State.session_setCustody (s : State) (u v : Engine) (c : Custody) :
    (s.setCustody u c).session v = s.session v := by
  cases u <;> cases v <;> rfl

theorem State.setCustody_setCustody (s : State) (u : Engine) (c d : Custody) :
    (s.setCustody u c).setCustody u d = s.setCustody u d := by
  cases u <;> rfl

theorem State.setCustody_self (s : State) (u : Engine) : s.setCustody u (s.custody u) = s := by
  cases u <;> rfl

theorem Session.invalid_eq_self {x : Session} (h : x.lastRes = .invalidArgument) : x.invalid = x := by
  rw [Session.invalid, ← h]

theorem Session.repeatError_eq_self {x : Session} (h : x.lastRes = x.failErr) : x.repeatError = x := by
  obtain ⟨⟩ := x; cases h; rfl

theorem Enc.whenOpen_stuck {e : Enc} (h : e.toSession.Stuck) (f : Enc → Effect Enc) :
    e.whenOpen f = { regs := e, writes := [] } := by
  rcases h with ⟨hp, hl⟩ | ⟨hp, hl⟩
  · rw [Enc.whenOpen_idle hp, Enc.invalid, Session.invalid_eq_self hl]
  · rw [Enc.whenOpen_failed hp, Enc.repeatError, Session.repeatError_eq_self hl]

theorem Dec.whenOpen_stuck {d : Dec} (h : d.toSession.Stuck) (f : Dec → Effect Dec) :
    d.whenOpen f = { regs := d, writes := [] } := by
  rcases h with ⟨hp, hl⟩ | ⟨hp, hl⟩
  · rw [Dec.whenOpen_idle hp, Dec.invalid, Session.invalid_eq_self hl]
  · rw [Dec.whenOpen_failed hp, Dec.repeatError, Session.repeatError_eq_self hl]

/-- A FEED or END of a stuck session leaves everything but who may use the window. -/
theorem exec_stuck {i : Instr} (hi : i.isStart = false) {s : State} (h : (s.session i.engine).Stuck) :
    ∃ c, exec i s = .next (s.setCustody i.engine c) := by
  cases i with
  | encStart | decStart => cases hi
  | encFeed b last =>
    rw [exec_enc rfl, Instr.encEffect, Enc.feed, Enc.whenOpen_stuck h]; exact ⟨_, rfl⟩
  | encEnd =>
    rw [exec_enc rfl, Instr.encEffect, Enc.finish, Enc.whenOpen_stuck h]; exact ⟨_, rfl⟩
  | decFeed b last =>
    rw [exec_dec rfl, Instr.decEffect, Dec.feed, Dec.whenOpen_stuck h]; exact ⟨_, rfl⟩
  | decEnd =>
    rw [exec_dec rfl, Instr.decEffect, Dec.finish, Dec.whenOpen_stuck h]; exact ⟨_, rfl⟩

/-- Where a command of a one-shot leaves its session: open after `OK`, or stuck after an error. -/
def Session.OpenOrStuck (x : Session) : Prop :=
  x.lastRes = .ok ∧ x.phase = .opened ∨ x.lastRes ≠ .ok ∧ x.Stuck

/-- A FEED or END of an open session ends `OK` with the session open, or in failure entry (R186). -/
theorem exec_opened_openOrStuck {i : Instr} (hi : i.isStart = false) {s t : State} (h : exec i s = .next t)
    (hp : (s.session i.engine).phase = .opened) : (t.session i.engine).OpenOrStuck := by
  cases he : i.engine with
  | enc =>
    rw [he] at hp; rw [exec_enc he] at h; cases h
    rw [State.session_enc] at hp
    have hcases := encEffect_cases i he s.enc
    simp only [hi, hp, Bool.false_eq_true, reduceCtorEq, false_and, and_false, false_or, true_and] at hcases
    rcases hcases with ⟨hf, herr, hl, _⟩ | ⟨ho, _, hl, _⟩
    · exact .inr ⟨by simp [hl], .inr ⟨hf, hl.trans herr.symm⟩⟩
    · exact .inl ⟨hl, ho⟩
  | dec =>
    rw [he] at hp; rw [exec_dec he] at h; cases h
    rw [State.session_dec] at hp
    have hcases := decEffect_cases i he s.params.legacyChunkZero s.dec
    simp only [hi, hp, Bool.false_eq_true, reduceCtorEq, false_and, and_false, false_or, true_and] at hcases
    rcases hcases with ⟨hf, hl, herr, _⟩ | ⟨ho, _, hl, _⟩
    · exact .inr ⟨by rcases hl with hl | hl <;> simp [hl], .inr ⟨hf, herr.symm⟩⟩
    · exact .inl ⟨hl, ho⟩

/-- A START that accepts its window opens a session, and one refused in `IDLE` leaves the engine stuck. -/
theorem exec_start_openOrStuck {i : Instr} (hi : i.isStart = true) {s t : State} (h : exec i s = .next t)
    (hw : (s.session i.engine).windowRefused = false ∨ (s.session i.engine).phase = .idle) :
    (t.session i.engine).OpenOrStuck := by
  cases i with
  | encStart =>
    rw [exec_enc rfl] at h; cases h
    change s.enc.start.regs.OpenOrStuck
    cases hr : s.enc.windowRefused
    · rw [Enc.start_accepted hr]; exact .inl ⟨rfl, rfl⟩
    · rw [Enc.start_refused hr]; exact .inr ⟨by simp, .inl ⟨hw.resolve_left (by simp [Instr.engine, hr]), rfl⟩⟩
  | decStart =>
    rw [exec_dec rfl] at h; cases h
    change s.dec.start.regs.OpenOrStuck
    cases hr : s.dec.windowRefused
    · rw [Dec.start_accepted hr]; exact .inl ⟨rfl, rfl⟩
    · rw [Dec.start_refused hr]; exact .inr ⟨by simp, .inl ⟨hw.resolve_left (by simp [Instr.engine, hr]), rfl⟩⟩
  | encFeed | encEnd | decFeed | decEnd => cases hi

section
variable {u : Engine} {cmds : List Instr} (hcmds : ∀ i ∈ cmds, i.engine = u ∧ i.isStart = false)
include hcmds

/-- FEEDs and ENDs of a stuck session leave everything but who may use the window. -/
theorem runAll_stuck {s : State} (h : (s.session u).Stuck) : ∃ c, runAll cmds s = .next (s.setCustody u c) := by
  induction cmds generalizing s with
  | nil => exact ⟨_, congrArg _ (s.setCustody_self u).symm⟩
  | cons i cmds ih =>
    obtain ⟨⟨rfl, hi⟩, hcmds⟩ := List.forall_mem_cons.1 hcmds
    obtain ⟨c, hfirst⟩ := exec_stuck hi h
    obtain ⟨c', hrest⟩ := ih hcmds (s := s.setCustody i.engine c) (by simpa using h)
    exact ⟨c', by rw [runAll_cons _ _ hfirst, hrest, State.setCustody_setCustody]⟩

/-- After a command that leaves its session open or stuck, FEEDs and ENDs that stop at the first error and the same
commands run to the last leave the same but for who may use the window. -/
theorem stop_early_of_openOrStuck {i : Instr} {s t : State} (h : exec i s = .next t)
    (ht : (t.session u).OpenOrStuck) :
    ∃ r c, runUntilError u (i :: cmds) s = .next r ∧ runAll (i :: cmds) s = .next (r.setCustody u c) := by
  induction cmds generalizing i s t with
  | nil => exact ⟨t, t.custody u, by simp [runUntilError, h], by rw [runAll_cons _ _ h, State.setCustody_self]; rfl⟩
  | cons j cmds ih =>
    rw [runUntilError, h, runAll_cons _ _ h]
    rcases ht with ⟨hok, hopen⟩ | ⟨herr, hstuck⟩
    · obtain ⟨⟨rfl, hj⟩, hcmds⟩ := List.forall_mem_cons.1 hcmds
      have hnext := exec_eq j t
      simp only [if_pos hok]
      exact ih hcmds hnext (exec_opened_openOrStuck hj hnext hopen)
    · simp only [if_neg herr]
      obtain ⟨c, hrest⟩ := runAll_stuck hcmds hstuck
      exact ⟨t, c, rfl, hrest⟩

end

/-- A one-shot's commands after its START are FEEDs of its engine and the END. -/
theorem feedChunk_end {u : Engine} {feed : Byte → Bool → Instr} {finish : Instr}
    (hfeed : ∀ b last, (feed b last).engine = u ∧ (feed b last).isStart = false)
    (hend : finish.engine = u ∧ finish.isStart = false) (p : List Byte) :
    ∀ i ∈ feedChunk feed p ++ [finish], i.engine = u ∧ i.isStart = false := by
  induction p using feedChunk.induct with
  | case1 => simpa [feedChunk] using hend
  | case2 b => simpa [feedChunk] using ⟨hfeed b true, hend⟩
  | case3 b c rest ih => exact List.forall_mem_cons.2 ⟨hfeed b false, ih⟩

/-- Settles O56: the session is open after the START or stuck, and it stays stuck after the first error. -/
theorem stoppingEarlyChangesNothing : Obligations.StoppingEarlyChangesNothing := by
  intro p base cap s
  refine ⟨fun hw => ?_, fun hw => ?_⟩
  · have hstart := exec_eq .encStart ((s.writeReg .encDstBase base).writeReg .encDstCap cap)
    have htail := feedChunk_end (u := .enc) (feed := .encFeed) (finish := .encEnd)
      (fun _ _ => ⟨rfl, rfl⟩) ⟨rfl, rfl⟩ p
    exact stop_early_of_openOrStuck htail hstart
      (exec_start_openOrStuck rfl hstart (hw.imp_left Session.windowRefused_false_iff.2))
  · have hstart := exec_eq .decStart ((s.writeReg .decDstBase base).writeReg .decDstCap cap)
    have htail := feedChunk_end (u := .dec) (feed := .decFeed) (finish := .decEnd)
      (fun _ _ => ⟨rfl, rfl⟩) ⟨rfl, rfl⟩ p
    exact stop_early_of_openOrStuck htail hstart
      (exec_start_openOrStuck rfl hstart (hw.imp_left Session.windowRefused_false_iff.2))

end Sys2Proof.Machine
end

section
/-! The encoder (40_encoder.md): the forms of START, FEED and END and what each leaves unchanged, and that a session
writes the frame of its payload. -/
namespace Sys2Proof.Machine

/-! ### What every command of the encoder leaves, and the bytes it writes -/

/-- A command of the encoder leaves everything but its registers, memory and its window's custody. -/
theorem exec_onlyEnc {i : Instr} (hi : i.engine = .enc) {s t : State} (h : exec i s = .next t) : OnlyEnc s t := by
  rw [exec_enc hi] at h; cases h
  exact ⟨rfl, rfl, rfl, rfl, rfl, rfl, rfl, rfl⟩

/-- In a sound state a command of the encoder writes to no byte outside the window (20_memory.md R61). -/
theorem exec_outsideWindowKept {i : Instr} (hi : i.engine = .enc) {s t : State} (hs : s.enc.Inv)
    (h : exec i s = .next t) : OutsideWindowKept s.enc.toSession s t := by
  rw [exec_enc hi] at h; cases h
  exact fun a ha => State.read_land_outside (fun c => hs.writes_inWindow) ha

/-- One byte written: it reads as written unless it is raced for. -/
theorem State.read_land_cell {s : State} {a : Nat} (ha : s.raced a = false) (c : Host.Cell) :
    (s.land [c]).read a = if a = c.1 then some c.2 else s.mem.read a := by
  simp [State.read_land, ha, Memory.read_write, eq_comm]

/-- Two bytes written: the later one prevails (20_memory.md R66). -/
theorem State.read_land_two_cells {s : State} {a : Nat} (ha : s.raced a = false) (c d : Host.Cell) :
    (s.land [c, d]).read a = if a = d.1 then some d.2 else if a = c.1 then some c.2 else s.mem.read a := by
  simp [State.read_land, ha, Memory.read_write, eq_comm]

/-- Writes land one after another, also where some are raced for. -/
theorem State.land_cons (s : State) (c : Host.Cell) (w : List Host.Cell) :
    s.land (c :: w) = State.land { s with mem := s.land [c] } w := by
  have hrest : State.land { s with mem := s.land [c] } w =
      (s.land [c]).writeAll (w.filter (fun d => !s.raced d.1)) := rfl
  rw [hrest]
  cases hc : s.raced c.1 <;> simp [State.land, hc]

/-- A write to a byte that nobody races for lands. -/
theorem State.land_cell {s : State} {c : Host.Cell} (hc : s.raced c.1 = false) : s.land [c] = s.mem.write c.1 c.2 := by
  simp [State.land, hc]

/-! ### ENC.START (R110) -/

theorem exec_encStart_refused {s : State} (h : s.enc.windowRefused = true) :
    exec .encStart s = .next { s with enc := s.enc.invalid } := by
  simp [exec, execEncStart, Enc.start_refused h, h, State.commitEnc, Custody.started]

theorem exec_encStart_accepted {s : State} (h : s.enc.windowRefused = false) :
    exec .encStart s = .next { s with
      enc := { toSession := s.enc.toSession.openAt 1, slot := 0, blen := 1 }, encCustody := .engine } := by
  simp [exec, execEncStart, Enc.start_accepted h, h, State.commitEnc, Custody.started]

/-- Settles O17: START answers by whether it refuses the argument registers' window. -/
theorem encStartOpensSession : Obligations.EncStartOpensSession := by
  intro s
  refine ⟨fun hbad => exec_encStart_refused ?_, fun hcap hwin => ⟨.engine, ?_⟩⟩
  · rw [← Bool.not_eq_false, Session.windowRefused_false_iff]
    exact fun ⟨hcap, hwin⟩ => hbad.elim hcap.not_gt hwin.not_gt
  · exact exec_encStart_accepted (Session.windowRefused_false_iff.2 ⟨hcap, hwin⟩)

/-! ### ENC.FEED on an open session (R113 to R119) -/

/-- Settles O18: the arm of ENC.FEED does not use `LAST`. -/
theorem encFeedIgnoresLast : Obligations.EncFeedIgnoresLast := fun _ _ => rfl

/-- The block is closed, its code goes into the slot, and a new one opens at the cursor (R115, R117). -/
def State.closeBlock (s : State) : State :=
  { s with enc := s.enc.openBlock, mem := s.land [s.enc.put s.enc.slot s.enc.blen] }

/-- A block just opened is not full. -/
theorem State.closeBlock_blen_ne (s : State) : s.closeBlock.enc.blen ≠ 0xFF#8 :=
  (by decide : (1 : Byte) ≠ 0xFF#8)

/-- A literal goes to the cursor (R116). -/
def State.addLiteral (s : State) (b : Byte) : State :=
  { s with enc := { s.enc with toSession := s.enc.toSession.advance, blen := s.enc.blen + 1 },
           mem := s.land [s.enc.put s.enc.cursor b] }

/-- The end of an ENC.FEED that ends `OK`. -/
def State.fed (s : State) : State := { s with enc := s.enc.succeed, encCustody := .engine }

/-- The end of an ENC.FEED that overflows, with the bytes written before the failing check (R126). -/
def State.overflowed (s : State) (w : List Host.Cell) : State :=
  s.commitEnc { regs := s.enc.fail .bufferOverflow, writes := w } .engine

/-- Without room for its first offset an ENC.FEED overflows (R119, R182). A literal writes nothing then. -/
theorem Enc.feedOpen_noRoom {e : Enc} (hf : e.full = true) (b : Byte) :
    (e.feedOpen b).regs = e.fail .bufferOverflow ∧
    (e.blen ≠ 0xFF#8 → b ≠ 0#8 → (e.feedOpen b).writes = []) := by
  rcases e.feedOpen_cases b with ⟨hblen, _, h⟩ | ⟨_, hroom, _⟩ | ⟨_, h⟩
  · rw [h]; exact ⟨rfl, fun hne => absurd hblen hne⟩
  · rw [hf] at hroom; cases hroom
  · rcases e.consume_cases b with ⟨_, hregs, hwrites⟩ | ⟨hroom, _⟩ | ⟨hroom, _⟩
    · rw [h, hregs, hwrites]; exact ⟨rfl, fun _ hb => if_neg hb⟩
    · rw [hf] at hroom; cases hroom
    · rw [hf] at hroom; cases hroom

theorem exec_encFeed_opened {s : State} (hp : s.enc.phase = .opened) (b : Byte) (last : Bool) :
    exec (.encFeed b last) s = .next (s.commitEnc (s.enc.feedOpen b) .engine) := by
  rw [exec_enc rfl]
  simp [Instr.encEffect, Instr.encCustody, Enc.feed, Enc.whenOpen_opened hp, hp, Custody.fed]

section
variable {s : State} (hp : s.enc.phase = .opened) (last : Bool)
include hp

theorem exec_encFeed_literal {b : Byte} (hblen : s.enc.blen ≠ 0xFF#8) (hf : s.enc.full = false) (hb : b ≠ 0#8) :
    exec (.encFeed b last) s = .next (s.addLiteral b).fed := by
  have hfeed : s.enc.feedOpen b =
      { regs := (s.addLiteral b).enc.succeed, writes := [s.enc.put s.enc.cursor b] } := by
    simp [Enc.feedOpen, Enc.consume, Enc.literal, hblen, hb, hf, State.addLiteral]
  rw [exec_encFeed_opened hp, hfeed]; rfl

theorem exec_encFeed_zero (hblen : s.enc.blen ≠ 0xFF#8) (hf : s.enc.full = false) :
    exec (.encFeed 0#8 last) s = .next s.closeBlock.fed := by
  have hfeed : s.enc.feedOpen 0#8 =
      { regs := s.closeBlock.enc.succeed, writes := [s.enc.put s.enc.slot s.enc.blen] } := by
    simp [Enc.feedOpen, Enc.consume, Enc.delimiter, hblen, hf, State.closeBlock]
  rw [exec_encFeed_opened hp, hfeed]; rfl

/-- A full block is closed, and the byte then goes to the new block as if it came to it first (R115). -/
theorem exec_encFeed_full (hblen : s.enc.blen = 0xFF#8) (hf : s.enc.full = false) (b : Byte) :
    exec (.encFeed b last) s = exec (.encFeed b last) s.closeBlock := by
  have hp' : s.closeBlock.enc.phase = .opened := hp
  rw [exec_encFeed_opened hp, exec_encFeed_opened hp']
  have hfeed : s.enc.feedOpen b = (s.enc.openBlock.consume b).after (s.enc.put s.enc.slot s.enc.blen) := by
    simp [Enc.feedOpen, hblen, hf]
  have hfeed' : s.closeBlock.enc.feedOpen b = s.enc.openBlock.consume b := by
    rw [Enc.feedOpen, if_neg s.closeBlock_blen_ne]; rfl
  rw [hfeed, hfeed', State.commitEnc, Effect.after_writes, State.land_cons]
  rfl

theorem exec_encFeed_noRoom (hf : s.enc.full = true) (b : Byte) :
    ∃ w, exec (.encFeed b last) s = .next (s.overflowed w) ∧ (s.enc.blen ≠ 0xFF#8 → b ≠ 0#8 → w = []) := by
  obtain ⟨hregs, hwrites⟩ := Enc.feedOpen_noRoom hf b
  exact ⟨_, by rw [exec_encFeed_opened hp, State.overflowed, ← hregs], hwrites⟩

end

/-- Settles O19: with room the literal goes to the cursor, without room nothing is written. -/
theorem encFeedLiteral : Obligations.EncFeedLiteral := by
  intro s b last hp hblen hb
  refine ⟨fun hroom => ?_, fun hfull => ?_⟩
  · have hexec := exec_encFeed_literal hp last hblen ((Session.not_full_iff _).2 hroom) hb
    exact ⟨_, hexec, exec_onlyEnc rfl hexec, rfl, fun a ha => State.read_land_cell ha _⟩
  · obtain ⟨w, hexec, hw⟩ := exec_encFeed_noRoom hp last ((Session.full_iff _).2 hfull) b
    cases hw hblen hb
    exact ⟨_, hexec, exec_onlyEnc rfl hexec, rfl, fun _ _ => rfl⟩

/-- Settles O20: with room the zero closes the block. -/
theorem encFeedDelimiter : Obligations.EncFeedDelimiter := by
  intro s last hp hblen hroom
  have hexec := exec_encFeed_zero hp last hblen ((Session.not_full_iff _).2 hroom)
  exact ⟨_, hexec, exec_onlyEnc rfl hexec, rfl, fun a ha => State.read_land_cell ha _⟩

/-- Settles O21: the command runs as from the state with the block closed; there the slot's byte holds `0xFF` unless it
is raced for, and the registers do not depend on memory. -/
theorem encFeedCappedClosure : Obligations.EncFeedCappedClosure := by
  intro s b last hp hblen hroom
  have hexec := exec_encFeed_full hp last hblen ((Session.not_full_iff _).2 hroom) b
  have hrun := hexec.trans (exec_enc rfl _)
  refine ⟨_, _, hrun, exec_enc rfl _, exec_onlyEnc rfl hrun, rfl, fun _ hslot => ?_⟩
  rw [State.closeBlock, hblen, State.land_cell hslot]
  rfl

/-- Settles O22: the full block closes, and then the new, empty block. -/
theorem encFeedCappedZero : Obligations.EncFeedCappedZero := by
  intro s last hp hblen hroom
  have hf : s.enc.full = false := (Session.not_full_iff _).2 (by omega)
  have hf' : s.closeBlock.enc.full = false :=
    (Session.not_full_iff _).2 ((Session.toNat_succ_of_room hf).trans_lt hroom)
  have hexec := (exec_encFeed_full hp last hblen hf 0#8).trans
    (exec_encFeed_zero (s := s.closeBlock) hp last s.closeBlock_blen_ne hf')
  have hcursor : s.enc.cursor + 1 + 1 = s.enc.cursor + 2 := by rw [BitVec.add_assoc]; rfl
  refine ⟨_, hexec, exec_onlyEnc rfl hexec, ?_, fun a ha => ?_⟩
  · rw [← hcursor]; rfl
  · have hnew : s.closeBlock.closeBlock.fed.mem.read a =
        if a = s.enc.address s.enc.cursor then some 0x01#8 else s.closeBlock.mem.read a :=
      State.read_land_cell (s := s.closeBlock) ha _
    rw [hnew, ← hblen]
    exact congrArg _ (State.read_land_cell ha _)

/-- How an ENC.FEED that ends `OK` takes its byte (R114): `Takes s b r` when `r` is what the byte `b` makes of the
block being filled in `s`. -/
inductive Takes : State → Byte → State → Prop
  /-- a literal goes into the block (R116) -/
  | literal {s : State} {b : Byte} (hblen : s.enc.blen ≠ 0xFF#8) (hf : s.enc.full = false) (hb : b ≠ 0#8) :
      Takes s b (s.addLiteral b)
  /-- a 0 closes the block (R117) -/
  | zero {s : State} (hblen : s.enc.blen ≠ 0xFF#8) (hf : s.enc.full = false) : Takes s 0#8 s.closeBlock
  /-- a full block is closed first (R115, R118) -/
  | full {s r : State} {b : Byte} (hblen : s.enc.blen = 0xFF#8) (hf : s.enc.full = false)
      (h : Takes s.closeBlock b r) : Takes s b r

/-- A block that is not full takes a byte for which there is room. -/
theorem exec_encFeed_block {s : State} (hp : s.enc.phase = .opened) (last : Bool) (hblen : s.enc.blen ≠ 0xFF#8)
    (hf : s.enc.full = false) (b : Byte) : ∃ r, Takes s b r ∧ exec (.encFeed b last) s = .next r.fed := by
  by_cases hb : b = 0#8
  · subst hb; exact ⟨_, .zero hblen hf, exec_encFeed_zero hp last hblen hf⟩
  · exact ⟨_, .literal hblen hf hb, exec_encFeed_literal hp last hblen hf hb⟩

/-- What an ENC.FEED of an open session can do: take its byte, overflow at once, or overflow after it closed a full
block (R114, R119). -/
theorem exec_encFeed_cases {s : State} (hp : s.enc.phase = .opened) (b : Byte) (last : Bool) :
    (∃ r, Takes s b r ∧ exec (.encFeed b last) s = .next r.fed) ∨
    (s.enc.full = true ∧ ∃ w, exec (.encFeed b last) s = .next (s.overflowed w)) ∨
    (s.enc.blen = 0xFF#8 ∧ s.enc.full = false ∧ s.closeBlock.enc.full = true ∧
      ∃ w, exec (.encFeed b last) s = .next (s.closeBlock.overflowed w)) := by
  cases hf : s.enc.full
  case true =>
    obtain ⟨w, hexec, -⟩ := exec_encFeed_noRoom hp last hf b
    exact .inr (.inl ⟨rfl, w, hexec⟩)
  by_cases hblen : s.enc.blen = 0xFF#8
  · have hp' : s.closeBlock.enc.phase = .opened := hp
    rw [exec_encFeed_full hp last hblen hf]
    cases hf' : s.closeBlock.enc.full
    · obtain ⟨r, hr, hexec⟩ := exec_encFeed_block hp' last s.closeBlock_blen_ne hf' b
      exact .inl ⟨r, .full hblen hf hr, hexec⟩
    · obtain ⟨w, hexec, -⟩ := exec_encFeed_noRoom hp' last hf' b
      exact .inr (.inr ⟨hblen, rfl, rfl, w, hexec⟩)
  · exact .inl (exec_encFeed_block hp last hblen hf b)

namespace Takes

variable {s r : State} {b : Byte}

/-- Taking a byte leaves the session as open as it was. -/
theorem phase (h : Takes s b r) : r.enc.phase = s.enc.phase := by
  induction h with
  | literal => rfl
  | zero => rfl
  | full _ _ _ ih => exact ih

/-- A byte takes one offset, or two after a capped closure, and they have room. -/
theorem cursor (h : Takes s b r) :
    r.enc.cursor.toNat = s.enc.cursor.toNat + (if s.enc.blen = 0xFF#8 then 2 else 1) ∧
    r.enc.cursor.toNat ≤ s.enc.winCap.toNat := by
  induction h with
  | literal hblen hf _ | zero hblen hf =>
    have hadv := Session.toNat_succ_of_room hf
    rw [if_neg hblen]
    exact ⟨hadv, hadv.trans_le ((Session.not_full_iff _).1 hf)⟩
  | @full s r b hblen hf _ ih =>
    obtain ⟨hcursor, hroom⟩ := ih
    have hadv : s.closeBlock.enc.cursor.toNat = s.enc.cursor.toNat + 1 := Session.toNat_succ_of_room hf
    rw [if_neg s.closeBlock_blen_ne] at hcursor
    rw [if_pos hblen]
    exact ⟨by omega, hroom⟩

end Takes

/-- Settles O23: a byte is taken exactly when its offsets have room, and an overflow leaves the registers of the state
in which the check failed. -/
theorem encFeedOverflowExactly : Obligations.EncFeedOverflowExactly := by
  intro s b last hp hs
  rcases exec_encFeed_cases hp b last with ⟨r, hr, hexec⟩ | ⟨hf, w, hexec⟩ | ⟨hblen, hf, hf', w, hexec⟩
  · obtain ⟨hcursor, hroom⟩ := hr.cursor
    have hok : r.fed.enc.lastRes = .ok := rfl
    refine ⟨_, hexec, ?_, fun hover => absurd (hok.symm.trans hover) (by decide), fun _ => ⟨hok, hr.phase.trans hp⟩⟩
    simp only [hok, reduceCtorEq, false_iff]; omega
  · have hfull := (Session.full_iff _).1 hf
    refine ⟨_, hexec, iff_of_true rfl ?_, fun _ => ⟨exec_onlyEnc rfl hexec, exec_outsideWindowKept rfl hs hexec, ?_⟩,
      fun hne => absurd rfl hne⟩
    · split <;> omega
    · rw [if_neg (by omega)]; rfl
  · have hroom := (Session.not_full_iff _).1 hf
    have hfull : s.enc.winCap.toNat ≤ (s.enc.cursor + 1).toNat := (Session.full_iff _).1 hf'
    rw [Session.toNat_succ_of_room hf] at hfull
    refine ⟨_, hexec, iff_of_true rfl ?_, fun _ => ⟨exec_onlyEnc rfl hexec, exec_outsideWindowKept rfl hs hexec, ?_⟩,
      fun hne => absurd rfl hne⟩
    · rw [if_pos hblen]; omega
    · rw [if_pos ⟨hblen, hroom⟩]; rfl

/-! ### ENC.END on an open session (R120, R121) -/

theorem exec_encEnd_opened {s : State} (hp : s.enc.phase = .opened) :
    exec .encEnd s = .next (s.commitEnc s.enc.finishOpen .unread) := by
  rw [exec_enc rfl]
  simp [Instr.encEffect, Instr.encCustody, Enc.finish, Enc.whenOpen_opened hp, hp, Custody.ended]

/-- An ENC.END with room writes the last code and the terminator. -/
theorem exec_encEnd_room {s : State} (hp : s.enc.phase = .opened) (hf : s.enc.full = false) :
    exec .encEnd s = .next (s.commitEnc
      { regs := { s.enc with cursor := s.enc.cursor + 1, result := s.enc.cursor + 1, lastRes := .ok },
        writes := [s.enc.put s.enc.slot s.enc.blen, s.enc.put s.enc.cursor 0#8] } .unread) := by
  rw [exec_encEnd_opened hp, Enc.finishOpen, if_neg (by simp [hf])]; rfl

/-- Without room for the terminator an ENC.END overflows. -/
theorem exec_encEnd_noRoom {s : State} (hp : s.enc.phase = .opened) (hf : s.enc.full = true) :
    exec .encEnd s = .next (s.commitEnc
      { regs := s.enc.fail .bufferOverflow, writes := [s.enc.put s.enc.slot s.enc.blen] } .unread) := by
  rw [exec_encEnd_opened hp, Enc.finishOpen, if_pos hf]

/-- Settles O24: END answers by whether there is room for the terminator. -/
theorem encEndWritesTerminator : Obligations.EncEndWritesTerminator := by
  intro s hp
  refine ⟨fun hroom => ?_, fun hfull hs => ?_⟩
  · have hexec := exec_encEnd_room hp ((Session.not_full_iff _).2 hroom)
    exact ⟨_, hexec, exec_onlyEnc rfl hexec, rfl, fun a ha => State.read_land_two_cells ha _ _⟩
  · have hexec := exec_encEnd_noRoom hp ((Session.full_iff _).2 hfull)
    exact ⟨_, hexec, exec_onlyEnc rfl hexec, rfl, exec_outsideWindowKept rfl hs hexec⟩

/-- In a started engine the slot lies below the cursor (10_state.md R24, R25). -/
theorem Enc.Inv.slot_lt_cursor {e : Enc} (h : e.Inv) (hp : e.phase = .opened) : e.slot.toNat < e.cursor.toNat := by
  obtain ⟨-, -, hblock⟩ := h
  obtain ⟨-, hpos, hend⟩ := hblock (by simp [hp])
  omega

/-- In a started engine the slot's address does not wrap. -/
theorem Enc.Inv.address_slot {e : Enc} (h : e.Inv) (hp : e.phase = .opened) :
    e.address e.slot = e.winBase.toNat + e.slot.toNat := by
  obtain ⟨⟨-, -, hwin, -⟩, -, hblock⟩ := h
  exact Session.address_eq hwin (hblock (by simp [hp])).1

/-- A cursor with room has an address that does not wrap. -/
theorem Enc.Inv.address_cursor {e : Enc} (h : e.Inv) (hf : e.full = false) :
    e.address e.cursor = e.winBase.toNat + e.cursor.toNat := by
  obtain ⟨⟨-, -, hwin, -⟩, -⟩ := h
  exact Session.address_eq hwin ((Session.not_full_iff _).1 hf)

/-- A command of the encoder keeps it sound. -/
theorem exec_encInv {i : Instr} {s t : State} (hs : s.enc.Inv) (h : exec i s = .next t) : t.enc.Inv := by
  rw [exec_eq] at h; cases h
  exact hs.effect i

/-- An ENC.END of an open session that ends `OK` had room, and wrote the last code and the terminator. -/
theorem encEnd_ok {s t : State} (hp : s.enc.phase = .opened) (h : exec .encEnd s = .next t)
    (hok : t.enc.lastRes = .ok) :
    s.enc.full = false ∧
    t.enc = { s.enc with cursor := s.enc.cursor + 1, result := s.enc.cursor + 1, lastRes := .ok } ∧
    ∀ a, s.raced a = false → t.mem.read a =
      if a = s.enc.address s.enc.cursor then some 0x00#8
      else if a = s.enc.address s.enc.slot then some s.enc.blen
      else s.mem.read a := by
  cases hf : s.enc.full
  · rw [exec_encEnd_room hp hf] at h; cases h
    exact ⟨rfl, rfl, fun a ha => State.read_land_two_cells ha _ _⟩
  · rw [exec_encEnd_noRoom hp hf] at h; cases h
    cases hok

/-- Settles O25: the second END writes the code again, which stands in the slot already, and a terminator at the offset
the first one left. -/
theorem secondEncEndDoublesTerminator : Obligations.SecondEncEndDoublesTerminator := by
  intro s t hp hs h hok hroom
  have hinv := exec_encInv hs h
  have honly := exec_onlyEnc rfl h
  obtain ⟨hf, henc, hmem⟩ := encEnd_ok hp h hok
  have hpt : t.enc.phase = .opened := by rw [henc]; exact hp
  have hresult : t.enc.result = t.enc.cursor := by rw [henc]
  have hslot : t.enc.address t.enc.slot = s.enc.address s.enc.slot := by rw [henc]; rfl
  have hblen : t.enc.blen = s.enc.blen := by rw [henc]
  have hft := (Session.not_full_iff _).2 hroom
  obtain ⟨u, hexec, -, henc', hmem'⟩ := (encEndWritesTerminator t hpt).1 hroom
  refine ⟨u, hexec, by rw [henc'], ?_, fun a ha => ?_⟩
  · rw [henc', hresult]; exact Session.toNat_succ_of_room hft
  rw [hmem' a ha, hinv.address_cursor hft, hresult, hslot, hblen]
  split_ifs with hcursor ha'
  · rfl
  · have hne : a ≠ s.enc.address s.enc.cursor := by
      have := hs.slot_lt_cursor hp
      rw [ha', hs.address_slot hp, hs.address_cursor hf]; omega
    rw [hmem a (honly.raced a ▸ ha), if_neg hne, if_pos ha']
  · rfl


/-! ### What the commands leave unchanged -/

/-- A byte against a block that is not full writes the slot for a 0, and the cursor for a literal. -/
theorem Enc.consume_writes {e : Enc} {b : Byte} {c : Host.Cell} (hc : c ∈ (e.consume b).writes) :
    c.1 = if b = 0#8 then e.address e.slot else e.address e.cursor := by
  rcases e.consume_cases b with ⟨_, _, h⟩ | ⟨_, hb, h⟩ | ⟨_, hb, h⟩ <;> rw [h] at hc
  · split at hc
    · rw [List.mem_singleton.1 hc, if_pos (by assumption)]; rfl
    · cases hc
  · rw [List.mem_singleton.1 hc, if_neg hb]; rfl
  · rw [List.mem_singleton.1 hc, if_pos hb]; rfl

/-- Every byte an ENC.FEED writes is one its form stores to. -/
theorem Enc.feed_writes_mem_feedStores {e : Enc} {b : Byte} {c : Host.Cell} (hc : c ∈ (e.feed b).writes) :
    c.1 ∈ e.feedStores b := by
  rcases e.whenOpen_cases (Enc.feedOpen b) with ⟨_, h⟩ | ⟨_, h⟩ | ⟨_, h⟩ <;> rw [Enc.feed, h] at hc
  · cases hc
  · cases hc
  rw [Enc.feedStores]
  rcases e.feedOpen_cases b with ⟨hblen, _, h⟩ | ⟨hblen, _, h⟩ | ⟨hblen, h⟩ <;> rw [h] at hc
  · rw [if_pos hblen, List.mem_singleton.1 hc]; exact List.mem_cons_self
  · rw [if_pos hblen]
    rcases List.mem_cons.1 hc with rfl | hc
    · exact List.mem_cons_self
    · exact List.mem_cons_of_mem _ (List.mem_singleton.2 (Enc.consume_writes hc))
  · rw [if_neg hblen, ← apply_ite (fun a : Nat => [a])]
    exact List.mem_singleton.2 (Enc.consume_writes hc)

/-- Every byte an ENC.END writes is the slot's or the cursor's. -/
theorem Enc.finish_writes_slot_or_cursor {e : Enc} {c : Host.Cell} (hc : c ∈ e.finish.writes) :
    c.1 = e.address e.slot ∨ c.1 = e.address e.cursor := by
  rcases e.whenOpen_cases Enc.finishOpen with ⟨_, h⟩ | ⟨_, h⟩ | ⟨_, h⟩ <;> rw [Enc.finish, h] at hc
  · cases hc
  · cases hc
  rcases e.finishOpen_cases with ⟨_, h⟩ | ⟨_, h⟩ <;> rw [h] at hc
  · rw [List.mem_singleton.1 hc]; exact .inl rfl
  · rcases List.mem_pair.1 hc with rfl | rfl
    · exact .inl rfl
    · exact .inr rfl

/-- An ENC.END leaves the block being filled. -/
theorem Enc.finish_block (e : Enc) : e.finish.regs.slot = e.slot ∧ e.finish.regs.blen = e.blen := by
  rcases e.whenOpen_cases Enc.finishOpen with ⟨_, h⟩ | ⟨_, h⟩ | ⟨_, h⟩ <;> rw [Enc.finish, h]
  · exact ⟨rfl, rfl⟩
  · exact ⟨rfl, rfl⟩
  rcases e.finishOpen_cases with ⟨_, h⟩ | ⟨_, h⟩ <;> rw [h] <;> exact ⟨rfl, rfl⟩

/-- Settles O48: START writes no byte, and FEED those its form stores to. -/
theorem encStartFeedFrame : Obligations.EncStartFeedFrame := by
  refine ⟨fun s t h => ?_, fun s t b last h => ?_⟩
  · obtain ⟨hbase, hcap⟩ := exec_args h .enc
    refine ⟨exec_onlyEnc rfl h, hbase, hcap, fun a => ?_⟩
    rw [exec_enc rfl] at h; cases h
    exact State.read_land_other (by simp [Instr.encEffect, Enc.start_writes])
  · refine ⟨exec_onlyEnc rfl h, ?_⟩
    have hout := fun hs => exec_outsideWindowKept rfl hs h
    rw [exec_enc rfl] at h; cases h
    obtain ⟨hwindow, hresult⟩ := s.enc.feed_sameWindow b
    exact ⟨hwindow, hresult, fun _ a ha =>
      State.read_land_other fun c hc hca => ha (hca ▸ Enc.feed_writes_mem_feedStores hc), hout⟩

/-- Settles O49: END writes the slot's and the cursor's bytes. -/
theorem encEndFrame : Obligations.EncEndFrame := by
  intro s t h
  refine ⟨exec_onlyEnc rfl h, ?_⟩
  have hout := fun hs => exec_outsideWindowKept rfl hs h
  rw [exec_enc rfl] at h; cases h
  obtain ⟨hslot, hblen⟩ := s.enc.finish_block
  refine ⟨s.enc.finish_sameWindow, hslot, hblen, fun _ a has hac => State.read_land_other fun c hc hca => ?_, hout⟩
  rcases Enc.finish_writes_slot_or_cursor hc with h | h
  · exact has (hca ▸ h)
  · exact hac (hca ▸ h)

/-! ### The blocks of what was fed so far (R124) -/

/-- The bytes from an address on, but for those raced for. -/
def State.HoldsBytes (s : State) (a : Nat) (l : List Byte) : Prop :=
  ∀ k, k < l.length → s.raced (a + k) = false → s.mem.read (a + k) = l[k]?

theorem State.holdsBytes_nil (s : State) (a : Nat) : s.HoldsBytes a [] :=
  fun _ hk => absurd hk (Nat.not_lt_zero _)

theorem State.HoldsBytes.append {s : State} {a : Nat} {l m : List Byte} (hl : s.HoldsBytes a l)
    (hm : s.HoldsBytes (a + l.length) m) : s.HoldsBytes a (l ++ m) := by
  intro k hk hraced
  by_cases hkl : k < l.length
  · rw [List.getElem?_append_left hkl]; exact hl k hkl hraced
  · rw [List.length_append] at hk
    have hak : a + k = a + l.length + (k - l.length) := by omega
    rw [List.getElem?_append_right (by omega), hak]
    exact hm _ (by omega) (hak ▸ hraced)

/-- A byte written away from them leaves the bytes where they are. -/
theorem State.HoldsBytes.land_other {s : State} {a : Nat} {l : List Byte} (h : s.HoldsBytes a l) (e : Enc)
    {c : Host.Cell} (hc : c.1 < a ∨ a + l.length ≤ c.1) :
    State.HoldsBytes { s with enc := e, mem := s.land [c] } a l := by
  intro k hk hraced
  refine (State.read_land_cell (s := s) hraced c).trans ?_
  rw [if_neg (by omega)]
  exact h k hk hraced

/-- A byte written is held where it was written. -/
theorem State.holdsBytes_land (s : State) (e : Enc) {a : Nat} {c : Host.Cell} (hc : c.1 = a) :
    State.HoldsBytes { s with enc := e, mem := s.land [c] } a [c.2] := by
  intro k hk hraced
  obtain rfl : k = 0 := by simpa using hk
  exact (State.read_land_cell (s := s) hraced c).trans (if_pos hc.symm)

/-- An open session with the blocks `closed` in the window and `run` in the block being filled: what
`State.Encoding` says of the blocks of a payload. -/
def State.Filled (s : State) (closed : List Block) (run : List Byte) : Prop :=
  s.enc.phase = .opened ∧
  s.enc.slot.toNat = (closed.flatMap Block.bytes).length ∧
  s.enc.cursor.toNat = s.enc.slot.toNat + 1 + run.length ∧
  s.enc.blen = (Block.holding run).code ∧
  s.HoldsBytes s.enc.winBase.toNat (closed.flatMap Block.bytes) ∧
  s.HoldsBytes (s.enc.winBase.toNat + (s.enc.slot.toNat + 1)) run

theorem State.encoding_iff {s : State} {p : List Byte} :
    s.Encoding p ↔ ∃ closed run, blocksOf p = closed ++ [Block.holding run] ∧ s.Filled closed run := by
  simp only [State.Encoding, State.Filled, State.HoldsBytes]
  refine exists_congr fun closed => exists_congr fun run => ?_
  simp only [Nat.add_assoc]
  constructor <;> exact fun ⟨hblocks, hopen, hslot, hrest⟩ => ⟨hblocks, hopen, hslot, hslot ▸ hrest⟩

/-- A byte against a full block goes to a new block (R115, R118). -/
theorem blocksFrom_full {run : List Byte} (h : run.length = 254) (b : Byte) (rest : List Byte) :
    blocksFrom run (b :: rest) = Block.holding run :: blocksFrom [] (b :: rest) := by
  by_cases hb : b = 0#8 <;> simp [blocksFrom, h, hb]

/-- The last block of a payload is the one that what follows would go to. -/
theorem blocksFrom_split (run p : List Byte) (hlen : run.length ≤ 254) :
    ∃ closed last, blocksFrom run p = closed ++ [Block.holding last] ∧ last.length ≤ 254 ∧
      ∀ rest, blocksFrom run (p ++ rest) = closed ++ blocksFrom last rest := by
  generalize hl : blocksFrom run p = l
  have h : Fills run p l := hl ▸ fills_blocksFrom hlen
  clear hl
  induction h with
  | @last run hlen => exact ⟨[], run, rfl, hlen, fun _ => rfl⟩
  | @fullZero run p l hfull _ ih =>
    obtain ⟨closed, last, rfl, hlast, hrest⟩ := ih (by simp)
    exact ⟨Block.holding run :: Block.holding [] :: closed, last, rfl, hlast,
      fun rest => by simp [blocksFrom, hfull, hrest]⟩
  | @fullLiteral run p b l hfull hb _ ih =>
    obtain ⟨closed, last, rfl, hlast, hrest⟩ := ih (by simp)
    exact ⟨Block.holding run :: closed, last, rfl, hlast, fun rest => by simp [blocksFrom, hfull, hb, hrest]⟩
  | @zero run p l hroom _ ih =>
    obtain ⟨closed, last, rfl, hlast, hrest⟩ := ih (by simp)
    exact ⟨Block.holding run :: closed, last, rfl, hlast, fun rest => by simp [blocksFrom, hroom.ne, hrest]⟩
  | @literal run p b l hroom hb _ ih =>
    obtain ⟨closed, last, rfl, hlast, hrest⟩ := ih (by simp; omega)
    exact ⟨closed, last, rfl, hlast, fun rest => by simp [blocksFrom, hroom.ne, hb, hrest]⟩

/-- A payload's last block holds at most 254 literals, and a longer payload's blocks are its closed blocks and what
becomes of the last one. -/
theorem blocksOf_append {p run : List Byte} {closed : List Block} (h : blocksOf p = closed ++ [Block.holding run]) :
    run.length ≤ 254 ∧ ∀ rest, blocksOf (p ++ rest) = closed ++ blocksFrom run rest := by
  obtain ⟨closed', run', h', hlen, hrest⟩ := blocksFrom_split [] p (by simp)
  obtain ⟨hc, hr⟩ := List.append_inj' (h.symm.trans h') rfl
  obtain rfl : closed = closed' := hc
  obtain rfl : run = run' := congrArg Block.literals (List.singleton_inj.1 hr)
  exact ⟨hlen, hrest⟩

theorem length_bytes_snoc (closed : List Block) (run : List Byte) :
    ((closed ++ [Block.holding run]).flatMap Block.bytes).length =
      (closed.flatMap Block.bytes).length + 1 + run.length := by
  simp [Block.bytes, Block.holding]; omega

section
variable {s : State} {closed : List Block} {run : List Byte}

/-- `BLEN` says whether the block being filled is full (R111). -/
theorem State.Filled.capped (h : s.Filled closed run) (hlen : run.length ≤ 254) :
    s.enc.blen = 0xFF#8 ↔ run.length = 254 := by
  obtain ⟨-, -, -, hblen, -, -⟩ := h
  rw [hblen]; exact Block.holding_capped hlen

/-- Closing the block writes its code before its literals. -/
theorem State.Filled.closeBlock (h : s.Filled closed run) (hs : s.enc.Inv) (hf : s.enc.full = false) :
    s.closeBlock.Filled (closed ++ [Block.holding run]) [] := by
  obtain ⟨hp, hslot, hcursor, hblen, hclosed, hrun⟩ := h
  have haddr : (s.enc.put s.enc.slot s.enc.blen).1 = s.enc.winBase.toNat + s.enc.slot.toNat := hs.address_slot hp
  have hlen := length_bytes_snoc closed run
  refine ⟨hp, by rw [hlen, ← hslot]; exact hcursor, Session.toNat_succ_of_room hf, rfl, ?_, State.holdsBytes_nil _ _⟩
  have hcode := s.holdsBytes_land s.enc.openBlock haddr
  rw [List.flatMap_append, List.flatMap_singleton]
  refine (hclosed.land_other _ (.inr (by omega))).append (.append (l := [_]) (m := run) ?_ ?_) <;> rw [← hslot]
  · rw [← hblen]; exact hcode
  · exact hrun.land_other _ (.inl (by omega))

/-- A literal goes behind those of its block. -/
theorem State.Filled.addLiteral (h : s.Filled closed run) (hs : s.enc.Inv) (hf : s.enc.full = false) (b : Byte) :
    (s.addLiteral b).Filled closed (run ++ [b]) := by
  obtain ⟨hp, hslot, hcursor, hblen, hclosed, hrun⟩ := h
  have haddr : (s.enc.put s.enc.cursor b).1 = s.enc.winBase.toNat + s.enc.cursor.toNat := hs.address_cursor hf
  have hadv : (s.addLiteral b).enc.cursor.toNat = s.enc.cursor.toNat + 1 := Session.toNat_succ_of_room hf
  refine ⟨hp, hslot, ?_, ?_, hclosed.land_other _ (.inr (by omega)),
    (hrun.land_other _ (.inr (by omega))).append (s.holdsBytes_land _ (by omega))⟩
  · rw [hadv, hcursor, List.length_append]; rfl
  · refine (congrArg (· + 1) hblen).trans ?_
    simp [Block.holding, BitVec.ofNat_add]

/-- Taking a byte makes the blocks that the wire format makes of it. -/
theorem Takes.filled {r : State} {b : Byte} (ht : Takes s b r) (hs : s.enc.Inv) (h : s.Filled closed run)
    (hlen : run.length ≤ 254) :
    ∃ closed' run', r.Filled closed' run' ∧ closed ++ blocksFrom run [b] = closed' ++ [Block.holding run'] := by
  induction ht generalizing closed run with
  | @literal s b hblen hf hb =>
    refine ⟨closed, run ++ [b], h.addLiteral hs hf b, ?_⟩
    simp [blocksFrom, mt (h.capped hlen).2 hblen, hb]
  | @zero s hblen hf =>
    refine ⟨closed ++ [Block.holding run], [], h.closeBlock hs hf, ?_⟩
    simp [blocksFrom, mt (h.capped hlen).2 hblen]
  | @full s r b hblen hf _ ih =>
    obtain ⟨closed', run', hr, hblocks⟩ := ih (hs.openBlock hf) (h.closeBlock hs hf) (by simp)
    refine ⟨closed', run', hr, ?_⟩
    rw [← hblocks, blocksFrom_full ((h.capped hlen).1 hblen), List.append_assoc]; rfl

end

/-- A byte that an ENC.FEED takes leaves every byte below the window and from the new cursor on. -/
theorem Takes.read_beyond {s r : State} {b : Byte} (ht : Takes s b r) (hs : s.enc.Inv) (hp : s.enc.phase = .opened)
    {a : Nat} (ha : a < s.enc.winBase.toNat ∨ s.enc.winBase.toNat + r.enc.cursor.toNat ≤ a) :
    r.mem.read a = s.mem.read a := by
  have hother : ∀ {s : State} {c : Host.Cell}, c.1 ≠ a → (s.land [c]).read a = s.mem.read a := by
    intro s c hc
    exact State.read_land_other fun d hd => by rw [List.mem_singleton.1 hd]; exact hc
  have hlt := hs.slot_lt_cursor hp
  have hslot := hs.address_slot hp
  obtain ⟨hcursor, -⟩ := ht.cursor
  induction ht with
  | literal hblen hf hb =>
    have haddr := hs.address_cursor hf
    rw [if_neg hblen] at hcursor
    exact hother (by simp only [Session.put, haddr]; omega)
  | zero hblen hf =>
    rw [if_neg hblen] at hcursor
    exact hother (by simp only [Session.put, hslot]; omega)
  | @full s r b hblen hf hr ih =>
    have hclose := hs.openBlock hf
    rw [if_pos hblen] at hcursor
    refine (ih hclose hp ha (hclose.slot_lt_cursor hp) (hclose.address_slot hp) hr.cursor.1).trans ?_
    exact hother (by simp only [Session.put, hslot]; omega)

/-- The cursor stands where the frame of what was fed would have its terminator. -/
theorem State.Encoding.cursor {s : State} {p : List Byte} (h : s.Encoding p) :
    (frameOf p).length = s.enc.cursor.toNat + 1 := by
  obtain ⟨closed, run, hblocks, -, hslot, hcursor, -⟩ := State.encoding_iff.1 h
  rw [frameOf, frameBytes, hblocks, List.length_append, length_bytes_snoc, ← hslot, ← hcursor]
  rfl

theorem State.Encoding.opened {s : State} {p : List Byte} (h : s.Encoding p) : s.enc.phase = .opened := by
  obtain ⟨_, _, _, hp, _⟩ := State.encoding_iff.1 h
  exact hp

/-- A successful START has been fed nothing (R111). -/
theorem encoding_of_encStart {s t : State} (h : exec .encStart s = .next t) (hok : t.enc.lastRes = .ok) :
    t.Encoding [] := by
  cases hw : s.enc.windowRefused
  · rw [exec_encStart_accepted hw] at h; cases h
    exact State.encoding_iff.2 ⟨[], [], rfl, rfl, rfl, rfl, rfl, State.holdsBytes_nil _ _, State.holdsBytes_nil _ _⟩
  · rw [exec_encStart_refused hw] at h; cases h
    cases hok

/-- An ENC.FEED of an open session that ends `OK` has taken its byte. -/
theorem encFeed_ok {s t : State} {b : Byte} {last : Bool} (hp : s.enc.phase = .opened)
    (h : exec (.encFeed b last) s = .next t) (hok : t.enc.lastRes = .ok) : ∃ r, Takes s b r ∧ t = r.fed := by
  rcases exec_encFeed_cases hp b last with ⟨r, hr, hexec⟩ | ⟨_, w, hexec⟩ | ⟨_, _, _, w, hexec⟩ <;>
    rw [hexec] at h <;> cases h
  · exact ⟨r, hr, rfl⟩
  · cases hok
  · cases hok

/-- A byte taken has been fed. -/
theorem Takes.encoding {s r : State} {p : List Byte} {b : Byte} (ht : Takes s b r) (hs : s.enc.Inv)
    (h : s.Encoding p) : r.fed.Encoding (p ++ [b]) := by
  obtain ⟨closed, run, hblocks, hfilled⟩ := State.encoding_iff.1 h
  obtain ⟨hlen, hrest⟩ := blocksOf_append hblocks
  obtain ⟨closed', run', hfilled', hnew⟩ := ht.filled hs hfilled hlen
  exact State.encoding_iff.2 ⟨closed', run', (hrest [b]).trans hnew, hfilled'⟩

/-- An END with room leaves the frame: it closes the last block and writes the terminator behind it. -/
theorem holdsBytes_of_encEnd {s t : State} {p : List Byte} (hs : s.enc.Inv) (h : s.Encoding p)
    (hexec : exec .encEnd s = .next t) (hok : t.enc.lastRes = .ok) :
    t.HoldsBytes s.enc.winBase.toNat (frameOf p) := by
  obtain ⟨hf, -⟩ := encEnd_ok h.opened hexec hok
  have hterm : (s.enc.put s.enc.cursor 0#8).1 = s.enc.winBase.toNat + s.enc.cursor.toNat := hs.address_cursor hf
  have hlen := h.cursor
  obtain ⟨closed, run, hblocks, hfilled⟩ := State.encoding_iff.1 h
  obtain ⟨-, -, -, -, hblock, -⟩ := hfilled.closeBlock hs hf
  have hclosed : s.closeBlock.HoldsBytes s.enc.winBase.toNat _ := hblock
  rw [exec_encEnd_room h.opened hf] at hexec; cases hexec
  rw [frameOf, frameBytes, hblocks, List.length_append, List.length_singleton] at hlen
  rw [frameOf, frameBytes, hblocks, State.commitEnc, State.land_cons]
  exact (hclosed.land_other s.enc (.inr (by omega))).append (s.closeBlock.holdsBytes_land s.enc (by omega))

/-- Settles O53: START opens an empty block, FEED takes a byte as the wire format does, and END closes the frame. -/
theorem encoderHoldsBlocksFedSoFar : Obligations.EncoderHoldsBlocksFedSoFar := by
  refine ⟨fun s t => encoding_of_encStart, fun s t p b last hs h hexec hok => ?_, fun s t p hs h hexec hok => ?_⟩
  · obtain ⟨r, hr, rfl⟩ := encFeed_ok h.opened hexec hok
    exact hr.encoding hs h
  · obtain ⟨hf, henc, -⟩ := encEnd_ok h.opened hexec hok
    refine ⟨?_, fun k hk hraced => ?_⟩
    · rw [h.cursor, henc]; exact Session.toNat_succ_of_room hf
    · exact holdsBytes_of_encEnd hs h hexec hok k hk ((exec_onlyEnc rfl hexec).raced _ ▸ hraced)

/-! ### A whole session (R123, R124) -/

/-- The blocks that a block and the bytes after it become are at least as long as these bytes and a code. -/
theorem le_length_bytes_blocksFrom {run : List Byte} (hlen : run.length ≤ 254) (rest : List Byte) :
    run.length + 1 + rest.length ≤ ((blocksFrom run rest).flatMap Block.bytes).length := by
  have h := fills_blocksFrom (rest := rest) hlen
  rw [length_flatMap_bytes h.ne_nil, h.payload, List.length_append]
  omega

/-- The frame of a longer payload is longer. -/
theorem State.Encoding.cursor_lt {s : State} {p : List Byte} (h : s.Encoding p) (rest : List Byte) :
    s.enc.cursor.toNat + rest.length < (frameOf (p ++ rest)).length := by
  obtain ⟨closed, run, hblocks, -, hslot, hcursor, -⟩ := State.encoding_iff.1 h
  obtain ⟨hlen, hrest⟩ := blocksOf_append hblocks
  have hle := le_length_bytes_blocksFrom hlen rest
  rw [frameOf, frameBytes, hrest, List.flatMap_append, List.length_append, List.length_append, List.length_singleton]
  omega

/-- A payload with one byte more has room for it in its frame, and for a code where the last block is full. -/
theorem State.Encoding.offsets_lt {s : State} {p : List Byte} (h : s.Encoding p) (b : Byte) (rest : List Byte) :
    s.enc.cursor.toNat + (if s.enc.blen = 0xFF#8 then 2 else 1) < (frameOf (p ++ b :: rest)).length := by
  have hlt := h.cursor_lt (b :: rest)
  rw [List.length_cons] at hlt
  split
  case isFalse => omega
  rename_i hblen
  obtain ⟨closed, run, hblocks, hfilled⟩ := State.encoding_iff.1 h
  obtain ⟨hlen, hrest⟩ := blocksOf_append hblocks
  have hfull := (hfilled.capped hlen).1 hblen
  obtain ⟨-, hslot, hcursor, -⟩ := hfilled
  have hle := le_length_bytes_blocksFrom (run := []) (by simp) (b :: rest)
  rw [List.length_nil, List.length_cons] at hle
  rw [frameOf, frameBytes, hrest, blocksFrom_full hfull, List.flatMap_append, List.flatMap_cons, List.length_append,
    List.length_append, List.length_append, List.length_singleton]
  simp only [Block.bytes, Block.holding, List.length_cons] at hle ⊢
  omega

/-- What a session owes its window, between an open session and the state after the END: the frame stands at the
window's start and nothing else has changed when it fits, and the session has overflowed when it does not. -/
def State.Encodes (s t : State) (frame : List Byte) : Prop :=
  OnlyEnc s t ∧ OutsideWindowKept s.enc.toSession s t ∧
  (frame.length ≤ s.enc.winCap.toNat →
    t.enc.lastRes = .ok ∧ t.enc.phase = .opened ∧ t.enc.result.toNat = frame.length ∧
    t.HoldsBytes s.enc.winBase.toNat frame ∧
    ∀ a, a < s.enc.winBase.toNat ∨ s.enc.winBase.toNat + frame.length ≤ a → t.mem.read a = s.mem.read a) ∧
  (s.enc.winCap.toNat < frame.length → t.enc.lastRes = .bufferOverflow ∧ t.enc.phase = .failed)

/-- END writes the frame of what was fed, or overflows where its terminator has no room (R120). -/
theorem State.Encoding.encEnd {s : State} {p : List Byte} (h : s.Encoding p) (hs : s.enc.Inv) :
    ∃ t, exec .encEnd s = .next t ∧ s.Encodes t (frameOf p) := by
  have hlen := h.cursor
  obtain ⟨hroom, hnoRoom⟩ := encEndWritesTerminator s h.opened
  by_cases hfit : s.enc.cursor.toNat < s.enc.winCap.toNat
  · obtain ⟨t, hexec, honly, henc, -⟩ := hroom hfit
    have hf := (Session.not_full_iff _).2 hfit
    have hok : t.enc.lastRes = .ok := by rw [henc]
    obtain ⟨-, -, -, -, hmem, hout⟩ := encEndFrame s t hexec
    have hlt := hs.slot_lt_cursor h.opened
    have hresult : t.enc.result.toNat = (frameOf p).length := by
      rw [henc, hlen]; exact Session.toNat_succ_of_room hf
    refine ⟨t, hexec, honly, hout hs, fun _ => ⟨hok, by rw [henc]; exact h.opened, hresult,
      holdsBytes_of_encEnd hs h hexec hok, fun a ha => hmem hok a ?_ ?_⟩, fun hover => by omega⟩
    · rw [hs.address_slot h.opened]; omega
    · rw [hs.address_cursor hf]; omega
  · obtain ⟨t, hexec, honly, henc, hout⟩ := hnoRoom (by omega) hs
    exact ⟨t, hexec, honly, hout, fun hfits => by omega, fun _ => by rw [henc]; exact ⟨rfl, rfl⟩⟩

/-- An ENC.FEED that overflows leaves a session stuck in `FAILED`, and it overflowed for want of an offset. -/
theorem encFeed_overflow {s t : State} {b : Byte} {last : Bool} (hp : s.enc.phase = .opened) (hs : s.enc.Inv)
    (h : exec (.encFeed b last) s = .next t) (hover : t.enc.lastRes = .bufferOverflow) :
    t.enc.phase = .failed ∧ t.enc.toSession.Stuck ∧
    s.enc.winCap.toNat < s.enc.cursor.toNat + (if s.enc.blen = 0xFF#8 then 2 else 1) := by
  obtain ⟨t', hexec, hiff, hfailed, -⟩ := encFeedOverflowExactly s b last hp hs
  cases h.symm.trans hexec
  obtain ⟨-, -, henc⟩ := hfailed hover
  have hregs : t.enc.phase = .failed ∧ t.enc.lastRes = t.enc.failErr := by
    rw [henc]; split <;> exact ⟨rfl, rfl⟩
  exact ⟨hregs.1, .inr hregs, hiff.1 hover⟩

/-- Once a byte was taken, the session owes its window what it owed before. -/
theorem State.Encodes.of_encFeed {s u t : State} {b : Byte} {last : Bool} {frame : List Byte}
    (ht : u.Encodes t frame) (hp : s.enc.phase = .opened) (hs : s.enc.Inv) (h : exec (.encFeed b last) s = .next u)
    (hok : u.enc.lastRes = .ok) (hlen : u.enc.cursor.toNat ≤ frame.length) : s.Encodes t frame := by
  obtain ⟨-, hfeedFrame⟩ := encStartFeedFrame
  obtain ⟨honly, ⟨-, -, hbase, hcap⟩, -, -, hout⟩ := hfeedFrame s u b last h
  obtain ⟨honly', hout', hfits, hover⟩ := ht
  obtain ⟨r, hr, rfl⟩ := encFeed_ok hp h hok
  rw [hbase, hcap] at hfits
  rw [hcap] at hover
  refine ⟨honly.trans honly', fun a ha => (hout' a ?_).trans (hout hs a ha), fun hfit => ?_, hover⟩
  · simpa only [Session.inWindow, hbase, hcap] using ha
  · obtain ⟨hok', hopen, hresult, hheld, hbeyond⟩ := hfits hfit
    refine ⟨hok', hopen, hresult, hheld, fun a ha => (hbeyond a ha).trans (hr.read_beyond hs hp ?_)⟩
    exact ha.imp_right fun ha => (Nat.add_le_add_left hlen _).trans ha

theorem feeds_encEnd_no_start (input : List (Byte × Bool)) :
    ∀ i ∈ input.map (fun x => Instr.encFeed x.1 x.2) ++ [.encEnd], i.engine = .enc ∧ i.isStart = false := by
  intro i hi
  rcases List.mem_append.1 hi with hi | hi
  · obtain ⟨x, -, rfl⟩ := List.mem_map.1 hi; exact ⟨rfl, rfl⟩
  · rw [List.mem_singleton.1 hi]; exact ⟨rfl, rfl⟩

/-- FEEDs and the END of an open session write the frame of all that was fed: each FEED takes its byte, or overflows
where the frame does not fit, and nothing changes after that. -/
theorem State.Encoding.feeds_encEnd {s : State} {p : List Byte} (h : s.Encoding p) (hs : s.enc.Inv)
    (input : List (Byte × Bool)) :
    ∃ t, runAll (input.map (fun x => Instr.encFeed x.1 x.2) ++ [.encEnd]) s = .next t ∧
      s.Encodes t (frameOf (p ++ input.map Prod.fst)) := by
  induction input generalizing s p with
  | nil =>
    obtain ⟨t, hexec, ht⟩ := h.encEnd hs
    exact ⟨t, runAll_cons _ _ hexec, by simpa using ht⟩
  | cons x input ih =>
    obtain ⟨u, hexec, -, -, hnext⟩ := encFeedOverflowExactly s x.1 x.2 h.opened hs
    rw [List.map_cons, List.cons_append, runAll_cons _ _ hexec, List.map_cons]
    by_cases hover : u.enc.lastRes = .bufferOverflow
    · obtain ⟨hfailed, hstuck, hroom⟩ := encFeed_overflow h.opened hs hexec hover
      have hlong := h.offsets_lt x.1 (input.map Prod.fst)
      have honly := exec_onlyEnc rfl hexec
      have hout := exec_outsideWindowKept rfl hs hexec
      obtain ⟨c, hrest⟩ := runAll_stuck (u := .enc) (feeds_encEnd_no_start input) hstuck
      exact ⟨_, hrest, honly, hout, fun hfits => by omega, fun _ => ⟨hover, hfailed⟩⟩
    · obtain ⟨hok, -⟩ := hnext hover
      obtain ⟨r, hr, rfl⟩ := encFeed_ok h.opened hexec hok
      have hfed := hr.encoding hs h
      obtain ⟨t, hrest, ht⟩ := ih hfed (exec_encInv hs hexec)
      have hlen := hfed.cursor_lt (input.map Prod.fst)
      rw [List.append_assoc] at ht hlen
      exact ⟨t, hrest, ht.of_encFeed h.opened hs hexec hok (by omega)⟩

/-- A session that has just been opened is sound, whatever the engine held before. -/
theorem Enc.start_inv {e : Enc} (hw : e.windowRefused = false) : e.start.regs.Inv := by
  obtain ⟨hcap, -⟩ := Session.windowRefused_false_iff.1 hw
  rw [Enc.start_accepted hw]
  exact ⟨Session.openAt_inv hw (by decide), by simp,
    fun _ => ⟨Nat.zero_lt_two.trans_le hcap, Nat.le_refl 1, Nat.le_refl 1⟩⟩

/-- Settles O52: START opens an empty session, and the FEEDs and the END write the payload's frame. -/
theorem encoderSessionWritesFrame : Obligations.EncoderSessionWritesFrame := by
  intro input s hcap hwin
  have hw : s.enc.windowRefused = false := Session.windowRefused_false_iff.2 ⟨hcap, hwin⟩
  have hstart := exec_encStart_accepted hw
  have hinv := Enc.start_inv hw
  rw [Enc.start_accepted hw] at hinv
  obtain ⟨t, hrun, honly, hout, hfits, hover⟩ :=
    (encoding_of_encStart hstart rfl).feeds_encEnd hinv input
  refine ⟨t, (runAll_cons _ _ hstart).trans hrun, honly, fun a ha => hout a ?_, fun hfit => ?_, hover⟩
  · simp only [Session.inWindow, Bool.and_eq_false_iff, decide_eq_false_iff_not, Nat.not_le, Nat.not_lt]
    exact ha
  · obtain ⟨hok, hopen, hresult, hheld, hbeyond⟩ := hfits hfit
    exact ⟨hok, hopen, hresult, fun k hk hraced => hheld k hk (honly.raced _ ▸ hraced), hbeyond⟩

end Sys2Proof.Machine
end

section
/-! The decoder (41_decoder.md): the forms of START, FEED and END and what each leaves unchanged, and that a session
recovers the payload from its frame. -/
namespace Sys2Proof.Machine

/-! ### What every command of the decoder leaves -/

/-- A command of the decoder leaves everything but its registers, memory and its window's custody. -/
theorem exec_onlyDec {i : Instr} (hi : i.engine = .dec) {s t : State} (h : exec i s = .next t) : OnlyDec s t := by
  rw [exec_dec hi] at h; cases h
  exact ⟨rfl, rfl, rfl, rfl, rfl, rfl, rfl, rfl⟩

/-- In a sound state a command of the decoder writes to no byte outside the window (20_memory.md R61). -/
theorem exec_dec_outsideWindowKept {i : Instr} (hi : i.engine = .dec) {s t : State} (hs : s.dec.Inv)
    (h : exec i s = .next t) : OutsideWindowKept s.dec.toSession s t := by
  rw [exec_dec hi] at h; cases h
  exact fun a ha => State.read_land_outside (fun c => hs.writes_inWindow) ha

/-! ### DEC.START (R140) -/

theorem exec_decStart_refused {s : State} (h : s.dec.windowRefused = true) :
    exec .decStart s = .next { s with dec := s.dec.invalid } := by
  simp [exec, execDecStart, Dec.start_refused h, h, State.commitDec, Custody.started]

theorem exec_decStart_accepted {s : State} (h : s.dec.windowRefused = false) :
    exec .decStart s = .next { s with
      dec := { toSession := s.dec.toSession.openAt 0, pcode := 0xFF, rem := 0, term := false, discard := false }
      decCustody := .engine } := by
  simp [exec, execDecStart, Dec.start_accepted h, h, State.commitDec, Custody.started]

/-- Settles O27: START answers by whether it refuses the argument registers' window. -/
theorem decStartOpensSession : Obligations.DecStartOpensSession := by
  intro s
  refine ⟨fun hbad => exec_decStart_refused ?_, fun hcap hwin => ⟨.engine, ?_⟩⟩
  · rw [← Bool.not_eq_false, Session.windowRefused_false_iff]
    exact fun ⟨hcap, hwin⟩ => hbad.elim hcap.not_gt hwin.not_gt
  · exact exec_decStart_accepted (Session.windowRefused_false_iff.2 ⟨hcap, hwin⟩)

/-! ### DEC.FEED on an open session (R144 to R152) -/

theorem Dec.feedOpen_discard {d : Dec} (hd : d.discard = true) (legacy : Bool) (b : Byte) (last : Bool) :
    d.feedOpen legacy b last = { regs := d.drop last, writes := [] } := by
  simp [Dec.feedOpen, hd]

theorem Dec.feedOpen_literal {d : Dec} (hd : d.discard = false) (hr : d.rem ≠ 0#8) (legacy : Bool) (b : Byte)
    (last : Bool) : d.feedOpen legacy b last = d.literal b := by
  simp [Dec.feedOpen, hd, hr]

theorem Dec.feedOpen_codeByte {d : Dec} (hd : d.discard = false) (hr : d.rem = 0#8) (legacy : Bool) (b : Byte)
    (last : Bool) : d.feedOpen legacy b last = d.codeByte legacy b last := by
  simp [Dec.feedOpen, hd, hr]

theorem exec_decFeed_opened {s : State} (hp : s.dec.phase = .opened) (b : Byte) (last : Bool) :
    exec (.decFeed b last) s = .next (s.commitDec (s.dec.feedOpen s.params.legacyChunkZero b last) .engine) := by
  rw [exec_dec rfl]
  simp [Instr.decEffect, Instr.decCustody, Dec.feed, Dec.whenOpen_opened hp, hp, Custody.fed]

/-- A command of the decoder that writes nothing leaves memory as it is. -/
theorem State.commitDec_nil (s : State) (d : Dec) (c : Custody) :
    s.commitDec { regs := d, writes := [] } c = { s with dec := d, decCustody := c } := rfl

section
variable {s : State} {b : Byte} {last : Bool} {d : Dec} (hp : s.dec.phase = .opened)
include hp

/-- A FEED of the form that writes nothing. -/
theorem exec_decFeed_keeps (h : s.dec.feedOpen s.params.legacyChunkZero b last = { regs := d, writes := [] }) :
    exec (.decFeed b last) s = .next { s with dec := d, decCustody := .engine } := by
  rw [exec_decFeed_opened hp, h, State.commitDec_nil]

/-- A FEED of the form that fails writes nothing. -/
theorem exec_decFeed_fails {code : Result}
    (h : s.dec.feedOpen s.params.legacyChunkZero b last = { regs := s.dec.fail code, writes := [] }) :
    ∃ t, exec (.decFeed b last) s = .next t ∧ OnlyDec s t ∧
      t.dec = { s.dec with phase := .failed, failErr := code, lastRes := code } ∧
      OutsideWindowKept s.dec.toSession s t :=
  have hexec := exec_decFeed_keeps hp h
  ⟨_, hexec, exec_onlyDec rfl hexec, rfl, fun _ _ => rfl⟩

/-- A FEED of the form that writes one byte, at the cursor. -/
theorem exec_decFeed_writes {v : Byte}
    (h : s.dec.feedOpen s.params.legacyChunkZero b last = { regs := d, writes := [s.dec.put s.dec.cursor v] }) :
    ∃ t, exec (.decFeed b last) s = .next t ∧ OnlyDec s t ∧ t.dec = d ∧
      ∀ a, s.raced a = false → t.mem.read a = if a = s.dec.address s.dec.cursor then some v else s.mem.read a := by
  have hexec := exec_decFeed_opened hp b last
  rw [h] at hexec
  exact ⟨_, hexec, exec_onlyDec rfl hexec, rfl, fun a ha => State.read_land_cell ha _⟩

end

/-- Settles O28: the byte is dropped before it is looked at. -/
theorem decFeedDropsAfterTerminator : Obligations.DecFeedDropsAfterTerminator := by
  intro s b last hp hd
  have hdrop : s.dec.drop last = { s.dec with discard := if last then false else true, lastRes := .ok } := by
    cases last <;> simp [Dec.drop, Dec.succeed, Session.succeed, hd]
  exact ⟨_, hdrop ▸ exec_decFeed_keeps hp (Dec.feedOpen_discard hd _ b last)⟩

/-- Settles O29: the three forms of the literal step. -/
theorem decFeedLiteral : Obligations.DecFeedLiteral := by
  intro s b last hp hd hr
  have hfeed := Dec.feedOpen_literal hd hr s.params.legacyChunkZero b last
  refine ⟨fun hb => exec_decFeed_fails hp ?_, fun hb hroom => exec_decFeed_writes hp ?_,
    fun hb hfull => exec_decFeed_fails hp ?_⟩
  · rw [hfeed, Dec.literal, if_pos hb]
  · rw [hfeed, Dec.literal, if_neg hb, (Session.not_full_iff _).2 hroom]; rfl
  · rw [hfeed, Dec.literal, if_neg hb, if_pos ((Session.full_iff _).2 hfull)]

section
variable {d : Dec} {legacy : Bool} {b : Byte} {last : Bool}

/-- In code position, with no implicit zero due (R150). -/
theorem Dec.codeByte_direct (hz : synthesizes legacy d.pcode b last = false) :
    d.codeByte legacy b last = { regs := d.readCode b last, writes := [] } := by
  simp [Dec.codeByte, hz]

/-- In code position, with an implicit zero due and room for it (R150). -/
theorem Dec.codeByte_afterZero (hz : synthesizes legacy d.pcode b last = true) (hroom : d.cursor.toNat < d.winCap.toNat) :
    d.codeByte legacy b last =
      { regs := Dec.readCode b last { d with toSession := d.toSession.advance },
        writes := [d.put d.cursor 0#8] } := by
  simp [Dec.codeByte, hz, (Session.not_full_iff _).2 hroom]

/-- In code position, with an implicit zero due and no room for it (R150). -/
theorem Dec.codeByte_noRoom (hz : synthesizes legacy d.pcode b last = true) (hfull : d.winCap.toNat ≤ d.cursor.toNat) :
    d.codeByte legacy b last = { regs := d.fail .bufferOverflow, writes := [] } := by
  simp [Dec.codeByte, hz, (Session.full_iff _).2 hfull]

end

/-- When a code byte writes no implicit zero first (R150). -/
theorem synthesizes_code_iff {legacy : Bool} {pcode b : Byte} {last : Bool} (hb : b ≠ 0#8) :
    synthesizes legacy pcode b last = true ↔ pcode ≠ 0xFF#8 ∧ (legacy = true → last = false) := by
  cases legacy <;> simp [synthesizes, hb]

/-- When the terminator writes an implicit zero first (R150). -/
theorem synthesizes_terminator_iff {legacy : Bool} {pcode : Byte} {last : Bool} :
    synthesizes legacy pcode 0#8 last = true ↔ legacy = true ∧ pcode ≠ 0xFF#8 ∧ last = false := by
  cases legacy <;> simp [synthesizes]

/-- Settles O30: the byte is the next block's code, read at once or after the implicit zero. -/
theorem decFeedCodeByte : Obligations.DecFeedCodeByte := by
  intro s b last hp hd hr hb
  have hfeed := Dec.feedOpen_codeByte hd hr s.params.legacyChunkZero b last
  have hread := fun d : Dec => Dec.readCode_code hb last d
  have hz := synthesizes_code_iff (legacy := s.params.legacyChunkZero) (pcode := s.dec.pcode) (last := last) hb
  refine ⟨fun hnone => ⟨_, exec_decFeed_keeps hp ?_⟩, fun hpc hlast hroom => exec_decFeed_writes hp ?_,
    fun hpc hlast hfull => exec_decFeed_fails hp ?_⟩
  · have hdirect := Bool.eq_false_iff.2 (mt hz.1 fun ⟨hpc, hlast⟩ =>
      hnone.elim hpc fun ⟨hl, ht⟩ => by rw [hlast hl] at ht; cases ht)
    rw [hfeed, Dec.codeByte_direct hdirect, hread]; rfl
  · rw [hfeed, Dec.codeByte_afterZero (hz.2 ⟨hpc, hlast⟩) hroom, hread]; rfl
  · rw [hfeed, Dec.codeByte_noRoom (hz.2 ⟨hpc, hlast⟩) hfull]

/-- Settles O31: the byte is the terminator, read at once or, under the compatibility rule, after an implicit zero. -/
theorem decFeedTerminator : Obligations.DecFeedTerminator := by
  intro s last hp hd hr
  have hfeed := Dec.feedOpen_codeByte hd hr s.params.legacyChunkZero 0#8 last
  have hz := synthesizes_terminator_iff (legacy := s.params.legacyChunkZero) (pcode := s.dec.pcode) (last := last)
  refine ⟨fun hnone => ⟨_, exec_decFeed_keeps hp ?_⟩, fun hl hpc hlast hroom => exec_decFeed_writes hp ?_,
    fun hl hpc hlast hfull => exec_decFeed_fails hp ?_⟩
  · have hdirect := Bool.eq_false_iff.2 (mt hz.1 fun ⟨hl, hpc, hlast⟩ => by simp [hl, hpc, hlast] at hnone)
    rw [hfeed, Dec.codeByte_direct hdirect, Dec.readCode_terminator, hd]; rfl
  · rw [hfeed, Dec.codeByte_afterZero (hz.2 ⟨hl, hpc, hlast⟩) hroom, Dec.readCode_terminator, hd, hlast]; rfl
  · rw [hfeed, Dec.codeByte_noRoom (hz.2 ⟨hl, hpc, hlast⟩) hfull]

/-! ### DEC.END (R160 to R162) -/

theorem exec_decEnd_opened {s : State} (hp : s.dec.phase = .opened) :
    exec .decEnd s = .next { s with dec := s.dec.finishOpen.regs, decCustody := .unread } := by
  have hfinish : s.dec.finish = s.dec.finishOpen := Dec.whenOpen_opened hp _
  have hwrites := s.dec.finish_writes
  rw [hfinish] at hwrites
  simp [exec, execDecEnd, State.commitDec, hfinish, hwrites, hp, Custody.ended]

/-- Settles O32: END answers by whether a literal is still due. -/
theorem decEndChecksCompleteness : Obligations.DecEndChecksCompleteness := by
  intro s hp
  have hexec := exec_decEnd_opened hp
  rcases s.dec.finishOpen_cases with ⟨hr, h⟩ | ⟨hr, h⟩ <;> rw [h] at hexec
  · exact ⟨fun hr' => absurd hr' hr, fun _ => ⟨_, hexec, exec_onlyDec rfl hexec, rfl, fun _ _ => rfl⟩⟩
  · exact ⟨fun _ => ⟨_, hexec⟩, fun hr' => absurd hr hr'⟩

/-- A second END finds the window as the first left it. -/
theorem Custody.ended_ended (p : Phase) (c : Custody) : (c.ended p).ended p = c.ended p := by
  cases p
  case idle | opened => rfl
  case failed => cases c <;> rfl

/-- END leaves the phase, and does again what it did, unless it raises an error. -/
theorem Dec.finish_finish {d : Dec} (hok : d.finish.regs.lastRes = .ok) :
    d.finish.regs.phase = d.phase ∧ d.finish.regs.finish = { regs := d.finish.regs, writes := [] } := by
  unfold Dec.finish at hok ⊢
  rcases d.whenOpen_cases Dec.finishOpen with ⟨hp, h⟩ | ⟨hp, h⟩ | ⟨hp, h⟩ <;> rw [h] at hok ⊢
  · cases hok
  · exact ⟨rfl, Dec.whenOpen_failed (d := d.repeatError) hp _⟩
  · rcases d.finishOpen_cases with ⟨hr, h⟩ | ⟨hr, h⟩ <;> rw [h] at hok ⊢
    · cases hok
    · refine ⟨rfl, (Dec.whenOpen_opened ?_ _).trans (if_neg (not_not.2 ?_))⟩
      · exact hp
      · exact hr

/-- Settles O33: END writes nothing, and its registers and the window's custody are settled by the first one. -/
theorem secondDecEndChangesNothing : Obligations.SecondDecEndChangesNothing := by
  intro s t h hok
  rw [exec_dec rfl] at h; cases h
  obtain ⟨hphase, hfinish⟩ := Dec.finish_finish hok
  rw [exec_dec rfl]
  simp only [Instr.decEffect, Instr.decCustody, State.commitDec_dec, State.commitDec_decCustody, hphase, hfinish,
    Custody.ended_ended, State.commitDec_nil]
  rfl

/-! ### Frames (R140, R144, R160) -/

/-- END leaves all that a FEED may change but `DISCARD` (R160). -/
theorem Dec.finish_block (d : Dec) :
    d.finish.regs.cursor = d.cursor ∧ d.finish.regs.pcode = d.pcode ∧ d.finish.regs.rem = d.rem ∧
    d.finish.regs.term = d.term := by
  unfold Dec.finish
  rcases d.whenOpen_cases Dec.finishOpen with ⟨_, h⟩ | ⟨_, h⟩ | ⟨_, h⟩ <;> rw [h]
  · exact ⟨rfl, rfl, rfl, rfl⟩
  · exact ⟨rfl, rfl, rfl, rfl⟩
  · rcases d.finishOpen_cases with ⟨_, h⟩ | ⟨_, h⟩ <;> rw [h] <;> exact ⟨rfl, rfl, rfl, rfl⟩

/-- Settles O50: START and END write no byte, and FEED the cursor's. -/
theorem decCommandFrame : Obligations.DecCommandFrame := by
  refine ⟨fun s t h => ?_, fun s t b last h => ?_, fun s t h => ?_⟩
  · obtain ⟨hbase, hcap⟩ := exec_args h .dec
    refine ⟨exec_onlyDec rfl h, hbase, hcap, fun a => ?_⟩
    rw [exec_dec rfl] at h; cases h
    exact State.read_land_other (by simp [Instr.decEffect, Dec.start_writes])
  · refine ⟨exec_onlyDec rfl h, ?_⟩
    have hout := fun hs => exec_dec_outsideWindowKept rfl hs h
    rw [exec_dec rfl] at h; cases h
    obtain ⟨hwindow, hresult⟩ := s.dec.feed_sameWindow s.params.legacyChunkZero b last
    exact ⟨hwindow, hresult, fun _ a ha =>
      State.read_land_other fun c hc hca => ha (hca ▸ (Dec.feed_writes hc).1), hout⟩
  · refine ⟨exec_onlyDec rfl h, ?_⟩
    rw [exec_dec rfl] at h; cases h
    obtain ⟨hcursor, hpcode, hrem, hterm⟩ := s.dec.finish_block
    exact ⟨s.dec.finish_sameWindow, hcursor, hpcode, hrem, hterm, fun a =>
      State.read_land_other (by simp [Instr.decEffect, Dec.finish_writes])⟩

/-! ### A whole session (R166) -/

/-- There is room for `n` bytes from the cursor on, in a window that does not pass the top of memory. -/
def Session.HasRoom (x : Session) (n : Nat) : Prop :=
  x.cursor.toNat + n ≤ x.winCap.toNat ∧ x.winBase.toNat + x.winCap.toNat ≤ Config.addrSpace

theorem Session.HasRoom.mono {x : Session} {m n : Nat} (h : x.HasRoom n) (hmn : m ≤ n) : x.HasRoom m :=
  ⟨(Nat.add_le_add_left hmn _).trans h.1, h.2⟩

/-- Between `s` and `u` the decoder has written the bytes `w` from its cursor on, but for bytes raced for, and moved the
cursor past them. -/
def State.Outputs (s u : State) (w : List Byte) : Prop :=
  OnlyDec s u ∧ u.dec.SameWindow s.dec.toSession ∧ u.dec.cursor.toNat = s.dec.cursor.toNat + w.length ∧
  u.HoldsBytes (s.dec.winBase.toNat + s.dec.cursor.toNat) w ∧
  ∀ a, a < s.dec.winBase.toNat + s.dec.cursor.toNat ∨
    s.dec.winBase.toNat + s.dec.cursor.toNat + w.length ≤ a → u.mem.read a = s.mem.read a

/-- A command that leaves the window, the cursor and memory has written nothing. -/
theorem State.outputs_nil {s : State} {d : Dec} (c : Custody) (hwindow : d.SameWindow s.dec.toSession)
    (hcursor : d.cursor = s.dec.cursor) : s.Outputs { s with dec := d, decCustody := c } [] :=
  ⟨⟨rfl, rfl, rfl, rfl, rfl, rfl, rfl, rfl⟩, hwindow, congrArg BitVec.toNat hcursor, State.holdsBytes_nil _ _,
    fun _ _ => rfl⟩

/-- A DEC.FEED that ends `OK` and moves the cursor on has written the byte it left there. -/
theorem State.outputs_of_decFeed {s u : State} {b v : Byte} {last : Bool} (h : exec (.decFeed b last) s = .next u)
    (hok : u.dec.lastRes = .ok) (hcursor : u.dec.cursor = s.dec.cursor + 1)
    (hread : ∀ a, s.raced a = false →
      u.mem.read a = if a = s.dec.address s.dec.cursor then some v else s.mem.read a)
    (hroom : s.dec.HasRoom 1) : s.Outputs u [v] := by
  obtain ⟨hlt, hwin⟩ := hroom
  obtain ⟨-, hfeed, -⟩ := decCommandFrame
  obtain ⟨honly, hwindow, -, hother, -⟩ := hfeed s u b last h
  have haddr := Session.address_eq hwin (off := s.dec.cursor) hlt
  refine ⟨honly, hwindow, ?_, fun k hk hraced => ?_, fun a ha => hother hok a ?_⟩
  · rw [hcursor]; exact Session.toNat_succ_of_room ((Session.not_full_iff _).2 hlt)
  · obtain rfl : k = 0 := by simpa using hk
    rw [honly.raced] at hraced
    exact (hread _ hraced).trans (if_pos haddr.symm)
  · rw [haddr]; rw [List.length_singleton] at ha; omega

theorem State.Outputs.trans {s u t : State} {w z : List Byte} (h : s.Outputs u w) (g : u.Outputs t z) :
    s.Outputs t (w ++ z) := by
  obtain ⟨honly, ⟨hbase, hcap, hwbase, hwcap⟩, hcursor, hheld, hkept⟩ := h
  obtain ⟨honly', ⟨hbase', hcap', hwbase', hwcap'⟩, hcursor', hheld', hkept'⟩ := g
  have hnext : u.dec.winBase.toNat + u.dec.cursor.toNat = s.dec.winBase.toNat + s.dec.cursor.toNat + w.length := by
    rw [hwbase, hcursor, Nat.add_assoc]
  rw [hnext] at hheld' hkept'
  refine ⟨honly.trans honly', ⟨hbase'.trans hbase, hcap'.trans hcap, hwbase'.trans hwbase, hwcap'.trans hwcap⟩, ?_,
    .append (fun k hk hraced => ?_) hheld', fun a ha => ?_⟩
  · rw [hcursor', hcursor, List.length_append, Nat.add_assoc]
  · rw [honly'.raced] at hraced
    rw [hkept' _ (.inl (by omega)), hheld k hk hraced]
  · rw [List.length_append] at ha
    rw [hkept' a (by omega), hkept a (by omega)]

/-- What was written took its room. -/
theorem State.Outputs.hasRoom {s u : State} {w : List Byte} {n : Nat} (h : s.Outputs u w)
    (hroom : s.dec.HasRoom (w.length + n)) : u.dec.HasRoom n := by
  obtain ⟨-, ⟨-, -, hbase, hcap⟩, hcursor, -⟩ := h
  obtain ⟨hlt, hwin⟩ := hroom
  refine ⟨?_, ?_⟩
  · rw [hcursor, hcap]; omega
  · rw [hbase, hcap]; exact hwin

/-- A chunk: its last byte, and no other, has `LAST = 1` (30_encoding.md R83). -/
def OneChunk (input : List (Byte × Bool)) : Prop :=
  ∃ front b, input = front ++ [(b, true)] ∧ ∀ x ∈ front, x.2 = false

theorem OneChunk.cons {x : Byte × Bool} {input : List (Byte × Bool)} (h : OneChunk (x :: input)) :
    (input = [] ∧ x.2 = true) ∨ (input ≠ [] ∧ x.2 = false ∧ OneChunk input) := by
  obtain ⟨front, b, heq, hfront⟩ := h
  cases front with
  | nil => cases heq; exact .inl ⟨rfl, rfl⟩
  | cons y front =>
    cases heq
    exact .inr ⟨by simp, hfront x (by simp), front, b, rfl, fun y hy => hfront y (by simp [hy])⟩

/-- An open session in the middle of a frame: the rest of the block `x` is due, then the blocks `l`. -/
def State.Expects (s : State) (x : Block) (l : List Block) : Prop :=
  s.dec.phase = .opened ∧ s.dec.discard = false ∧ s.dec.pcode = x.code ∧ s.dec.rem.toNat = x.literals.length ∧
  (∀ b ∈ x.literals, b ≠ 0#8) ∧ ∀ y ∈ l, y.wf = true

/-- A literal that is due is written (R148). -/
theorem State.Expects.literal {s : State} {code b : Byte} {lits : List Byte} {l : List Block}
    (h : s.Expects ⟨code, b :: lits⟩ l) (hroom : s.dec.HasRoom 1) (last : Bool) :
    ∃ u, exec (.decFeed b last) s = .next u ∧ u.Expects ⟨code, lits⟩ l ∧ s.Outputs u [b] := by
  obtain ⟨hp, hd, hcode, hrem, hlits, hwf⟩ := h
  obtain ⟨hb, hlits⟩ := List.forall_mem_cons.1 hlits
  rw [List.length_cons] at hrem
  have hr : s.dec.rem ≠ 0#8 := fun h0 => by rw [h0] at hrem; cases hrem
  obtain ⟨-, hwrite, -⟩ := decFeedLiteral s b last hp hd hr
  obtain ⟨u, hexec, -, hu, hread⟩ := hwrite hb hroom.1
  refine ⟨u, hexec, ?_, State.outputs_of_decFeed hexec (by rw [hu]) (by rw [hu]) hread hroom⟩
  rw [State.Expects, hu]
  exact ⟨hp, hd, hcode, by simp only; bv_omega, hlits, hwf⟩

/-- A code byte opens the next block, after the zero that the block before stands for (R150, R152). -/
theorem State.Expects.code {s : State} {code : Byte} {x : Block} {l : List Block} {last : Bool}
    (h : s.Expects ⟨code, []⟩ (x :: l)) (hlast : s.params.legacyChunkZero = true → last = false)
    (hroom : code ≠ 0xFF#8 → s.dec.HasRoom 1) :
    ∃ u, exec (.decFeed x.code last) s = .next u ∧ u.Expects x l ∧
      s.Outputs u (if code = 0xFF#8 then [] else [0#8]) := by
  obtain ⟨hp, hd, rfl, hrem, -, hwf⟩ := h
  obtain ⟨hx, hwf⟩ := List.forall_mem_cons.1 hwf
  simp only [Block.wf, Bool.and_eq_true, bne_iff_ne, beq_iff_eq, List.all_eq_true] at hx
  obtain ⟨⟨hcode, hlen⟩, hlits⟩ := hx
  have hrem' : (x.code - 1).toNat = x.literals.length := by bv_omega
  obtain ⟨hdirect, hzero, -⟩ := decFeedCodeByte s x.code last hp hd (BitVec.eq_of_toNat_eq hrem) hcode
  split
  case isTrue hpc =>
    obtain ⟨c, hexec⟩ := hdirect (.inl hpc)
    exact ⟨_, hexec, ⟨hp, hd, rfl, hrem', hlits, hwf⟩, State.outputs_nil c ⟨rfl, rfl, rfl, rfl⟩ rfl⟩
  case isFalse hpc =>
    obtain ⟨u, hexec, -, hu, hread⟩ := hzero hpc hlast (hroom hpc).1
    refine ⟨u, hexec, ?_, State.outputs_of_decFeed hexec (by rw [hu]) (by rw [hu]) hread (hroom hpc)⟩
    rw [State.Expects, hu]
    exact ⟨hp, hd, rfl, hrem', hlits, hwf⟩

/-- The terminator after the last block ends the frame and writes nothing (R150, R152). -/
theorem State.Expects.terminator {s : State} {code : Byte} {last : Bool} (h : s.Expects ⟨code, []⟩ [])
    (hlast : s.params.legacyChunkZero = true → last = true) :
    ∃ u, exec (.decFeed 0#8 last) s = .next u ∧ s.Outputs u [] ∧
      u.dec.phase = .opened ∧ u.dec.rem = 0#8 ∧ u.dec.term = true := by
  obtain ⟨hp, hd, -, hrem, -⟩ := h
  have hr : s.dec.rem = 0#8 := BitVec.eq_of_toNat_eq hrem
  obtain ⟨hread, -⟩ := decFeedTerminator s last hp hd hr
  have hnone : s.params.legacyChunkZero = false ∨ s.dec.pcode = 0xFF#8 ∨ last = true :=
    (Bool.eq_false_or_eq_true _).symm.imp_right fun hl => .inr (hlast hl)
  obtain ⟨c, hexec⟩ := hread hnone
  exact ⟨_, hexec, State.outputs_nil c ⟨rfl, rfl, rfl, rfl⟩ rfl, hp, hr, rfl⟩

/-- The first block's bytes lead a frame (30_encoding.md R91). -/
theorem frameBytes_cons (x : Block) (l : List Block) : frameBytes (x :: l) = x.code :: (x.literals ++ frameBytes l) := by
  simp [frameBytes, Block.bytes]

/-- Where one byte of a frame is left, it is the terminator. -/
theorem eq_terminator {b : Byte} {lits : List Byte} {l : List Block} (h : [b] = lits ++ frameBytes l) :
    lits = [] ∧ l = [] ∧ b = 0#8 := by
  rw [frameBytes, ← List.append_assoc] at h
  obtain ⟨hnil, hb⟩ := List.append_inj' (s₁ := []) h rfl
  obtain ⟨hlits, hbytes⟩ := List.append_eq_nil_iff.1 hnil.symm
  refine ⟨hlits, List.eq_nil_iff_forall_not_mem.2 fun x hx => ?_, List.singleton_inj.1 hb⟩
  cases List.flatMap_eq_nil_iff.1 hbytes x hx

/-- A literal of a block comes before the rest of what the block and those after it stand for. -/
theorem payloadOf_literal (code b : Byte) (lits : List Byte) (l : List Block) :
    payloadOf (⟨code, b :: lits⟩ :: l) = [b] ++ payloadOf (⟨code, lits⟩ :: l) := by
  cases l <;> rfl

/-- A byte of a frame before its terminator: the session goes on with the rest of the frame, and what was written is
what the rest does not stand for. -/
theorem State.Expects.feed {s : State} {x : Block} {l : List Block} (h : s.Expects x l) {b : Byte} {last : Bool}
    {rest : List Byte} (hbytes : b :: rest = x.literals ++ frameBytes l) (hrest : rest ≠ [])
    (hlast : s.params.legacyChunkZero = true → last = false) (hroom : s.dec.HasRoom (payloadOf (x :: l)).length) :
    ∃ u y m w, exec (.decFeed b last) s = .next u ∧ u.Expects y m ∧ rest = y.literals ++ frameBytes m ∧
      s.Outputs u w ∧ payloadOf (x :: l) = w ++ payloadOf (y :: m) := by
  obtain ⟨code, lits⟩ := x
  cases lits with
  | cons c lits =>
    rw [List.cons_append, List.cons.injEq] at hbytes
    obtain ⟨rfl, rfl⟩ := hbytes
    rw [payloadOf_literal] at hroom
    obtain ⟨u, hexec, hu, hout⟩ := h.literal (hroom.mono (by simp)) last
    exact ⟨u, _, _, _, hexec, hu, rfl, hout, payloadOf_literal _ _ _ _⟩
  | nil =>
    cases l with
    | nil => cases hbytes; exact absurd rfl hrest
    | cons x l =>
      rw [List.nil_append, frameBytes_cons, List.cons.injEq] at hbytes
      obtain ⟨rfl, rfl⟩ := hbytes
      have hpayload : payloadOf (⟨code, []⟩ :: x :: l) = (if code = 0xFF#8 then [] else [0#8]) ++ payloadOf (x :: l) :=
        payloadOf_cons (by simp)
      rw [hpayload] at hroom
      obtain ⟨u, hexec, hu, hout⟩ := h.code hlast fun hpc => hroom.mono (by simp [hpc])
      exact ⟨u, x, l, _, hexec, hu, rfl, hout, hpayload⟩

/-- The terminator and the END leave what was written as it is, and report the cursor as the length (R160). -/
theorem State.Expects.terminator_decEnd {s : State} {code : Byte} {last : Bool} (h : s.Expects ⟨code, []⟩ [])
    (hlast : s.params.legacyChunkZero = true → last = true) :
    ∃ t, runAll [.decFeed 0#8 last, .decEnd] s = .next t ∧ s.Outputs t [] ∧
      t.dec.lastRes = .ok ∧ t.dec.term = true ∧ t.dec.result = t.dec.cursor := by
  obtain ⟨u, hexec, hout, hp, hr, hterm⟩ := h.terminator hlast
  obtain ⟨c, hend⟩ := (decEndChecksCompleteness u hp).1 hr
  exact ⟨_, (runAll_cons _ _ hexec).trans (runAll_cons _ _ hend),
    hout.trans (State.outputs_nil c ⟨rfl, rfl, rfl, rfl⟩ rfl), rfl, hterm, rfl⟩

/-- FEEDs of the rest of a frame and the END write what the rest stands for and report the cursor as the length. -/
theorem State.Expects.feeds_decEnd {s : State} {x : Block} {l : List Block} (h : s.Expects x l)
    {input : List (Byte × Bool)} (hbytes : input.map Prod.fst = x.literals ++ frameBytes l)
    (hchunk : s.params.legacyChunkZero = true → OneChunk input)
    (hroom : s.dec.HasRoom (payloadOf (x :: l)).length) :
    ∃ t, runAll (input.map (fun y => Instr.decFeed y.1 y.2) ++ [.decEnd]) s = .next t ∧
      s.Outputs t (payloadOf (x :: l)) ∧
      t.dec.lastRes = .ok ∧ t.dec.term = true ∧ t.dec.result = t.dec.cursor := by
  induction input generalizing s x l with
  | nil => simp [frameBytes] at hbytes
  | cons c input ih =>
    obtain ⟨b, last⟩ := c
    by_cases hinput : input = []
    · subst hinput
      obtain ⟨code, lits⟩ := x
      obtain ⟨rfl, rfl, rfl⟩ := eq_terminator hbytes
      exact h.terminator_decEnd fun hl => ((hchunk hl).cons.resolve_right (by simp)).2
    · have hlast := fun hl => ((hchunk hl).cons.resolve_left (by simp [hinput])).2
      obtain ⟨u, y, m, w, hexec, hu, hrest, hout, hpayload⟩ :=
        h.feed hbytes (by simpa using hinput) (fun hl => (hlast hl).1) hroom
      rw [hpayload] at hroom ⊢
      rw [List.length_append] at hroom
      obtain ⟨hparams, -⟩ := exec_keeps hexec
      obtain ⟨t, hrun, hout', ht⟩ := ih hu hrest (fun hl => (hlast (hparams ▸ hl)).2) (hout.hasRoom hroom)
      exact ⟨t, (runAll_cons _ _ hexec).trans hrun, hout.trans hout', ht⟩

/-- A successful START expects a whole frame, as if after a capped block, which no zero follows (R140, R150). -/
theorem expects_of_decStart {s : State} (hw : s.dec.windowRefused = false) {l : List Block}
    (hwf : ∀ x ∈ l, x.wf = true) :
    ∃ u, exec .decStart s = .next u ∧ u.Expects ⟨0xFF#8, []⟩ l ∧ OnlyDec s u ∧ u.mem = s.mem ∧
      u.dec.winBase = s.dec.dstBase ∧ u.dec.winCap = s.dec.dstCap ∧ u.dec.cursor = 0#32 :=
  have hexec := exec_decStart_accepted hw
  ⟨_, hexec, ⟨rfl, rfl, rfl, rfl, by simp, hwf⟩, exec_onlyDec rfl hexec, rfl, rfl, rfl, rfl⟩

/-- Settles O54: START expects the whole frame, and the FEEDs and the END write what its blocks stand for, which is the
payload. -/
theorem decoderSessionRecoversPayload : Obligations.DecoderSessionRecoversPayload := by
  intro input p s hchunk hbytes hcap hwin hfits
  obtain ⟨hne, hwf, hpayload, -⟩ := frameOfPayload p
  have hblocks : payloadOf (⟨0xFF#8, []⟩ :: blocksOf p) = p := by
    rw [payloadOf_cons hne, hpayload]; rfl
  obtain ⟨u, hstart, hexpects, honly, hmem, hbase, hwcap, hcursor⟩ :=
    expects_of_decStart (Session.windowRefused_false_iff.2 ⟨hcap, hwin⟩) hwf
  obtain ⟨hparams, -⟩ := exec_keeps hstart
  have hone : u.params.legacyChunkZero = true → OneChunk input :=
    fun hl => hchunk.resolve_left (by rw [← hparams, hl]; decide)
  have hroom : u.dec.HasRoom p.length := by
    rw [Session.HasRoom, hcursor, hbase, hwcap]
    exact ⟨(Nat.zero_add _).trans_le hfits, hwin⟩
  obtain ⟨t, hrun, hout, hok, hterm, hresult⟩ := hexpects.feeds_decEnd hbytes hone (by rwa [hblocks])
  rw [hblocks] at hout
  obtain ⟨honly', -, hend, hheld, hkept⟩ := hout
  rw [hcursor] at hend
  rw [hbase, hcursor] at hheld hkept
  refine ⟨t, (runAll_cons _ _ hstart).trans hrun, honly.trans honly', hok, hterm, ?_, fun k hk hraced => ?_,
    fun a ha => (hkept a ha).trans (congrArg (Memory.read · a) hmem)⟩
  · rw [hresult, hend]; exact Nat.zero_add _
  · exact hheld k hk ((honly.trans honly').raced _ ▸ hraced)

end Sys2Proof.Machine
end

section
/-! Results, failure and recovery (60_exceptions.md): which command raises which error and what it leaves, how an engine
leaves `FAILED`, and that commands to different engines commute. -/
namespace Sys2Proof.Machine

/-! ### What a command's result says of what it did (R180 to R187) -/

/-- Settles O35: a command is its two halves on the registers, which are total. -/
theorem everyCommandCompletes : Obligations.EveryCommandCompletes := fun i s => ⟨_, exec_eq i s⟩

/-- What a FEED or END answers when no session is open (R189 items 3 and 4): the result that leaves the session stuck. -/
def Session.Answers (x : Session) (r : Result) : Prop :=
  Session.Stuck { x with lastRes := r }

theorem Session.answers_iff {x : Session} {r : Result} :
    x.Answers r ↔ x.phase = .idle ∧ r = .invalidArgument ∨ x.phase = .failed ∧ r = x.failErr := Iff.rfl

theorem Enc.whenOpen_answers {e : Enc} {r : Result} (h : e.toSession.Answers r) (f : Enc → Effect Enc) :
    e.whenOpen f = { regs := { e with lastRes := r }, writes := [] } := by
  rcases Session.answers_iff.1 h with ⟨hp, rfl⟩ | ⟨hp, rfl⟩
  · exact Enc.whenOpen_idle hp f
  · exact Enc.whenOpen_failed hp f

theorem Dec.whenOpen_answers {d : Dec} {r : Result} (h : d.toSession.Answers r) (f : Dec → Effect Dec) :
    d.whenOpen f = { regs := { d with lastRes := r }, writes := [] } := by
  rcases Session.answers_iff.1 h with ⟨hp, rfl⟩ | ⟨hp, rfl⟩
  · exact Dec.whenOpen_idle hp f
  · exact Dec.whenOpen_failed hp f

/-- A FEED or END with no session open sets `LASTRES` and nothing else but who may use the window. -/
theorem exec_answers {i : Instr} (hi : i.isStart = false) {s : State} {r : Result}
    (h : (s.session i.engine).Answers r) :
    exec i s = .next ((s.setSession i.engine { s.session i.engine with lastRes := r }).setCustody i.engine
      (Instr.custodyAfter i (s.session i.engine) (s.custody i.engine))) := by
  cases i with
  | encStart | decStart => cases hi
  | encFeed b last => rw [exec_enc rfl, Instr.encEffect, Enc.feed, Enc.whenOpen_answers h]; rfl
  | encEnd => rw [exec_enc rfl, Instr.encEffect, Enc.finish, Enc.whenOpen_answers h]; rfl
  | decFeed b last => rw [exec_dec rfl, Instr.decEffect, Dec.feed, Dec.whenOpen_answers h]; rfl
  | decEnd => rw [exec_dec rfl, Instr.decEffect, Dec.finish, Dec.whenOpen_answers h]; rfl

/-- Settles O37: in `FAILED` the answer is the stored error. -/
theorem failedRepeatsStoredError : Obligations.FailedRepeatsStoredError :=
  fun _ _ hi hp => ⟨_, exec_answers hi (Session.answers_iff.2 (.inr ⟨hp, rfl⟩))⟩

/-- A FEED or END in `IDLE` sets `LASTRES` as a malformed word does, and leaves the window with its holder (R185). -/
theorem exec_idle_refused {i : Instr} {s : State} (hi : i.isStart = false)
    (hp : (s.session i.engine).phase = .idle) : exec i s = .next (s.malformed i.engine) := by
  have hcustody := Instr.custodyAfter_idle (i := i) hp (by simp [hi]) (s.custody i.engine)
  rw [exec_answers hi (Session.answers_iff.2 (.inl ⟨hp, rfl⟩)), hcustody]
  cases i.engine <;> rfl

/-- A START with a window it refuses sets `LASTRES` as a malformed word does (40_encoder.md R110, 41_decoder.md R140). -/
theorem exec_start_refused {i : Instr} {s : State} (hi : i.isStart = true)
    (hw : (s.session i.engine).windowRefused = true) : exec i s = .next (s.malformed i.engine) := by
  cases i with
  | encStart => exact exec_encStart_refused hw
  | decStart => exact exec_decStart_refused hw
  | encFeed | encEnd | decFeed | decEnd => cases hi

/-- A command that changes an engine's session is that engine's (10_state.md R20). -/
theorem exec_engine_of_ne {i : Instr} {s t : State} {u : Engine} (h : exec i s = .next t)
    (hne : t.session u ≠ s.session u) : i.engine = u :=
  not_imp_comm.1 (exec_session_other h) hne

/-- Failure entry (R186): a command that takes its engine into `FAILED` is a FEED or END of an open session. -/
theorem exec_failureEntry {i : Instr} {s t : State} (h : exec i s = .next t)
    (hp : (s.session i.engine).phase ≠ .failed) (ht : (t.session i.engine).phase = .failed) :
    i.isStart = false ∧ (s.session i.engine).phase = .opened ∧
    (t.session i.engine).failErr = (t.session i.engine).lastRes ∧
    ((t.session i.engine).lastRes = .bufferOverflow ∨ (t.session i.engine).lastRes = .decodeError) ∧
    (t.session i.engine).result = (s.session i.engine).result ∧
    (t.session i.engine).SameWindow (s.session i.engine) := by
  cases hi : i.engine with
  | enc =>
    rw [hi] at hp ht; rw [exec_enc hi] at h; cases h
    simp only [State.session_enc, State.commitEnc_enc] at hp ht ⊢
    rcases encEffect_cases i hi s.enc with ⟨_, _, he⟩ | ⟨_, _, he⟩ | ⟨_, hf, _⟩ | ⟨_, _, he⟩ |
      ⟨hs, ho, _, herr, hl, hr, hw⟩ | ⟨_, _, ho, _⟩
    · rw [he] at ht; exact absurd ht hp
    · rw [he] at ht; exact absurd ht hp
    · exact absurd hf hp
    · rw [he] at ht; cases ht
    · exact ⟨hs, ho, herr.trans hl.symm, .inl hl, hr, hw⟩
    · rw [ho] at ht; cases ht
  | dec =>
    rw [hi] at hp ht; rw [exec_dec hi] at h; cases h
    simp only [State.session_dec, State.commitDec_dec] at hp ht ⊢
    rcases decEffect_cases i hi s.params.legacyChunkZero s.dec with ⟨_, _, he⟩ | ⟨_, _, he⟩ | ⟨_, hf, _⟩ |
      ⟨_, _, he⟩ | ⟨hs, ho, _, hl, herr, hr, hw⟩ | ⟨_, _, ho, _⟩
    · rw [he] at ht; exact absurd ht hp
    · rw [he] at ht; exact absurd ht hp
    · exact absurd hf hp
    · rw [he] at ht; cases ht
    · exact ⟨hs, ho, herr, hl, hr, hw⟩
    · rw [ho] at ht; cases ht

/-- Settles O38: only the command's own engine changes phase, and it does so by failure entry. -/
theorem failureEntryRecordsError : Obligations.FailureEntryRecordsError := by
  intro i s t u h hp ht
  obtain rfl := exec_engine_of_ne h fun hsame => hp (hsame ▸ ht)
  exact ⟨rfl, exec_failureEntry h hp ht⟩

/-- A command ends `OK`, or is refused and changes `LASTRES` alone, or leaves its engine in `FAILED` with the error in
both `FAILERR` and `LASTRES` (R184 to R187). -/
theorem exec_result {i : Instr} {s t : State} (h : exec i s = .next t) :
    (t.session i.engine).lastRes = .ok ∨
    ((t.session i.engine).lastRes = .invalidArgument ∧ t = s.malformed i.engine) ∨
    ((t.session i.engine).phase = .failed ∧ (t.session i.engine).failErr = (t.session i.engine).lastRes) := by
  rcases exec_session_cases h rfl rfl with ⟨hs, hp, he⟩ | ⟨hs, hw, he⟩ | ⟨_, hp, he⟩ | ⟨_, _, c, he⟩ |
    ⟨ho, hf, _⟩ | ⟨_, _, _, hok, _⟩
  · exact .inr (.inl ⟨by rw [he]; rfl, Host.Outcome.next.inj (h.symm.trans (exec_idle_refused hs hp))⟩)
  · exact .inr (.inl ⟨by rw [he]; rfl, Host.Outcome.next.inj (h.symm.trans (exec_start_refused hs hw))⟩)
  · exact .inr (.inr (by rw [he]; exact ⟨hp, rfl⟩))
  · exact .inl (by rw [he]; rfl)
  · obtain ⟨_, _, herr, _⟩ := exec_failureEntry h (by simp [ho]) hf
    exact .inr (.inr ⟨hf, herr⟩)
  · exact .inl hok

/-- In a sound state `FAILERR` is an error in phase `FAILED` (10_state.md R29). -/
theorem State.Inv.failErr {s : State} (hs : s.Inv) {u : Engine} (hp : (s.session u).phase = .failed) :
    (s.session u).failErr = .bufferOverflow ∨ (s.session u).failErr = .decodeError := by
  obtain ⟨⟨⟨_, _, _, _, henc, _⟩, _⟩, ⟨⟨_, _, _, _, hdec, _⟩, _⟩, _⟩ := hs
  cases u
  · exact henc hp
  · exact hdec hp

/-- Settles O36: a result `InvalidArgument` is no error of a session in `FAILED`, so the command was refused. -/
theorem invalidArgumentChangesOnlyLastres : Obligations.InvalidArgumentChangesOnlyLastres := by
  refine ⟨fun i s t hs h hl => ?_, fun i s hi hp => exec_idle_refused hi hp⟩
  rcases exec_result h with hok | ⟨_, ht⟩ | ⟨hf, herr⟩
  · rw [hl] at hok; cases hok
  · exact ht
  · rw [hl] at herr
    rcases (hs.exec h).failErr hf with he | he <;> rw [herr] at he <;> cases he

/-! ### `DecodeError` (R183) -/

/-- A literal ends in `DecodeError` exactly when it is `0x00` (41_decoder.md R148). -/
theorem Dec.literal_decodeError_iff (b : Byte) (d : Dec) :
    (d.literal b).regs.lastRes = .decodeError ↔ b = 0#8 := by
  rcases d.literal_cases b with ⟨hb, h⟩ | ⟨hb, _, h⟩ | ⟨hb, _, h⟩ <;> rw [h] <;> simp [hb]

/-- A byte in code position raises no `DecodeError` (41_decoder.md R150, R152). -/
theorem Dec.codeByte_ne_decodeError (legacy : Bool) (b : Byte) (last : Bool) (d : Dec) :
    (d.codeByte legacy b last).regs.lastRes ≠ .decodeError := by
  rcases d.codeByte_cases legacy b last with ⟨_, h⟩ | ⟨_, _, h⟩ | ⟨_, _, h⟩ <;> simp [h]

/-- In a sound state no literal is due while bytes are dropped (10_state.md R35), so only a literal can be refused. -/
theorem Dec.Inv.feedOpen_decodeError_iff {d : Dec} (h : d.Inv) (legacy : Bool) (b : Byte) (last : Bool) :
    (d.feedOpen legacy b last).regs.lastRes = .decodeError ↔ d.rem ≠ 0#8 ∧ b = 0#8 := by
  obtain ⟨_, _, hdiscard⟩ := h
  rcases d.feedOpen_cases legacy b last with ⟨hd, he⟩ | ⟨_, hr, he⟩ | ⟨_, hr, he⟩ <;> rw [he]
  · simp [(hdiscard hd).2]
  · simp [Dec.literal_decodeError_iff, hr]
  · simp [Dec.codeByte_ne_decodeError, hr]

/-- An END ends in `DecodeError` exactly when literals are still due (41_decoder.md R160). -/
theorem Dec.finishOpen_decodeError_iff (d : Dec) :
    d.finishOpen.regs.lastRes = .decodeError ↔ d.rem ≠ 0#8 := by
  rcases d.finishOpen_cases with ⟨hr, h⟩ | ⟨hr, h⟩ <;> simp [h, hr]

/-- Settles O34: the decoder's FEED and END by their forms; the encoder by what a result says, for its `FAILERR` is never
`DecodeError`. -/
theorem decodeErrorExactly : Obligations.DecodeErrorExactly := by
  intro s hs
  obtain ⟨_, hdec, _⟩ := State.inv_iff.1 hs
  refine ⟨fun b last hp => ⟨_, exec_decFeed_opened hp b last, hdec.feedOpen_decodeError_iff _ b last⟩,
    fun hp => ⟨_, exec_decEnd_opened hp, s.dec.finishOpen_decodeError_iff⟩, fun i t hi h hl => ?_⟩
  obtain ⟨⟨_, hne, _⟩, _⟩ := State.inv_iff.1 (hs.exec h)
  have hresult := exec_result h
  rw [hi, State.session_enc] at hresult
  rcases hresult with hok | ⟨hinvalid, _⟩ | ⟨_, herr⟩
  · rw [hl] at hok; cases hok
  · rw [hl] at hinvalid; cases hinvalid
  · exact hne (herr.trans hl)

/-! ### Recovery (R188) -/

/-- The one command that leads out of `FAILED` is a START that opens a session. -/
theorem exec_recovery {i : Instr} {s t : State} (h : exec i s = .next t)
    (hp : (s.session i.engine).phase = .failed) (ht : (t.session i.engine).phase ≠ .failed) :
    i.isStart = true ∧ ∃ c, t.session i.engine = (s.session i.engine).openAt c := by
  rcases exec_session_cases h rfl rfl with ⟨_, hidle, _⟩ | ⟨_, _, he⟩ | ⟨_, _, he⟩ | ⟨hs, _, ho⟩ | ⟨ho, _⟩ |
    ⟨ho, _⟩
  · rw [hp] at hidle; cases hidle
  · exact absurd (by rw [he]; exact hp) ht
  · exact absurd (by rw [he]; exact hp) ht
  · exact ⟨hs, ho⟩
  · rw [hp] at ho; cases ho
  · rw [hp] at ho; cases ho

/-- A malformed word changes no phase (30_encoding.md R88). -/
theorem State.malformed_phase (s : State) (v u : Engine) :
    ((s.malformed v).session u).phase = (s.session u).phase := by
  cases v <;> cases u <;> rfl

/-- A register write changes no phase (10_state.md R40). -/
theorem State.writeReg_phase (s : State) (r : Reg) (v : Word) (u : Engine) :
    ((s.writeReg r v).session u).phase = (s.session u).phase := by
  cases r <;> cases u <;> rfl

/-- A reset leaves no session (70_reset_and_hazards.md R210). -/
theorem State.resetRegisters_phase (s : State) (u : Engine) : (s.resetRegisters.session u).phase = .idle := by
  cases u <;> rfl

/-- An access that issues no command changes a phase only as a reset. -/
theorem serve_phase {a : Access} {s t : State} (h : serve a s = .next t) (u : Engine) :
    (t.session u).phase = (s.session u).phase ∨
    (a = .reset ∨ ∃ w, a = .resetDuring w) ∧ (t.session u).phase = .idle := by
  rcases serve_regs h with ⟨_, v, r, _, _, rfl⟩ | ⟨he, hd, _⟩ | ⟨ha, rfl⟩ | ⟨w, ha, rfl⟩
  · exact .inl (s.writeReg_phase r v u)
  · exact .inl (by cases u <;> simp [he, hd])
  · exact .inr ⟨.inl ha, s.resetRegisters_phase u⟩
  · exact .inr ⟨.inr ⟨w, ha⟩, State.resetRegisters_phase _ u⟩

/-- Settles O39, by what a step can do: a wait and a malformed word keep the phase, a command leaves `FAILED` as a START
that opens a session, and any other access as a reset. -/
theorem recoveryOnlyByStartOrReset : Obligations.RecoveryOnlyByStartOrReset := by
  intro s t u h hp ht
  rcases step_cases s with ⟨_, hstep⟩ | ⟨a, rest, hpend, ⟨w, i, hw, hd, hstep⟩ | ⟨w, _, _, _, hstep⟩ | ⟨_, hstep⟩⟩ <;>
    rw [hstep] at h
  · cases h; exact absurd hp ht
  · obtain rfl := exec_engine_of_ne h fun hsame => ht (hsame ▸ hp)
    obtain ⟨hs, c, ho⟩ := exec_recovery h hp ht
    exact .inl ⟨a, rest, w, i, hpend, hw, hd, rfl, hs, by simp [ho], by simp [ho], by simp [ho]⟩
  · cases h
    exact absurd ((State.malformed_phase { s with pending := rest } _ u).trans hp) ht
  · rcases serve_phase h u with hsame | ⟨rfl | ⟨w, rfl⟩, hidle⟩
    · exact absurd (hsame.trans hp) ht
    · exact .inr (.inl ⟨rest, hpend, hidle⟩)
    · exact .inr (.inr ⟨w, rest, hpend, hidle⟩)

/-! ### Commands to different engines (R199) -/

/-- What a byte holds after engine writes depends on that byte and on whether it is raced for alone. -/
theorem State.read_land_congr {s t : State} {k : Nat} (w : List Host.Cell) (hr : s.raced k = t.raced k)
    (hm : s.mem.read k = t.mem.read k) : (s.land w).read k = (t.land w).read k := by
  rw [State.read_land, State.read_land, hr, hm, Memory.read_writeAll_congr w hm]

/-- Writes that keep a byte may land before or after other writes: the byte is the same in either order. -/
theorem State.read_land_comm {s t u : State} {w z : List Host.Cell} {k : Nat}
    (hkept : ∀ v : State, (v.land w).read k = v.mem.read k) (ht : t.mem = s.land w) (hu : u.mem = s.land z)
    (hr : t.raced k = s.raced k) : (t.land z).read k = (u.land w).read k :=
  calc (t.land z).read k
    _ = (s.land z).read k := State.read_land_congr z hr (by rw [ht, hkept])
    _ = (u.land w).read k := by rw [hkept, hu]

/-- Settles O41: a command's effect does not depend on the other engine, and every byte lies outside one of the windows,
where that engine's writes keep it. The premises on `LASTRES` are not needed. -/
theorem interleavedCommandsCommute : Obligations.InterleavedCommandsCommute := by
  intro i j s a b c d hs hi hj hdisjoint ha hb hc hd
  obtain ⟨henc, hdec, _⟩ := State.inv_iff.1 hs
  rw [exec_enc hi] at ha hd; rw [exec_dec hj] at hb hc
  cases ha; cases hb; cases hc; cases hd
  refine ⟨rfl, rfl, rfl, rfl, rfl, rfl, rfl, rfl, rfl, rfl, fun k _ _ => ?_⟩
  cases hk : s.enc.inWindow k
  · exact State.read_land_comm (s := s) (fun _ => State.read_land_outside (fun _ => henc.writes_inWindow) hk)
      rfl rfl rfl
  · exact Eq.symm (State.read_land_comm (s := s)
      (fun _ => State.read_land_outside (fun _ => hdec.writes_inWindow) (hdisjoint k hk)) rfl rfl rfl)

end Sys2Proof.Machine
end

section
/-! Reset and hazards (70_reset_and_hazards.md): what a reset leaves, alone and during a command, who may use a window
after a step, and which bytes of an open session are final. -/
namespace Sys2Proof.Machine

/-! ### Reset (R210, R211) -/

/-- Settles O5: the reset state by its definition, and a reset of any state by what it leaves of memory. -/
theorem resetValues : Obligations.ResetValues := by
  refine ⟨fun u => by cases u <;> rfl, rfl, rfl, rfl, rfl, rfl, rfl, fun s rest hp => ?_, fun s => step_idle⟩
  exact ⟨_, step_serve hp rfl, rfl, rfl, rfl, rfl, rfl, fun a ha =>
    State.read_resetRegisters_other (s := { s with pending := rest }) ha⟩

/-- A reset during a command is a reset after the bytes it could write were made free. -/
theorem State.resetDuring_keeps (s : State) (w : Word) :
    (s.resetDuring w).enc = Enc.reset ∧ (s.resetDuring w).dec = Dec.reset ∧ (s.resetDuring w).params = s.params ∧
    (s.resetDuring w).pending = s.pending ∧ (s.resetDuring w).readData = s.readData := by
  obtain ⟨m, n, hfree⟩ := State.freeBytes_eq (s.writesOfWord w) s
  rw [State.resetDuring, hfree]
  exact ⟨rfl, rfl, rfl, rfl, rfl⟩

/-- Making bytes free leaves which bytes are raced for. -/
theorem State.raced_freeBytes (l : List Nat) (s : State) (a : Nat) : (State.freeBytes l s).raced a = s.raced a := by
  obtain ⟨m, n, hfree⟩ := State.freeBytes_eq l s
  rw [hfree]; rfl

/-- A reset during a command reads, where nobody races, as memory with the command's bytes made free. -/
theorem State.read_resetDuring {s : State} {a : Nat} (ha : s.raced a = false) (w : Word) :
    (s.resetDuring w).mem.read a = (State.freeBytes (s.writesOfWord w) s).mem.read a :=
  State.read_resetRegisters_other ((State.raced_freeBytes _ s a).trans ha)

/-- A byte that the command could write is a free byte, raced for or not. -/
theorem State.resetDuring_settles {s : State} {w : Word} {a : Nat} (ha : a ∈ s.writesOfWord w) :
    s.SettledAt (s.resetDuring w) a := by
  cases hr : s.raced a
  · obtain ⟨n, hlo, hhi, hread⟩ := State.freeBytes_read_mem ha s
    exact ⟨n, hlo, hhi.trans_le (State.freeCount_le_resetRegisters _), (State.read_resetDuring hr w).trans hread⟩
  · exact (s.resetDuring_raced w a).2 hr

/-- Settles O8: the bytes the command could write are drawn free, and the reset then leaves all but the raced ones. -/
theorem resetDuringCommand : Obligations.ResetDuringCommand := by
  intro s rest w hp
  obtain ⟨henc, hdec, hparams, hpending, hdata⟩ := State.resetDuring_keeps { s with pending := rest } w
  refine ⟨_, step_serve hp rfl, henc, hdec, hparams, hpending, hdata, fun a ha hr => ?_, fun a ha => ?_⟩
  · exact (State.read_resetDuring (s := { s with pending := rest }) hr w).trans (State.freeBytes_read_other ha _)
  · exact State.resetDuring_settles (s := { s with pending := rest }) ha

/-! ### Who may use a window (R216; log entry 7) -/

/-- A START ends `OK` exactly when it accepts its window (40_encoder.md R110, 41_decoder.md R140). -/
theorem exec_start_ok_iff {i : Instr} (hi : i.isStart = true) {s t : State} (h : exec i s = .next t) :
    (t.session i.engine).lastRes = .ok ↔ (s.session i.engine).windowRefused = false := by
  cases hw : (s.session i.engine).windowRefused
  · cases i with
    | encStart => rw [exec_encStart_accepted hw] at h; cases h; exact iff_of_true rfl rfl
    | decStart => rw [exec_decStart_accepted hw] at h; cases h; exact iff_of_true rfl rfl
    | encFeed | encEnd | decFeed | decEnd => cases hi
  · rw [exec_start_refused hi hw] at h; cases h
    cases i.engine <;> simp

/-- A START that accepts its window takes it. -/
theorem Instr.custodyAfter_start {i : Instr} (hi : i.isStart = true) {x : Session} (hw : x.windowRefused = false)
    (c : Custody) : Instr.custodyAfter i x c = .engine := by
  cases i with
  | encStart | decStart => simp [Instr.custodyAfter, hw, Custody.started]
  | encFeed | encEnd | decFeed | decEnd => cases hi

/-- A FEED or END of an open session has the engine hold the window, an END with its result unread. -/
theorem Instr.custodyAfter_opened {i : Instr} (hi : i.isStart = false) {x : Session} (hp : x.phase = .opened)
    (c : Custody) : Instr.custodyAfter i x c = if i = .encEnd ∨ i = .decEnd then .unread else .engine := by
  cases i with
  | encStart | decStart => cases hi
  | encFeed | encEnd | decFeed | decEnd => simp [Instr.custodyAfter, hp, Custody.fed, Custody.ended]

/-- A command takes the host's window only as a START that accepts it, or as a FEED or END of an open session. -/
theorem Instr.takes_window {i : Instr} {x : Session} (h : Instr.custodyAfter i x .host ≠ .host) :
    i.isStart = true ∧ x.windowRefused = false ∨ i.isStart = false ∧ x.phase = .opened := by
  cases i with
  | encStart | decStart =>
    refine .inl ⟨rfl, Bool.eq_false_iff.2 fun hw => h ?_⟩
    simp [Instr.custodyAfter, hw, Custody.started]
  | encFeed | encEnd | decFeed | decEnd =>
    refine .inr ⟨rfl, ?_⟩
    cases hp : x.phase
    case opened => rfl
    case idle | failed => simp [Instr.custodyAfter, hp, Custody.fed, Custody.ended] at h

/-- The registers that show an engine's END result (20_memory.md R71). -/
def resultRegs : Engine → List Reg
  | .enc => [.encStatus, .encResult]
  | .dec => [.decStatus, .decResult]

theorem Reg.mem_resultRegs_iff {r : Reg} {u : Engine} : r ∈ resultRegs u ↔ r.endResultOf = some u := by
  cases r <;> cases u <;> simp [Reg.endResultOf, resultRegs]

/-- The read of an unread END's result gives the window back. -/
theorem State.afterRead_unread {s : State} {r : Reg} {u : Engine} (hr : r.endResultOf = some u)
    (hc : s.custody u = .unread) : s.afterRead r = s.release u := by
  simp [State.afterRead, hr, hc]

/-- A window given back leaves the other one with its holder. -/
theorem State.release_custody_other (s : State) {u v : Engine} (h : v ≠ u) :
    (s.release v).custody u = s.custody u := by
  cases u <;> cases v
  · exact absurd rfl h
  · rfl
  · rfl
  · exact absurd rfl h

/-- A malformed word leaves both windows with their holders (30_encoding.md R88). -/
theorem State.malformed_custody (s : State) (v u : Engine) : (s.malformed v).custody u = s.custody u := by
  cases v <;> cases u <;> rfl

/-- The host gets the window of `u` by the access `a`: it reads the unread result of an END, or resets the block. -/
def State.GivesBack (s : State) (u : Engine) (a : Access) : Prop :=
  (∃ addr r, a = .regRead addr 4 ∧ selectedReg s.params addr 4 = some r ∧ r.endResultOf = some u ∧
    s.custody u = .unread) ∨
  a = .reset ∨ ∃ w, a = .resetDuring w

/-- An access that issues no command leaves a window with its holder, or gives it to the host. -/
theorem serve_custody {a : Access} {s t : State} (h : serve a s = .next t) (u : Engine) :
    t.custody u = s.custody u ∨ t.custody u = .host ∧ s.GivesBack u a := by
  rcases serve_cases h with ⟨_, v, r, _, _, rfl⟩ | ⟨addr, r, ha, hsel, rfl⟩ | ⟨_, _, ⟨_, rfl⟩ | ⟨_, rfl⟩⟩ |
    ⟨_, v, _, ⟨_, rfl⟩ | ⟨_, rfl⟩⟩ | ⟨ha, rfl⟩ | ⟨w, ha, rfl⟩
  · exact .inl (by cases r <;> cases u <;> rfl)
  · change (s.afterRead r).custody u = _ ∨ (s.afterRead r).custody u = _ ∧ _
    rcases s.afterRead_cases r with hr | ⟨v, hv, hc, hr⟩ <;> rw [hr]
    · exact .inl rfl
    · by_cases hvu : v = u
      · subst hvu; exact .inr ⟨s.release_custody v, .inl ⟨addr, r, ha, hsel, hv, hc⟩⟩
      · exact .inl (s.release_custody_other hvu)
  · exact .inl rfl
  · exact .inl rfl
  · exact .inl rfl
  · exact .inl rfl
  · exact .inr ⟨by cases u <;> rfl, .inr (.inl ha)⟩
  · exact .inr ⟨by cases u <;> rfl, .inr (.inr ⟨w, ha⟩)⟩

/-- What a step can do to the custody of a window: leave it, give the window to the host, or run a command of its
engine. -/
theorem step_custody {s t : State} (h : step s = .next t) (u : Engine) :
    t.custody u = s.custody u ∨
    ∃ a rest, s.pending = a :: rest ∧
      (t.custody u = .host ∧ s.GivesBack u a ∨
       ∃ w i, a.command? s.params = some w ∧ decode w = .ok i ∧ i.engine = u ∧
         exec i { s with pending := rest } = .next t) := by
  rcases step_cases s with ⟨_, hstep⟩ | ⟨a, rest, hp, ⟨w, i, hw, hd, hstep⟩ | ⟨w, _, _, _, hstep⟩ | ⟨_, hstep⟩⟩ <;>
    rw [hstep] at h
  · cases h; exact .inl rfl
  · by_cases hu : i.engine = u
    · exact .inr ⟨a, rest, hp, .inr ⟨w, i, hw, hd, hu, h⟩⟩
    · have hother : t.custody u = State.custody { s with pending := rest } u := exec_custody_other h hu
      exact .inl hother
  · cases h; exact .inl (State.malformed_custody _ _ u)
  · rcases serve_custody h u with hsame | ⟨hhost, hback⟩
    · exact .inl hsame
    · exact .inr ⟨a, rest, hp, .inl ⟨hhost, hback⟩⟩

/-- Settles O14: START, FEED and END by the custody they leave, the read of an END's result by the release it makes, and
the last part by what a step can do to a window's custody. -/
theorem hostGetsWindowAtResultRead : Obligations.HostGetsWindowAtResultRead := by
  refine ⟨fun i s t hi h hok => ?_, fun i s hi hp => ?_, fun s rest u r hc hr hp => ?_, fun s t u h => ⟨?_, ?_⟩⟩
  · rw [exec_custody h]
    exact Instr.custodyAfter_start hi ((exec_start_ok_iff hi h).1 hok) _
  · exact ⟨_, exec_eq i s, (exec_custody (exec_eq i s)).trans (Instr.custodyAfter_opened hi hp _)⟩
  · have hrelease := State.afterRead_unread (s := { s with pending := rest }) (Reg.mem_resultRegs_iff.1 hr) hc
    exact ⟨_, step_regRead hp, (congrArg (State.custody · u) hrelease).trans (State.release_custody _ u),
      (congrArg (State.racedOf · u) hrelease).trans (State.release_racedOf _ u)⟩
  · intro hs ht
    rcases step_custody h u with hsame | ⟨a, rest, hp, ⟨_, hback⟩ | ⟨w, i, _, _, rfl, hexec⟩⟩
    · exact absurd (hsame.symm.trans ht) hs
    · rcases hback with ⟨addr, r, rfl, hsel, hr, hc⟩ | rfl | ⟨w, rfl⟩
      · exact .inl ⟨hc, addr, rest, r, hp, hsel, Reg.mem_resultRegs_iff.2 hr⟩
      · exact .inr (.inl ⟨rest, hp⟩)
      · exact .inr (.inr ⟨w, rest, hp⟩)
    · exact absurd ((exec_custody hexec).symm.trans ht) (Instr.custodyAfter_ne_host i _ hs)
  · intro hs ht
    rcases step_custody h u with hsame | ⟨a, rest, hp, ⟨hhost, _⟩ | ⟨w, i, hw, hd, rfl, hexec⟩⟩
    · exact absurd (hsame.trans hs) ht
    · exact absurd hhost ht
    · have hhost : State.custody { s with pending := rest } i.engine = .host := hs
      rw [exec_custody hexec, hhost] at ht
      exact ⟨a, rest, w, i, hp, hw, hd, rfl,
        (Instr.takes_window ht).imp_left fun ⟨hi, hacc⟩ => ⟨hi, (exec_start_ok_iff hi hexec).2 hacc⟩⟩

/-! ### Final bytes (R216) -/

/-- A write goes to the slot, or to an offset from the cursor on that has room: not below the cursor but to the slot. -/
def Enc.SparesFinal (e : Enc) (c : Host.Cell) : Prop :=
  c.1 = e.address e.slot ∨ ∃ off, c.1 = e.address off ∧ e.cursor.toNat ≤ off.toNat ∧ off.toNat < e.winCap.toNat

theorem Enc.SparesFinal.of_cursor {e : Enc} {c : Host.Cell} (hc : c.1 = e.address e.cursor) (hf : e.full = false) :
    e.SparesFinal c :=
  .inr ⟨e.cursor, hc, Nat.le_refl _, (Session.not_full_iff _).1 hf⟩

/-- What spares the final bytes after a block was opened spared them before: the new slot is the old cursor. -/
theorem Enc.SparesFinal.of_openBlock {e : Enc} {c : Host.Cell} (h : e.openBlock.SparesFinal c) (hf : e.full = false) :
    e.SparesFinal c := by
  rcases h with hslot | ⟨off, hoff, hcursor, hroom⟩
  · exact .of_cursor hslot hf
  · have hnext : e.openBlock.cursor.toNat = e.cursor.toNat + 1 := Session.toNat_succ_of_room hf
    exact .inr ⟨off, hoff, by omega, hroom⟩

theorem Enc.consume_sparesFinal {e : Enc} {b : Byte} {c : Host.Cell} (hc : c ∈ (e.consume b).writes) :
    e.SparesFinal c := by
  rcases e.consume_cases b with ⟨_, _, h⟩ | ⟨hf, _, h⟩ | ⟨_, _, h⟩ <;> rw [h] at hc
  · split at hc
    · exact .inl (congrArg Prod.fst (List.mem_singleton.1 hc))
    · cases hc
  · exact .of_cursor (congrArg Prod.fst (List.mem_singleton.1 hc)) hf
  · exact .inl (congrArg Prod.fst (List.mem_singleton.1 hc))

/-- A FEED or END writes only what its effect on an open session writes. -/
theorem Enc.whenOpen_writes {e : Enc} {f : Enc → Effect Enc} {c : Host.Cell} (hc : c ∈ (e.whenOpen f).writes) :
    c ∈ (f e).writes := by
  rcases e.whenOpen_cases f with ⟨_, h⟩ | ⟨_, h⟩ | ⟨_, h⟩ <;> rw [h] at hc
  · cases hc
  · cases hc
  · exact hc

theorem Enc.feed_sparesFinal {e : Enc} {b : Byte} {c : Host.Cell} (hc : c ∈ (e.feed b).writes) : e.SparesFinal c := by
  replace hc := Enc.whenOpen_writes hc
  rcases e.feedOpen_cases b with ⟨_, _, h⟩ | ⟨_, hf, h⟩ | ⟨_, h⟩ <;> rw [h] at hc
  · exact .inl (congrArg Prod.fst (List.mem_singleton.1 hc))
  · rcases List.mem_cons.1 hc with rfl | hc
    · exact .inl rfl
    · exact (Enc.consume_sparesFinal hc).of_openBlock hf
  · exact Enc.consume_sparesFinal hc

theorem Enc.finish_sparesFinal {e : Enc} {c : Host.Cell} (hc : c ∈ e.finish.writes) : e.SparesFinal c := by
  replace hc := Enc.whenOpen_writes hc
  rcases e.finishOpen_cases with ⟨_, h⟩ | ⟨hf, h⟩ <;> rw [h] at hc
  · exact .inl (congrArg Prod.fst (List.mem_singleton.1 hc))
  · rcases List.mem_pair.1 hc with rfl | rfl
    · exact .inl rfl
    · exact .of_cursor rfl hf

/-- Every write of the encoder spares the final bytes of its session (40_encoder.md R114, R120). -/
theorem Instr.encEffect_sparesFinal {i : Instr} {e : Enc} {c : Host.Cell} (hc : c ∈ (Instr.encEffect i e).writes) :
    e.SparesFinal c := by
  cases i with
  | encStart => rw [Instr.encEffect, Enc.start_writes] at hc; cases hc
  | encFeed b _ => exact Enc.feed_sparesFinal hc
  | encEnd => exact Enc.finish_sparesFinal hc
  | decStart | decFeed | decEnd => cases hc

/-- An offset below the capacity has the address of no other one, in a window that does not pass the top of memory. -/
theorem Session.Inv.address_ne {x : Session} (h : x.Inv) {off : Word} (ho : off.toNat < x.winCap.toNat) {k : Nat}
    (hk : k ≠ off.toNat) : x.address off ≠ x.winBase.toNat + k := by
  obtain ⟨_, _, hwin, _⟩ := h
  rw [Session.address_eq hwin ho]
  omega

theorem Enc.Inv.writes_ne_final {e : Enc} (h : e.Inv) (hp : e.phase = .opened) {i : Instr} {c : Host.Cell}
    (hc : c ∈ (Instr.encEffect i e).writes) {k : Nat} (hk : k < e.cursor.toNat) (hslot : k ≠ e.slot.toNat) :
    c.1 ≠ e.winBase.toNat + k := by
  obtain ⟨hsession, _, hblock⟩ := h
  obtain ⟨hslotroom, _⟩ := hblock (by simp [hp])
  rcases Instr.encEffect_sparesFinal hc with hoff | ⟨off, hoff, hcursor, hroom⟩ <;> rw [hoff]
  · exact hsession.address_ne hslotroom hslot
  · exact hsession.address_ne hroom (by omega)

theorem Dec.Inv.writes_ne_final {d : Dec} (h : d.Inv) {i : Instr} {legacy : Bool} {c : Host.Cell}
    (hc : c ∈ (Instr.decEffect i legacy d).writes) {k : Nat} (hk : k < d.cursor.toNat) :
    c.1 ≠ d.winBase.toNat + k := by
  obtain ⟨hsession, _⟩ := h
  obtain ⟨hcursor, hroom⟩ := Instr.decEffect_writes hc
  rw [hcursor]
  exact hsession.address_ne hroom hk.ne

/-- Settles O16: no write of either engine goes to a final byte. The premise on `LASTRES` is not needed. -/
theorem finalBytesStayFinal : Obligations.FinalBytesStayFinal := by
  intro i s t k hs _ hp h _ hk hslot
  obtain ⟨henc, hdec, _, _⟩ := State.inv_iff.1 hs
  cases hi : i.engine with
  | enc =>
    rw [hi] at hp hk
    rw [exec_enc hi] at h; cases h
    exact State.read_land_other fun c hc => henc.writes_ne_final hp hc hk (hslot hi)
  | dec =>
    rw [hi] at hk
    rw [exec_dec hi] at h; cases h
    exact State.read_land_other fun c hc => hdec.writes_ne_final hc hk

end Sys2Proof.Machine
end
